-- ==== Sys2Proof/Word.lean ====
section
/-! DEFINITION. The word types of the block: frames, table indexes and binary64 bit patterns
(00_scope.md R9, R11; 30_encoding.md R70, R79). -/

namespace Sys2Proof

/-- `RawFrame`: a 32-bit unsigned word, bit index 0 the least significant (R70). -/
abbrev Frame := BitVec 32

/-- A job index, a frame reference or a frame index: 16 bits unsigned (R9). -/
abbrev Index := BitVec 16

/-- The bit pattern of an IEEE 754 binary64 operand or result port, `f64` (R79). -/
abbrev F64 := BitVec 64

end Sys2Proof
end

