-- ==== Sys2Proof/Syntax.lean ====
section
/-! DEFINITION. The syntax of the block: its enumerations (30_encoding.md R72, R73, R75), the job record (R74), the
ONE inductive of instructions with a constructor per row of the opcode table, and the encoded forms: a request on the
operand ports (R80 to R82) and a job word (R74). -/

namespace Sys2Proof

/-- `Format` (R72). -/
inductive Format
  | bcd
  | bnr
  | discrete
  deriving DecidableEq, Repr

/-- `SdiMode` (R73). -/
inductive SdiMode
  | sdi0
  | sdi1
  | sdi2
  | sdi3
  | data
  deriving DecidableEq, Repr

/-- `SsmValue`, the engineering-level SSM (R73). -/
inductive SsmValue
  | data
  | normalOperation
  | noComputedData
  | functionalTest
  | failureWarning
  deriving DecidableEq, Repr

/-- The ten job kinds (R75). -/
inductive JobKind
  | skip
  | dwell
  | single
  | cyclic
  | retransmitRx1
  | retransmitRx2
  | jump
  | ret
  | callback
  | stop
  deriving DecidableEq, Repr

/-- One job record as a slot of the job table stores it (R29, R74); its `index` is the slot's address. -/
structure Job where
  kind : JobKind
  frameRef : Index
  dwellMs : BitVec 8
  deriving DecidableEq, Repr

/-- The two receive channels a retransmit job can name (R9, R31). -/
inductive RxChannel
  | rx1
  | rx2
  deriving DecidableEq, Repr

/-- One constructor per row of the opcode table: the codec operations with their operand ports (R80), the job kinds
with the two operand fields of a job word (R74), the scheduler commands with their operands (46_scheduler_commands.md).
A port whose illegal codes the spec answers with an error status (`SdiMode`, `SsmValue`) keeps its raw code here. -/
inductive Instr
  | getBits (frame : Frame) (lsbPos size : BitVec 8)
  | setBits (frame : Frame) (lsbPos size : BitVec 8) (value : BitVec 32)
  | bin2bcd (n : BitVec 32)
  | bcd2bin (bcd : BitVec 32)
  | encBcd (frameIn : Frame) (lsbPos size : BitVec 8) (engMin engMax engValue : F64) (ssmIntent : BitVec 3)
  | encBnr (frameIn : Frame) (lsbPos size : BitVec 8) (engMin engMax engValue : F64) (ssmIntent : BitVec 3)
  | encDisc (frameIn : Frame) (lsbPos size : BitVec 8) (engMin engMax engValue : F64) (ssmIntent : BitVec 3)
  | decBcd (frame : Frame) (lsbPos size : BitVec 8) (engMin engMax : F64) (decimals : BitVec 8)
  | decBnr (frame : Frame) (lsbPos size : BitVec 8) (engMin engMax : F64) (decimals : BitVec 8)
  | decDisc (frame : Frame) (lsbPos size : BitVec 8) (engMin engMax : F64) (decimals : BitVec 8)
  | createFrame (label : BitVec 16) (sdi : BitVec 3)
  | readLabel (frame : Frame)
  | readSdi (frame : Frame)
  | readSsmRaw (frame : Frame)
  | combineSsm (a b : BitVec 3)
  | skip (frameRef : Index) (dwellMs : BitVec 8)
  | dwell (frameRef : Index) (dwellMs : BitVec 8)
  | single (frameRef : Index) (dwellMs : BitVec 8)
  | cyclic (frameRef : Index) (dwellMs : BitVec 8)
  | retx1 (frameRef : Index) (dwellMs : BitVec 8)
  | retx2 (frameRef : Index) (dwellMs : BitVec 8)
  | jump (frameRef : Index) (dwellMs : BitVec 8)
  | ret (frameRef : Index) (dwellMs : BitVec 8)
  | callback (frameRef : Index) (dwellMs : BitVec 8)
  | stop (frameRef : Index) (dwellMs : BitVec 8)
  | tick
  | writeJob (index : Index) (word : BitVec 32)
  | clearJobs (first last : Index)
  | writeSlot (frameIndex : Index) (raw : Frame)
  | rxUpdate (channel : RxChannel) (ext : BitVec 10) (seen timedOut : Bool) (raw : Frame)
  | restart
  | cancel
  deriving DecidableEq, Repr

/-- The operand ports of the codec operations (R80) and of the commands (R201, R202, R206, R208), each under its own
name and width. An operation reads the ports its row names and no other. -/
structure Ports where
  frame : Frame := 0
  frameIn : Frame := 0
  lsbPos : BitVec 8 := 0
  size : BitVec 8 := 0
  value : BitVec 32 := 0
  n : BitVec 32 := 0
  bcd : BitVec 32 := 0
  engMin : F64 := 0
  engMax : F64 := 0
  engValue : F64 := 0
  ssmIntent : BitVec 3 := 0
  decimals : BitVec 8 := 0
  label : BitVec 16 := 0
  sdi : BitVec 3 := 0
  a : BitVec 3 := 0
  b : BitVec 3 := 0
  index : Index := 0
  word : BitVec 32 := 0
  first : Index := 0
  last : Index := 0
  frameIndex : Index := 0
  raw : Frame := 0
  channel : BitVec 1 := 0
  ext : BitVec 10 := 0
  seen : BitVec 1 := 0
  timedOut : BitVec 1 := 0
  deriving DecidableEq, Repr

/-- One move of an agent as it reaches the block: a codec selector (R81) or a command code (R82) with the ports. -/
inductive Request
  | codec (sel : BitVec 8) (ports : Ports)
  | command (cmd : BitVec 3) (ports : Ports)
  deriving DecidableEq, Repr

/-- The encoded form of an instruction: a request, or, for a job kind, the job word (R74). -/
inductive Encoded
  | request (r : Request)
  | job (word : BitVec 32)
  deriving DecidableEq, Repr

end Sys2Proof
end

