-- ==== Sys2Proof/WellFormed.lean ====
section
/-! DEFINITION. Which instructions are well-formed: a job's dwell is 0 to 250 (30_encoding.md R74). Every operand of a
codec operation or command is legal syntax: the spec answers its illegal values with a status (R86). -/

namespace Sys2Proof

/-- The legal range of `dwell_ms` (R9, R74). -/
def dwellOk (dwellMs : BitVec 8) : Bool := dwellMs.toNat ≤ 250

/-- The instruction has an encoding (R74, R80). -/
def Instr.wellFormed : Instr → Bool
  | .getBits _ _ _ => true
  | .setBits _ _ _ _ => true
  | .bin2bcd _ => true
  | .bcd2bin _ => true
  | .encBcd _ _ _ _ _ _ _ => true
  | .encBnr _ _ _ _ _ _ _ => true
  | .encDisc _ _ _ _ _ _ _ => true
  | .decBcd _ _ _ _ _ _ => true
  | .decBnr _ _ _ _ _ _ => true
  | .decDisc _ _ _ _ _ _ => true
  | .createFrame _ _ => true
  | .readLabel _ => true
  | .readSdi _ => true
  | .readSsmRaw _ => true
  | .combineSsm _ _ => true
  | .skip _ d => dwellOk d
  | .dwell _ d => dwellOk d
  | .single _ d => dwellOk d
  | .cyclic _ d => dwellOk d
  | .retx1 _ d => dwellOk d
  | .retx2 _ d => dwellOk d
  | .jump _ d => dwellOk d
  | .ret _ d => dwellOk d
  | .callback _ d => dwellOk d
  | .stop _ d => dwellOk d
  | .tick => true
  | .writeJob _ _ => true
  | .clearJobs _ _ => true
  | .writeSlot _ _ => true
  | .rxUpdate _ _ _ _ _ => true
  | .restart => true
  | .cancel => true

end Sys2Proof
end

