-- ==== Sys2Proof/Decode.lean ====
section
/-! DEFINITION. The decoder, total on every selector, command code and job word and rejecting by name, and after it the
encoder (30_encoding.md R72 to R75, R80 to R82, R86). -/

namespace Sys2Proof

/-- Why an encoding is no instruction (R86). -/
inductive DecodeError
  /-- A codec selector with `sel[3:0]` in 11 to 15, `sel[7:6]` non-zero, or a format on an operation without one. -/
  | reservedSelector
  /-- `Format` code 3 on `ENC` or `DEC`. -/
  | invalidFormat
  /-- Command code 7. -/
  | reservedCommand
  /-- A job word with `kind` 10 to 15. -/
  | reservedKind
  /-- A job word with a non-zero bit in 7:4. -/
  | nonzeroReservedBits
  /-- A job word with `dwell_ms` 251 to 255. -/
  | dwellTooLong
  deriving DecidableEq, Repr

/-! ## Codes of the enumerations -/

/-- `Format` codes (R72). -/
def formatOfCode (c : BitVec 2) : Option Format :=
  match c.toNat with
  | 0 => some .bcd
  | 1 => some .bnr
  | 2 => some .discrete
  | _ => none

/-- The code of a format (R72). -/
def formatCode : Format → BitVec 2
  | .bcd => 0
  | .bnr => 1
  | .discrete => 2

/-- `SdiMode` codes (R73). -/
def sdiModeOfCode (c : BitVec 3) : Option SdiMode :=
  match c.toNat with
  | 0 => some .sdi0
  | 1 => some .sdi1
  | 2 => some .sdi2
  | 3 => some .sdi3
  | 4 => some .data
  | _ => none

/-- The code of an SDI mode (R73). -/
def sdiModeCode : SdiMode → BitVec 3
  | .sdi0 => 0
  | .sdi1 => 1
  | .sdi2 => 2
  | .sdi3 => 3
  | .data => 4

/-- `SsmValue` codes (R73). -/
def ssmOfCode (c : BitVec 3) : Option SsmValue :=
  match c.toNat with
  | 0 => some .data
  | 1 => some .normalOperation
  | 2 => some .noComputedData
  | 3 => some .functionalTest
  | 4 => some .failureWarning
  | _ => none

/-- The code of an SSM value (R73). -/
def ssmCode : SsmValue → BitVec 3
  | .data => 0
  | .normalOperation => 1
  | .noComputedData => 2
  | .functionalTest => 3
  | .failureWarning => 4

/-- Job kind codes (R75). -/
def kindOfCode (c : BitVec 4) : Option JobKind :=
  match c.toNat with
  | 0 => some .skip
  | 1 => some .dwell
  | 2 => some .single
  | 3 => some .cyclic
  | 4 => some .retransmitRx1
  | 5 => some .retransmitRx2
  | 6 => some .jump
  | 7 => some .ret
  | 8 => some .callback
  | 9 => some .stop
  | _ => none

/-- The code of a job kind (R75). -/
def kindCode : JobKind → BitVec 4
  | .skip => 0
  | .dwell => 1
  | .single => 2
  | .cyclic => 3
  | .retransmitRx1 => 4
  | .retransmitRx2 => 5
  | .jump => 6
  | .ret => 7
  | .callback => 8
  | .stop => 9

/-- The `channel` port of `RX_UPDATE`: 0 means RX1, 1 means RX2 (R208). -/
def channelOfBit (c : BitVec 1) : RxChannel := if c = 0 then .rx1 else .rx2

/-- The `channel` port's bit (R208). -/
def channelBit : RxChannel → BitVec 1
  | .rx1 => 0
  | .rx2 => 1

/-- A 1-bit port as a flag. -/
def flagOfBit (b : BitVec 1) : Bool := b = 1

/-- A flag on a 1-bit port. -/
def bitOfFlag (b : Bool) : BitVec 1 := if b then 1 else 0

/-! ## Jobs -/

/-- The instruction a job record stands for (R75). -/
def jobInstr (j : Job) : Instr :=
  match j.kind with
  | .skip => .skip j.frameRef j.dwellMs
  | .dwell => .dwell j.frameRef j.dwellMs
  | .single => .single j.frameRef j.dwellMs
  | .cyclic => .cyclic j.frameRef j.dwellMs
  | .retransmitRx1 => .retx1 j.frameRef j.dwellMs
  | .retransmitRx2 => .retx2 j.frameRef j.dwellMs
  | .jump => .jump j.frameRef j.dwellMs
  | .ret => .ret j.frameRef j.dwellMs
  | .callback => .callback j.frameRef j.dwellMs
  | .stop => .stop j.frameRef j.dwellMs

/-- A job word's record, or the name of what is wrong with it (R74, R86). -/
def decodeJobWord (w : BitVec 32) : Except DecodeError Job :=
  match kindOfCode (w.extractLsb' 0 4) with
  | none => .error .reservedKind
  | some kind =>
    if w.extractLsb' 4 4 = 0 then
      if dwellOk (w.extractLsb' 8 8) then
        .ok { kind := kind, frameRef := w.extractLsb' 16 16, dwellMs := w.extractLsb' 8 8 }
      else .error .dwellTooLong
    else .error .nonzeroReservedBits

/-- `JobWordOk` exactly as written (46_scheduler_commands.md R203). -/
def jobWordOk (w : BitVec 32) : Bool :=
  (w.extractLsb' 0 4).toNat ≤ 9 && (w.extractLsb' 4 4).toNat = 0 && (w.extractLsb' 8 8).toNat ≤ 250

/-! ## Requests -/

/-- A codec selector, `00ffoooo`, with the operand ports (R81, R86). -/
def decodeSelector (sel : BitVec 8) (p : Ports) : Except DecodeError Instr :=
  if sel.extractLsb' 6 2 = 0 then
    match (sel.extractLsb' 0 4).toNat with
    | 4 =>
      match formatOfCode (sel.extractLsb' 4 2) with
      | some .bcd => .ok (.encBcd p.frameIn p.lsbPos p.size p.engMin p.engMax p.engValue p.ssmIntent)
      | some .bnr => .ok (.encBnr p.frameIn p.lsbPos p.size p.engMin p.engMax p.engValue p.ssmIntent)
      | some .discrete => .ok (.encDisc p.frameIn p.lsbPos p.size p.engMin p.engMax p.engValue p.ssmIntent)
      | none => .error .invalidFormat
    | 5 =>
      match formatOfCode (sel.extractLsb' 4 2) with
      | some .bcd => .ok (.decBcd p.frame p.lsbPos p.size p.engMin p.engMax p.decimals)
      | some .bnr => .ok (.decBnr p.frame p.lsbPos p.size p.engMin p.engMax p.decimals)
      | some .discrete => .ok (.decDisc p.frame p.lsbPos p.size p.engMin p.engMax p.decimals)
      | none => .error .invalidFormat
    | op =>
      if sel.extractLsb' 4 2 = 0 then
        match op with
        | 0 => .ok (.getBits p.frame p.lsbPos p.size)
        | 1 => .ok (.setBits p.frame p.lsbPos p.size p.value)
        | 2 => .ok (.bin2bcd p.n)
        | 3 => .ok (.bcd2bin p.bcd)
        | 6 => .ok (.createFrame p.label p.sdi)
        | 7 => .ok (.readLabel p.frame)
        | 8 => .ok (.readSdi p.frame)
        | 9 => .ok (.readSsmRaw p.frame)
        | 10 => .ok (.combineSsm p.a p.b)
        | _ => .error .reservedSelector
      else .error .reservedSelector
  else .error .reservedSelector

/-- A command code with the operand ports (R82, R86). -/
def decodeCommand (cmd : BitVec 3) (p : Ports) : Except DecodeError Instr :=
  match cmd.toNat with
  | 0 => .ok .tick
  | 1 => .ok (.writeJob p.index p.word)
  | 2 => .ok (.clearJobs p.first p.last)
  | 3 => .ok (.writeSlot p.frameIndex p.raw)
  | 4 => .ok (.rxUpdate (channelOfBit p.channel) p.ext (flagOfBit p.seen) (flagOfBit p.timedOut) p.raw)
  | 5 => .ok .restart
  | 6 => .ok .cancel
  | _ => .error .reservedCommand

/-- The instruction a request asks for (R81, R82). -/
def decodeRequest : Request → Except DecodeError Instr
  | .codec sel p => decodeSelector sel p
  | .command cmd p => decodeCommand cmd p

/-- The instruction an encoded form stands for (R74, R81, R82). -/
def decode : Encoded → Except DecodeError Instr
  | .request r => decodeRequest r
  | .job w =>
    match decodeJobWord w with
    | .ok j => .ok (jobInstr j)
    | .error e => .error e

/-- The encoded form whose code is a word of the opcode table, every operand port 0: a row of fewer than 8 bits is a
command (format CMD), of 8 bits a codec selector (SEL), of more a job word (JOB). -/
def tableEncoding (nbits w : Nat) : Encoded :=
  if nbits < 8 then .request (.command (BitVec.ofNat 3 w) {})
  else if nbits = 8 then .request (.codec (BitVec.ofNat 8 w) {})
  else .job (BitVec.ofNat 32 w)

/-- The instruction the decoder reads from a word of the opcode table, operand ports at 0; `none` where it refuses. -/
def decodeTableWord (nbits w : Nat) : Option Instr :=
  match decode (tableEncoding nbits w) with
  | .ok i => some i
  | .error _ => none

/-! ## The encoder -/

/-- The job word of a record (R74). -/
def encodeJob (j : Job) : BitVec 32 := j.frameRef ++ j.dwellMs ++ (0#4 ++ kindCode j.kind)

/-- The encoded form of an instruction (R74, R75, R81, R82). Ports the instruction does not name are 0. -/
def encode : Instr → Encoded
  | .getBits f l z => .request (.codec 0x00 { frame := f, lsbPos := l, size := z })
  | .setBits f l z v => .request (.codec 0x01 { frame := f, lsbPos := l, size := z, value := v })
  | .bin2bcd n => .request (.codec 0x02 { n := n })
  | .bcd2bin b => .request (.codec 0x03 { bcd := b })
  | .encBcd f l z lo hi v m =>
    .request (.codec 0x04
      { frameIn := f, lsbPos := l, size := z, engMin := lo, engMax := hi, engValue := v, ssmIntent := m })
  | .encBnr f l z lo hi v m =>
    .request (.codec 0x14
      { frameIn := f, lsbPos := l, size := z, engMin := lo, engMax := hi, engValue := v, ssmIntent := m })
  | .encDisc f l z lo hi v m =>
    .request (.codec 0x24
      { frameIn := f, lsbPos := l, size := z, engMin := lo, engMax := hi, engValue := v, ssmIntent := m })
  | .decBcd f l z lo hi d =>
    .request (.codec 0x05 { frame := f, lsbPos := l, size := z, engMin := lo, engMax := hi, decimals := d })
  | .decBnr f l z lo hi d =>
    .request (.codec 0x15 { frame := f, lsbPos := l, size := z, engMin := lo, engMax := hi, decimals := d })
  | .decDisc f l z lo hi d =>
    .request (.codec 0x25 { frame := f, lsbPos := l, size := z, engMin := lo, engMax := hi, decimals := d })
  | .createFrame l m => .request (.codec 0x06 { label := l, sdi := m })
  | .readLabel f => .request (.codec 0x07 { frame := f })
  | .readSdi f => .request (.codec 0x08 { frame := f })
  | .readSsmRaw f => .request (.codec 0x09 { frame := f })
  | .combineSsm a b => .request (.codec 0x0A { a := a, b := b })
  | .skip r d => .job (encodeJob ⟨.skip, r, d⟩)
  | .dwell r d => .job (encodeJob ⟨.dwell, r, d⟩)
  | .single r d => .job (encodeJob ⟨.single, r, d⟩)
  | .cyclic r d => .job (encodeJob ⟨.cyclic, r, d⟩)
  | .retx1 r d => .job (encodeJob ⟨.retransmitRx1, r, d⟩)
  | .retx2 r d => .job (encodeJob ⟨.retransmitRx2, r, d⟩)
  | .jump r d => .job (encodeJob ⟨.jump, r, d⟩)
  | .ret r d => .job (encodeJob ⟨.ret, r, d⟩)
  | .callback r d => .job (encodeJob ⟨.callback, r, d⟩)
  | .stop r d => .job (encodeJob ⟨.stop, r, d⟩)
  | .tick => .request (.command 0 {})
  | .writeJob i w => .request (.command 1 { index := i, word := w })
  | .clearJobs f l => .request (.command 2 { first := f, last := l })
  | .writeSlot i r => .request (.command 3 { frameIndex := i, raw := r })
  | .rxUpdate c e sn t r =>
    .request (.command 4
      { channel := channelBit c, ext := e, seen := bitOfFlag sn, timedOut := bitOfFlag t, raw := r })
  | .restart => .request (.command 5 {})
  | .cancel => .request (.command 6 {})

end Sys2Proof
end

