-- ==== Sys2Proof/Config.lean ====
section
/-! DEFINITION. The parameters the document leaves to the implementation (00_scope.md R10). They are fields of
one structure every one of whose values is legal, and the machine runs at ONE opaque value of it: nothing in Lean can
evaluate it, so what is proved of the machine holds for every choice of the parameters (log entry 3). -/

namespace Sys2Proof

/-- `ROUND_TIES`: how `Round` breaks a tie (R10, R12, D11). -/
inductive RoundTies
  | halfAwayFromZero
  | halfToEven
  deriving DecidableEq, Repr, Inhabited

/-- The named parameters of R10. `JOB_SLOTS` and `FRAME_SLOTS` are integers from 1 to 65536, so each is held as the
16-bit index of the table's last slot. -/
structure Params where
  /-- `JOB_SLOTS - 1`. -/
  jobLast : Index
  /-- `FRAME_SLOTS - 1`. -/
  frameLast : Index
  /-- `TX_CHANNEL`: passed unchanged to the collaborator, no rule computes with it. -/
  txChannel : Nat
  /-- `ROUND_TIES`. -/
  roundTies : RoundTies
  deriving DecidableEq, Repr, Inhabited

/-- `JOB_SLOTS` (R10). -/
def Params.jobSlots (p : Params) : Nat := p.jobLast.toNat + 1

/-- `FRAME_SLOTS` (R10). -/
def Params.frameSlots (p : Params) : Nat := p.frameLast.toNat + 1

/-- The parameters of the machine: an uninterpreted constant (OPEN in the spec, R10; log entry 3). -/
opaque Config.params : Params

end Sys2Proof
end

