-- ==== Sys2Proof/Machine/State.lean ====
section
/-! DEFINITION. The state of the block as plain data: the scheduler registers, the job table, the frame table and the
receive tables (10_state.md R23 to R31), and two fields of the model's own: the response of the last operation
(log entry 2) and the agents' moves still to come (log entry 1). -/

namespace Sys2Proof.Machine

/-- The status port (30_encoding.md R83); codes 6 and 7 are never produced. -/
inductive Status
  | ok
  | invalidFieldSpec
  | invalidLabelOrSdi
  | negativeNotAllowed
  | scheduleIndexConflict
  | warnUnreachableIndex
  deriving DecidableEq, Repr

/-- `SchedulerAction` (R84). -/
inductive Action
  | transmit (f : Frame)
  | wait (ms : BitVec 8)
  | notifyCycleComplete
  | halted
  deriving DecidableEq, Repr

/-- The result ports of one operation (R80), and the action list of a tick (R84). `none` is the absence of a result: a
command that returns its status alone, or an error (R13, D45). -/
inductive Result
  | none
  | value (v : BitVec 32)
  | frameOut (f : Frame)
  | bcd (b : BitVec 32)
  | n (n : BitVec 32)
  /-- `DEC.*`: the exact rational `eng_q`, the port `eng_value` that carries `F64(eng_q)`, and `ssm` (R140). -/
  | decoded (engQ : Rat) (engValue : F64) (ssm : SsmValue)
  | label (l : BitVec 8)
  | sdi (d : BitVec 2)
  | ssmRaw (r : BitVec 2)
  | ssm (v : SsmValue)
  | actions (l : List Action)
  deriving DecidableEq, Repr

/-- What an operation returns: its status and its results (R13, R220). -/
structure Response where
  status : Status
  result : Result
  deriving DecidableEq, Repr

/-- One slot of the frame table: the 32-bit `raw_frame` and the flag `ARMED` (R30). -/
structure SlotEntry where
  raw : Frame
  armed : Bool
  deriving DecidableEq, Repr

/-- One entry of a receive table (R31). -/
structure RxEntry where
  seen : Bool
  timedOut : Bool
  raw : Frame
  deriving DecidableEq, Repr

/-- A table of entries by index: a list of pairs in the canonical form of `Memory.wf` (log entry 4). -/
abbrev Table (α : Type) := List (Nat × α)

/-- Why the machine stops with a fault. The type has no value: the block has no trap (60_exceptions.md R234), every
error is a status of the operation that meets it (R220), so no meaning and no step raises a fault. -/
inductive Fault
  deriving DecidableEq, Repr

/-- Why an instruction has no meaning. -/
inductive Refusal
  /-- Raised by an arm of `exec` for an instruction the model does not give a meaning (safe); no arm raises it. -/
  | notModelled (mnemonic : String)
  deriving DecidableEq, Repr

structure State where
  /-- `PC` (R23). -/
  pc : Index
  /-- `RET`, the one-level return point (R24). -/
  ret : Option Index
  /-- `HALTED` (R25). -/
  halted : Bool
  /-- `CANCEL` (R26). -/
  cancel : Bool
  /-- `JOB`: an unlisted index is an invalid slot, `None` (R29). -/
  jobs : Table Job
  /-- `SLOT` and `ARMED`: an unlisted index holds `raw_frame = 0`, `ARMED = 0` (R30). -/
  slots : Table SlotEntry
  /-- `RX[1]`: an unlisted index holds `seen = 0`, `timed_out = 0`, `raw = 0` (R31). -/
  rx1 : Table RxEntry
  /-- `RX[2]`, as `RX[1]` (R31). -/
  rx2 : Table RxEntry
  /-- The ports as the last completed operation left them; read by no operation (log entry 2). -/
  response : Response
  /-- The agents' moves still to come, oldest first (R21, R61; log entry 1). -/
  pending : List Request
  deriving DecidableEq, Repr

/-- The state right after reset (R36, R250). -/
def State.reset : State where
  pc := 0
  ret := none
  halted := false
  cancel := false
  jobs := []
  slots := []
  rx1 := []
  rx2 := []
  response := { status := .ok, result := .none }
  pending := []

end Sys2Proof.Machine
end

