-- ==== Sys2Proof/Machine/Ops.lean ====
section
/-! DEFINITION. The named operations over the registers and tables of the block: table access and its canonical form,
the updates of each field, fetching, the ends of a tick (normal, warning, scheduler error) and the restart. -/

namespace Sys2Proof.Machine

/-! ## Tables -/

/-- The entry listed at an index. -/
def tableFind {α : Type} : Table α → Nat → Option α
  | [], _ => none
  | (k, v) :: t, i => if i = k then some v else tableFind t i

/-- List an entry at an index, in place of what stood there. -/
def tableInsert {α : Type} : Table α → Nat → α → Table α
  | [], i, v => [(i, v)]
  | (k, w) :: t, i, v =>
    if i < k then (i, v) :: (k, w) :: t
    else if i = k then (i, v) :: t
    else (k, w) :: tableInsert t i v

/-- Unlist the indexes `first` to `last`. -/
def tableEraseRange {α : Type} (first last : Nat) : Table α → Table α
  | [] => []
  | (k, v) :: t =>
    if first ≤ k && k ≤ last then tableEraseRange first last t else (k, v) :: tableEraseRange first last t

/-- Write an entry: an entry equal to what an unlisted index holds is unlisted, any other is listed. -/
def tableWrite {α : Type} [DecidableEq α] (dflt : α) (t : Table α) (i : Nat) (v : α) : Table α :=
  if v = dflt then tableEraseRange i i t else tableInsert t i v

/-- The indexes rise strictly, the first being at least `lo`. -/
def tableRising {α : Type} (lo : Nat) : Table α → Bool
  | [] => true
  | (k, _) :: t => lo ≤ k && tableRising (k + 1) t

/-- The canonical form: indexes rise strictly and are below `bound`, and every listed entry passes `ok`. -/
def tableWf {α : Type} (bound : Nat) (ok : α → Bool) (t : Table α) : Bool :=
  tableRising 0 t && t.all fun e => e.1 < bound && ok e.2

/-- What an unlisted slot of the frame table holds (R30, R36). -/
def emptySlot : SlotEntry := { raw := 0, armed := false }

/-- What an unlisted entry of a receive table holds (R31, R36). -/
def emptyRx : RxEntry := { seen := false, timedOut := false, raw := 0 }

/-- The number of entries of a receive table: the extended label has 10 bits (R31). -/
def rxEntries : Nat := 1024

/-- The four tables are in canonical form, inside their bounds, and the job table holds legal dwells only (R29 to R31,
R74). -/
def Memory.wf (p : Params) (s : State) : Bool :=
  tableWf p.jobSlots (fun j => dwellOk j.dwellMs) s.jobs
    && tableWf p.frameSlots (fun e => e != emptySlot) s.slots
    && tableWf rxEntries (fun e => e != emptyRx) s.rx1
    && tableWf rxEntries (fun e => e != emptyRx) s.rx2

/-! ## Updates of one field -/

/-- `PC <- v`. -/
def setPc (v : Index) (s : State) : State := { s with pc := v }

/-- `RET <- v`. -/
def setRet (v : Option Index) (s : State) : State := { s with ret := v }

/-- `HALTED <- v`. -/
def setHalted (v : Bool) (s : State) : State := { s with halted := v }

/-- `CANCEL <- v`. -/
def setCancel (v : Bool) (s : State) : State := { s with cancel := v }

/-- Replace the job table. -/
def setJobs (t : Table Job) (s : State) : State := { s with jobs := t }

/-- Replace the frame table. -/
def setSlots (t : Table SlotEntry) (s : State) : State := { s with slots := t }

/-- Replace `RX[1]`. -/
def setRx1 (t : Table RxEntry) (s : State) : State := { s with rx1 := t }

/-- Replace `RX[2]`. -/
def setRx2 (t : Table RxEntry) (s : State) : State := { s with rx2 := t }

/-- Drive the status and result ports (R13). -/
def respond (status : Status) (result : Result) (s : State) : State :=
  { s with response := { status := status, result := result } }

/-- Replace the moves still to come. -/
def setPending (l : List Request) (s : State) : State := { s with pending := l }

/-! ## Reads and writes of the tables (00_scope.md R13) -/

/-- `MemRead(JOB, i)` (R13, R29). -/
def jobAt (s : State) (i : Index) : Option Job := tableFind s.jobs i.toNat

/-- `MemWrite(JOB, i, j)` (R13, R29). -/
def writeJobSlot (i : Index) (j : Job) (s : State) : State := setJobs (tableInsert s.jobs i.toNat j) s

/-- `MemWrite(JOB, i, None)` for every `i` in `first .. last` (R202). -/
def clearJobSlots (first last : Index) (s : State) : State :=
  setJobs (tableEraseRange first.toNat last.toNat s.jobs) s

/-- `MemRead(SLOT, i)` with `ARMED[i]` (R13, R30). -/
def slotAt (s : State) (i : Index) : SlotEntry := (tableFind s.slots i.toNat).getD emptySlot

/-- `MemWrite(SLOT, i, raw)` with `ARMED[i] <- armed` (R13, R30). -/
def writeSlotEntry (i : Index) (e : SlotEntry) (s : State) : State :=
  setSlots (tableWrite emptySlot s.slots i.toNat e) s

/-- `MemRead(RX, c, e)` (R13, R31). -/
def rxAt (s : State) (c : RxChannel) (e : Nat) : RxEntry :=
  match c with
  | .rx1 => (tableFind s.rx1 e).getD emptyRx
  | .rx2 => (tableFind s.rx2 e).getD emptyRx

/-- Write one entry of a receive table as one unit (R55, R208). -/
def writeRxEntry (c : RxChannel) (e : Nat) (x : RxEntry) (s : State) : State :=
  match c with
  | .rx1 => setRx1 (tableWrite emptyRx s.rx1 e x) s
  | .rx2 => setRx2 (tableWrite emptyRx s.rx2 e x) s

/-! ## The program counter and the ends of a tick -/

/-- `Next = (PC + 1) mod 2^16` (R23, R170). -/
def nextPc (s : State) : Index := s.pc + 1

/-- "Advance PC" (R23, R170). -/
def advancePc (s : State) : State := setPc (nextPc s) s

/-- The job `MemRead` finds at an index inside the table; a job outside the table is never found (R59, R171). -/
def fetchJob (p : Params) (s : State) (i : Index) : Option Job :=
  if i.toNat < p.jobSlots then jobAt s i else none

/-- `Reachable(i)` (R171). -/
def reachable (p : Params) (s : State) (i : Index) : Bool := (fetchJob p s i).isSome

/-- The end of a tick: the action list and the status leave the block (R84, R200). -/
def endTick (status : Status) (acts : List Action) (s : State) : State := respond status (.actions acts) s

/-- `DwellStep(j)`: what it emits (R173). -/
def dwellStep (dwellMs : BitVec 8) : List Action := if 0 < dwellMs.toNat then [.wait dwellMs] else []

/-- An unreachable index or reference: warn, advance, no action, no wait (R171, R172). -/
def warnSkip (s : State) : State := endTick .warnUnreachableIndex [] (advancePc s)

/-- `SchedFail`, the one error that writes state: halt, `[Halted]`, `PC` and `RET` kept (R181, R225). -/
def schedFail (s : State) : State := endTick .scheduleIndexConflict [.halted] (setHalted true s)

/-- The return from a halt: the four scheduler registers go to the document's initial state (R205, R235). -/
def restartRegisters (s : State) : State := setPc 0 (setRet none (setHalted false (setCancel false s)))

/-! ## Requests -/

/-- A request that decodes to no operation: nothing is performed, the status is `InvalidFieldSpec` (R86). -/
def rejectRequest (s : State) : State := respond .invalidFieldSpec .none s

/-- Present a request before every other pending move. -/
def pushRequest (r : Request) (s : State) : State := setPending (r :: s.pending) s

/-- Make a job the one the very next step executes: it stands at `PC` (moved to 0 if it points outside the table), the
scheduler neither halted nor cancelled, and no other move before its tick. -/
def placeJob (p : Params) (j : Job) (s : State) : State :=
  let s := setHalted false (setCancel false s)
  let s := if s.pc.toNat < p.jobSlots then s else setPc 0 s
  let s := writeJobSlot s.pc j s
  if s.pending.isEmpty then s else pushRequest (.command 0 {}) s

/-- Make an encoded form the next thing the machine runs. A word that is no job cannot stand in the table (R86, U14): it
leaves the state as it is. -/
def placeEncoded (p : Params) (x : Encoded) (s : State) : State :=
  match x with
  | .request r => pushRequest r s
  | .job w =>
    match decodeJobWord w with
    | .ok j => placeJob p j s
    | .error _ => s

end Sys2Proof.Machine
end

