-- ==== Sys2Proof/Machine/Operands.lean ====
section
/-! DEFINITION. Operand forms: bit fields of a frame (30_encoding.md R71, 40_bitfield.md R100), binary64 operands as
exact rationals and back (R79, R12, R148), `Round` and `clip` (R12), BCD packing (41_bcd_codec.md R110, R111), and the
operand bundles of `ENC.*` and `DEC.*` with the checks they share (R121, R141). -/

namespace Sys2Proof.Machine

/-! ## Bit fields -/

/-- `mask(n) = 2^n - 1` as a 32-bit word (R12). -/
def mask (n : Nat) : BitVec 32 := BitVec.ofNat 32 (2 ^ n - 1)

/-- The `n` bits of a word from bit index `lo` up. -/
def getField (w : Frame) (lo n : Nat) : BitVec 32 := (w >>> lo) &&& mask n

/-- The word with its `n` bits from index `lo` up replaced by the low bits of `v` (R102). -/
def putField (w : Frame) (lo n : Nat) (v : BitVec 32) : Frame :=
  (w &&& ~~~(mask n <<< lo)) ||| ((v <<< lo) &&& (mask n <<< lo))

/-- `FieldOk(lsb_pos, size)`, the sum taken without wrap-around (R100). -/
def fieldOk (lsbPos size : BitVec 8) : Bool :=
  1 ≤ size.toNat && 9 ≤ lsbPos.toNat && lsbPos.toNat + size.toNat ≤ 32

/-- `GET_BITS` on a legal geometry: position `p` is index `p - 1` (R11, R101). -/
def fieldBits (frame : Frame) (lsbPos size : BitVec 8) : BitVec 32 :=
  getField frame (lsbPos.toNat - 1) size.toNat

/-- `SET_BITS` on a legal geometry (R102). -/
def withField (frame : Frame) (lsbPos size : BitVec 8) (value : BitVec 32) : Frame :=
  putField frame (lsbPos.toNat - 1) size.toNat value

/-- The field reaches the SSM bits: `lsb_pos + size > 30` (R130, R142). -/
def ssmUsedForData (lsbPos size : BitVec 8) : Bool := 30 < lsbPos.toNat + size.toNat

/-! ## Numbers -/

/-- `2^k` as a rational. -/
def pow2 (k : Nat) : Rat := ((2 ^ k : Nat) : Rat)

/-- `|q|`. -/
def absRat (q : Rat) : Rat := if q < 0 then -q else q

/-- The larger of two rationals. -/
def maxRat (a b : Rat) : Rat := if a < b then b else a

/-- The smaller of two rationals. -/
def minRat (a b : Rat) : Rat := if b < a then b else a

/-- `clip(v, lo, hi) = min(max(v, lo), hi)` (R12). -/
def clip (v lo hi : Rat) : Rat := minRat (maxRat v lo) hi

/-- `Rat(f)`: the exact rational of a finite binary64, both zeros being 0; `none` for an infinity or a NaN (R12, R79). -/
def f64Rat (f : F64) : Option Rat :=
  let e := (f.extractLsb' 52 11).toNat
  let m := (f.extractLsb' 0 52).toNat
  if e = 2047 then none
  else
    let a : Rat := if e = 0 then (m : Rat) / pow2 1074 else (((2 ^ 52 + m) * 2 ^ e : Nat) : Rat) / pow2 1075
    some (if f.msb then -a else a)

/-- `n / d` rounded to the nearest natural, ties to even. -/
def divRoundEven (n d : Nat) : Nat :=
  if 2 * (n % d) < d then n / d
  else if d < 2 * (n % d) then n / d + 1
  else n / d + (n / d) % 2

/-- The magnitude bits of the binary64 nearest to `n / d`, ties to even mantissa; a value past the largest finite one
gives the pattern of the infinity (DEDUCED from "the binary64 nearest", log entry 6). The quotient is measured in units
of `2^-1074`; `s` is how many places the mantissa lies above them. -/
def f64Magnitude (n d : Nat) : Nat :=
  let s := (n * 2 ^ 1074 / d).log2 - 52
  min (s * 2 ^ 52 + divRoundEven (n * 2 ^ 1074) (d * 2 ^ s)) 0x7FF0000000000000

/-- `F64(q)` (R12, R148); `F64(0)` is positive zero (R143). -/
def f64Of (q : Rat) : F64 :=
  let m := f64Magnitude q.num.natAbs q.den
  BitVec.ofNat 64 (if q.num < 0 then 2 ^ 63 + m else m)

/-- `Round(q)`: the nearest integer, ties as `ROUND_TIES` says (R12, D11). -/
def roundRat (ties : RoundTies) (q : Rat) : Int :=
  let f := q.floor
  let r := q - (f : Rat)
  if r < 1 / 2 then f
  else if 1 / 2 < r then f + 1
  else
    match ties with
    | .halfAwayFromZero => if q < 0 then f else f + 1
    | .halfToEven => if f % 2 = 0 then f else f + 1

/-! ## BCD -/

/-- The first `k` digits of `BcdPack` (R110). -/
def bcdPackDigits : Nat → Nat → Nat
  | 0, _ => 0
  | k + 1, n => n % 10 + 16 * bcdPackDigits k (n / 10)

/-- `BcdPack(n)` (R110); a number has at most `log2 n + 1` decimal digits. -/
def bcdPack (n : Nat) : Nat := bcdPackDigits (n.log2 + 1) n

/-- The first `k` nibbles of `BcdUnpack` (R111). -/
def bcdUnpackNibbles : Nat → Nat → Nat
  | 0, _ => 0
  | k + 1, b => b % 16 + 10 * bcdUnpackNibbles k (b / 16)

/-- `BcdUnpack(b)` (R111); a number has at most `log2 b + 1` nibbles. -/
def bcdUnpack (b : Nat) : Nat := bcdUnpackNibbles (b.log2 + 1) b

/-! ## The operands of `ENC.*` and `DEC.*` -/

/-- The operand ports of `ENC.*` (R80, R120). -/
structure EncOperands where
  frameIn : Frame
  lsbPos : BitVec 8
  size : BitVec 8
  engMin : F64
  engMax : F64
  engValue : F64
  ssmIntent : BitVec 3
  deriving DecidableEq, Repr

/-- What the checks of `ENC.*` that every format shares establish: the operands as exact numbers. -/
structure EncInput where
  lo : Rat
  hi : Rat
  value : Rat
  intent : SsmValue
  deriving DecidableEq, Repr

/-- Checks 2 to 5 of `ENC.*`, in order (R121); check 1, the format, is the decoder's. -/
def encInput (o : EncOperands) : Except Status EncInput :=
  if fieldOk o.lsbPos o.size then
    match ssmOfCode o.ssmIntent with
    | none => .error .invalidFieldSpec
    | some intent =>
      match f64Rat o.engMin, f64Rat o.engMax, f64Rat o.engValue with
      | some lo, some hi, some v =>
        if hi < lo then .error .invalidFieldSpec else .ok { lo := lo, hi := hi, value := v, intent := intent }
      | _, _, _ => .error .invalidFieldSpec
  else .error .invalidFieldSpec

/-- Step 1: the clipped value (R122). -/
def encClipped (x : EncInput) : Rat := clip x.value x.lo x.hi

/-- Step 2: `neg` (R123). -/
def encNeg (x : EncInput) : Bool := encClipped x < 0

/-- Step 2: `a` (R123). -/
def encAbs (x : EncInput) : Rat := absRat (encClipped x)

/-- The operand ports of `DEC.*` (R80, R140). -/
structure DecOperands where
  frame : Frame
  lsbPos : BitVec 8
  size : BitVec 8
  engMin : F64
  engMax : F64
  decimals : BitVec 8
  deriving DecidableEq, Repr

/-- Checks 2 to 4 of `DEC.*`, in order: the range as exact numbers (R141). -/
def decRange (o : DecOperands) : Except Status (Rat × Rat) :=
  if fieldOk o.lsbPos o.size then
    match f64Rat o.engMin, f64Rat o.engMax with
    | some lo, some hi => if hi < lo then .error .invalidFieldSpec else .ok (lo, hi)
    | _, _ => .error .invalidFieldSpec
  else .error .invalidFieldSpec

/-- `M`, the larger magnitude of a BNR range (R125, R144). -/
def bnrMagnitude (lo hi : Rat) : Rat := maxRat (absRat lo) (absRat hi)

/-- `scale = M / 2^size` (R125, R144). -/
def bnrScale (lo hi : Rat) (size : BitVec 8) : Rat := bnrMagnitude lo hi / pow2 size.toNat

end Sys2Proof.Machine
end

