-- ==== Sys2Proof/Machine/Flags.lean ====
section
/-! DEFINITION. The status-like bits of the block: the codes of the status port and of the actions (30_encoding.md R83,
R84), the BNR sign bit (42_value_encode.md R126), the two SSM tables, kept apart as R259 asks (R128, R146), and the SSM
priority (44_frame_builder_reader.md R164). -/

namespace Sys2Proof.Machine

/-- The code on the 3-bit status port (R83). -/
def statusCode : Status → BitVec 3
  | .ok => 0
  | .invalidFieldSpec => 1
  | .invalidLabelOrSdi => 2
  | .negativeNotAllowed => 3
  | .scheduleIndexConflict => 4
  | .warnUnreachableIndex => 5

/-- Codes 1 to 4 are errors (R83, R220). -/
def isError (s : Status) : Bool := 1 ≤ (statusCode s).toNat && (statusCode s).toNat ≤ 4

/-- The 2-bit tag of an action (R84). -/
def actionTag : Action → BitVec 2
  | .transmit _ => 0
  | .wait _ => 1
  | .notifyCycleComplete => 2
  | .halted => 3

/-- `SignWrite(f, neg)`: index 28 (R126). -/
def signWrite (f : Frame) (neg : Bool) : Frame := putField f 28 1 (if neg then 1 else 0)

/-- The raw SSM code the encoder writes, by format and intent; `none` where it writes none (R128). -/
def ssmRawOf (fmt : Format) (intent : SsmValue) (neg : Bool) : Option (BitVec 2) :=
  match intent, fmt with
  | .normalOperation, .bcd => some (if neg then 3 else 0)
  | .normalOperation, .bnr => some 3
  | .normalOperation, .discrete => some 0
  | .noComputedData, .bcd => some 1
  | .noComputedData, .bnr => some 1
  | .noComputedData, .discrete => some 1
  | .functionalTest, .bcd => some 2
  | .functionalTest, .bnr => some 2
  | .functionalTest, .discrete => some 2
  | .failureWarning, .bcd => none
  | .failureWarning, .bnr => some 0
  | .failureWarning, .discrete => some 3
  | .data, .bcd => none
  | .data, .bnr => none
  | .data, .discrete => none

/-- `SsmWrite(f)`: the last write of `ENC.*` (R129, R130). -/
def ssmWrite (fmt : Format) (intent : SsmValue) (neg : Bool) (lsbPos size : BitVec 8) (f : Frame) : Frame :=
  if ssmUsedForData lsbPos size then f
  else
    match ssmRawOf fmt intent neg with
    | some raw => putField f 29 2 (raw.zeroExtend 32)
    | none => f

/-- `frame[30:29]` (R142, R163). -/
def ssmRawBits (f : Frame) : BitVec 2 := f.extractLsb' 29 2

/-- The decoder's SSM table, `used` false (R146). -/
def ssmOfRaw (fmt : Format) (raw : BitVec 2) : SsmValue :=
  match fmt, raw.toNat with
  | .bcd, 0 => .normalOperation
  | .bcd, 1 => .noComputedData
  | .bcd, 2 => .functionalTest
  | .bcd, _ => .normalOperation
  | .bnr, 0 => .failureWarning
  | .bnr, 1 => .noComputedData
  | .bnr, 2 => .functionalTest
  | .bnr, _ => .normalOperation
  | .discrete, 0 => .normalOperation
  | .discrete, 1 => .noComputedData
  | .discrete, 2 => .functionalTest
  | .discrete, _ => .failureWarning

/-- `SsmOf(fmt, raw, used)` (R146, R147). -/
def ssmOf (fmt : Format) (raw : BitVec 2) (used : Bool) : SsmValue :=
  if used then .data else ssmOfRaw fmt raw

/-- `rank` (R164). -/
def ssmRank : SsmValue → Nat
  | .data => 0
  | .normalOperation => 1
  | .functionalTest => 2
  | .noComputedData => 3
  | .failureWarning => 4

end Sys2Proof.Machine
end

