-- ==== Sys2Proof/Machine/BitField.lean ====
section
/-! DEFINITION. GET_BITS and SET_BITS (40_bitfield.md), and how a codec operation ends. -/

namespace Sys2Proof.Machine

/-- A codec operation returns: its result with `Ok`, or the error alone; no other state is touched (R13, R20, R220). -/
def codecEnd (r : Except Status Result) (s : State) : Host.Outcome State Fault Refusal :=
  match r with
  | .ok v => .next (respond .ok v s)
  | .error e => .next (respond e .none s)

/-- R101. -/
def getBitsResult (frame : Frame) (lsbPos size : BitVec 8) : Except Status Result :=
  if fieldOk lsbPos size then .ok (.value (fieldBits frame lsbPos size)) else .error .invalidFieldSpec

/-- `GET_BITS` (R101). -/
def execGetBits (frame : Frame) (lsbPos size : BitVec 8) (s : State) : Host.Outcome State Fault Refusal :=
  codecEnd (getBitsResult frame lsbPos size) s

/-- R102. -/
def setBitsResult (frame : Frame) (lsbPos size : BitVec 8) (value : BitVec 32) : Except Status Result :=
  if fieldOk lsbPos size then .ok (.frameOut (withField frame lsbPos size value)) else .error .invalidFieldSpec

/-- `SET_BITS` (R102). -/
def execSetBits (frame : Frame) (lsbPos size : BitVec 8) (value : BitVec 32) (s : State) :
    Host.Outcome State Fault Refusal :=
  codecEnd (setBitsResult frame lsbPos size value) s

end Sys2Proof.Machine
end

