-- ==== Sys2Proof/Machine/BcdCodec.lean ====
section
/-! DEFINITION. BIN2BCD and BCD2BIN (41_bcd_codec.md). -/

namespace Sys2Proof.Machine

/-- `BcdPack(n mod 10^8)` on the 32-bit port (R112). -/
def bin2bcdWord (n : BitVec 32) : BitVec 32 := BitVec.ofNat 32 (bcdPack (n.toNat % 10 ^ 8))

/-- `BIN2BCD` (R112): no error. -/
def execBin2bcd (n : BitVec 32) (s : State) : Host.Outcome State Fault Refusal :=
  codecEnd (.ok (.bcd (bin2bcdWord n))) s

/-- `BcdUnpack(bcd)`, at most 166666665 (R113). -/
def bcd2binWord (bcd : BitVec 32) : BitVec 32 := BitVec.ofNat 32 (bcdUnpack bcd.toNat)

/-- `BCD2BIN` (R113): no error, also for nibbles above 9. -/
def execBcd2bin (bcd : BitVec 32) (s : State) : Host.Outcome State Fault Refusal :=
  codecEnd (.ok (.n (bcd2binWord bcd))) s

end Sys2Proof.Machine
end

