-- ==== Sys2Proof/Machine/Jobs.lean ====
section
/-! DEFINITION. The ten job kinds (45_scheduler_jobs.md). Each rule is what the kind does inside a tick, once `HALTED`
and `CANCEL` are dealt with and the job is fetched, with `PC` still at the job (R170; log entry 7). -/

namespace Sys2Proof.Machine

/-- `SKIP` (R174): both operand fields ignored, no wait. -/
def skipRule (_frameRef : Index) (_dwellMs : BitVec 8) (s : State) : State := endTick .ok [] (advancePc s)

/-- `SKIP` (R174). -/
def execSkip (frameRef : Index) (dwellMs : BitVec 8) (s : State) : Host.Outcome State Fault Refusal :=
  .next (skipRule frameRef dwellMs s)

/-- `DWELL` (R175). -/
def dwellRule (_frameRef : Index) (dwellMs : BitVec 8) (s : State) : State :=
  endTick .ok (dwellStep dwellMs) (advancePc s)

/-- `DWELL` (R175). -/
def execDwell (frameRef : Index) (dwellMs : BitVec 8) (s : State) : Host.Outcome State Fault Refusal :=
  .next (dwellRule frameRef dwellMs s)

/-- `SINGLE` (R176): sends an armed, non-zero slot once; the consumed mark is `ARMED`, the slot's value stays (C4). -/
def singleRule (p : Params) (frameRef : Index) (dwellMs : BitVec 8) (s : State) : State :=
  if frameRef.toNat < p.frameSlots then
    let e := slotAt s frameRef
    if e.armed && e.raw != 0 then
      endTick .ok (.transmit e.raw :: dwellStep dwellMs)
        (advancePc (writeSlotEntry frameRef { e with armed := false } s))
    else endTick .ok (dwellStep dwellMs) (advancePc s)
  else warnSkip s

/-- `SINGLE` (R176). -/
def execSingle (frameRef : Index) (dwellMs : BitVec 8) (s : State) : Host.Outcome State Fault Refusal :=
  .next (singleRule Config.params frameRef dwellMs s)

/-- `CYCLIC` (R177). -/
def cyclicRule (p : Params) (frameRef : Index) (dwellMs : BitVec 8) (s : State) : State :=
  if frameRef.toNat < p.frameSlots then
    endTick .ok (.transmit (slotAt s frameRef).raw :: dwellStep dwellMs) (advancePc s)
  else warnSkip s

/-- `CYCLIC` (R177). -/
def execCyclic (frameRef : Index) (dwellMs : BitVec 8) (s : State) : Host.Outcome State Fault Refusal :=
  .next (cyclicRule Config.params frameRef dwellMs s)

/-- The rule the two retransmit kinds share, on the table of their channel (R178, R179). -/
def retransmitRule (c : RxChannel) (frameRef : Index) (dwellMs : BitVec 8) (s : State) : State :=
  if frameRef.toNat < rxEntries then
    let e := rxAt s c frameRef.toNat
    if e.seen && !e.timedOut then endTick .ok (.transmit e.raw :: dwellStep dwellMs) (advancePc s)
    else endTick .ok (dwellStep dwellMs) (advancePc s)
  else warnSkip s

/-- `RETX1` (R178). -/
def execRetx1 (frameRef : Index) (dwellMs : BitVec 8) (s : State) : Host.Outcome State Fault Refusal :=
  .next (retransmitRule .rx1 frameRef dwellMs s)

/-- `RETX2` (R179). -/
def execRetx2 (frameRef : Index) (dwellMs : BitVec 8) (s : State) : Host.Outcome State Fault Refusal :=
  .next (retransmitRule .rx2 frameRef dwellMs s)

/-- `JUMP` (R180): an unreachable target is a misuse (R181). -/
def jumpRule (p : Params) (frameRef : Index) (dwellMs : BitVec 8) (s : State) : State :=
  if reachable p s frameRef then
    endTick .ok (dwellStep dwellMs) (setPc frameRef (setRet (some (nextPc s)) s))
  else schedFail s

/-- `JUMP` (R180). -/
def execJump (frameRef : Index) (dwellMs : BitVec 8) (s : State) : Host.Outcome State Fault Refusal :=
  .next (jumpRule Config.params frameRef dwellMs s)

/-- `RETURN` (R182): the return point is used once; with none saved it is a misuse (R183). -/
def returnRule (_frameRef : Index) (dwellMs : BitVec 8) (s : State) : State :=
  match s.ret with
  | some i => endTick .ok (dwellStep dwellMs) (setPc i (setRet none s))
  | none => schedFail s

/-- `RETURN` (R182). -/
def execReturn (frameRef : Index) (dwellMs : BitVec 8) (s : State) : Host.Outcome State Fault Refusal :=
  .next (returnRule frameRef dwellMs s)

/-- `CALLBACK` (R184). -/
def callbackRule (_frameRef : Index) (dwellMs : BitVec 8) (s : State) : State :=
  endTick .ok (.notifyCycleComplete :: dwellStep dwellMs) (advancePc s)

/-- `CALLBACK` (R184). -/
def execCallback (frameRef : Index) (dwellMs : BitVec 8) (s : State) : Host.Outcome State Fault Refusal :=
  .next (callbackRule frameRef dwellMs s)

/-- `STOP` (R185): no error, no wait, `PC` and `RET` kept. -/
def stopRule (_frameRef : Index) (_dwellMs : BitVec 8) (s : State) : State :=
  endTick .ok [.halted] (setHalted true s)

/-- `STOP` (R185). -/
def execStop (frameRef : Index) (dwellMs : BitVec 8) (s : State) : Host.Outcome State Fault Refusal :=
  .next (stopRule frameRef dwellMs s)

/-- Execute the rule of the fetched job's kind (R200). -/
def jobRule (p : Params) (j : Job) (s : State) : State :=
  match j.kind with
  | .skip => skipRule j.frameRef j.dwellMs s
  | .dwell => dwellRule j.frameRef j.dwellMs s
  | .single => singleRule p j.frameRef j.dwellMs s
  | .cyclic => cyclicRule p j.frameRef j.dwellMs s
  | .retransmitRx1 => retransmitRule .rx1 j.frameRef j.dwellMs s
  | .retransmitRx2 => retransmitRule .rx2 j.frameRef j.dwellMs s
  | .jump => jumpRule p j.frameRef j.dwellMs s
  | .ret => returnRule j.frameRef j.dwellMs s
  | .callback => callbackRule j.frameRef j.dwellMs s
  | .stop => stopRule j.frameRef j.dwellMs s

end Sys2Proof.Machine
end

