-- ==== Sys2Proof/Machine/Commands.lean ====
section
/-! DEFINITION. The scheduler commands (46_scheduler_commands.md). -/

namespace Sys2Proof.Machine

/-- `TICK` (R200): `HALTED`, then `CANCEL`, then the reachability of `PC`, then the job (R233). -/
def tickRule (p : Params) (s : State) : State :=
  if s.halted then endTick .ok [.halted] s
  else if s.cancel then endTick .ok [.halted] (setHalted true s)
  else
    match fetchJob p s s.pc with
    | none => warnSkip s
    | some j => jobRule p j s

/-- `TICK` (R200). -/
def execTick (s : State) : Host.Outcome State Fault Refusal := .next (tickRule Config.params s)

/-- `WRITE_JOB` (R201). -/
def writeJobRule (p : Params) (index : Index) (word : BitVec 32) (s : State) : State :=
  if index.toNat < p.jobSlots then
    match decodeJobWord word with
    | .ok j => respond .ok .none (writeJobSlot index j s)
    | .error _ => respond .invalidFieldSpec .none s
  else respond .invalidFieldSpec .none s

/-- `WRITE_JOB` (R201). -/
def execWriteJob (index : Index) (word : BitVec 32) (s : State) : Host.Outcome State Fault Refusal :=
  .next (writeJobRule Config.params index word s)

/-- `CLEAR_JOBS` (R202). -/
def clearJobsRule (p : Params) (first last : Index) (s : State) : State :=
  if first.toNat ≤ last.toNat && last.toNat < p.jobSlots then respond .ok .none (clearJobSlots first last s)
  else respond .invalidFieldSpec .none s

/-- `CLEAR_JOBS` (R202). -/
def execClearJobs (first last : Index) (s : State) : Host.Outcome State Fault Refusal :=
  .next (clearJobsRule Config.params first last s)

/-- `WRITE_SLOT` (R206): every write arms the slot, whatever the value (D39). -/
def writeSlotRule (p : Params) (frameIndex : Index) (raw : Frame) (s : State) : State :=
  if frameIndex.toNat < p.frameSlots then
    respond .ok .none (writeSlotEntry frameIndex { raw := raw, armed := true } s)
  else respond .invalidFieldSpec .none s

/-- `WRITE_SLOT` (R206). -/
def execWriteSlot (frameIndex : Index) (raw : Frame) (s : State) : Host.Outcome State Fault Refusal :=
  .next (writeSlotRule Config.params frameIndex raw s)

/-- `RX_UPDATE` (R208): no condition on what the listener writes. -/
def rxUpdateRule (c : RxChannel) (ext : BitVec 10) (seen timedOut : Bool) (raw : Frame) (s : State) : State :=
  respond .ok .none (writeRxEntry c ext.toNat { seen := seen, timedOut := timedOut, raw := raw } s)

/-- `RX_UPDATE` (R208). -/
def execRxUpdate (c : RxChannel) (ext : BitVec 10) (seen timedOut : Bool) (raw : Frame) (s : State) :
    Host.Outcome State Fault Refusal :=
  .next (rxUpdateRule c ext seen timedOut raw s)

/-- `RESTART` (R205). -/
def restartRule (s : State) : State := respond .ok .none (restartRegisters s)

/-- `RESTART` (R205). -/
def execRestart (s : State) : Host.Outcome State Fault Refusal := .next (restartRule s)

/-- `CANCEL` (R207): the next tick acts on it. -/
def cancelRule (s : State) : State := respond .ok .none (setCancel true s)

/-- `CANCEL` (R207). -/
def execCancel (s : State) : Host.Outcome State Fault Refusal := .next (cancelRule s)

end Sys2Proof.Machine
end

