-- ==== Sys2Proof/Machine/FrameOps.lean ====
section
/-! DEFINITION. CREATE_FRAME, READ_LABEL, READ_SDI, READ_SSM_RAW and COMBINE_SSM (44_frame_builder_reader.md). -/

namespace Sys2Proof.Machine

/-- The frame of a legal label and SDI mode (R160). -/
def newFrame (label : BitVec 16) (mode : SdiMode) : Frame :=
  match mode with
  | .data => label.zeroExtend 32
  | m => label.zeroExtend 32 ||| ((sdiModeCode m).zeroExtend 32 <<< 8)

/-- R160. -/
def createFrameResult (label : BitVec 16) (sdi : BitVec 3) : Except Status Result :=
  match sdiModeOfCode sdi with
  | none => .error .invalidLabelOrSdi
  | some m => if 255 < label.toNat then .error .invalidLabelOrSdi else .ok (.frameOut (newFrame label m))

/-- `CREATE_FRAME` (R160). -/
def execCreateFrame (label : BitVec 16) (sdi : BitVec 3) (s : State) : Host.Outcome State Fault Refusal :=
  codecEnd (createFrameResult label sdi) s

/-- `READ_LABEL` (R161). -/
def execReadLabel (frame : Frame) (s : State) : Host.Outcome State Fault Refusal :=
  codecEnd (.ok (.label (frame.extractLsb' 0 8))) s

/-- `READ_SDI` (R162). -/
def execReadSdi (frame : Frame) (s : State) : Host.Outcome State Fault Refusal :=
  codecEnd (.ok (.sdi (frame.extractLsb' 8 2))) s

/-- `READ_SSM_RAW` (R163). -/
def execReadSsmRaw (frame : Frame) (s : State) : Host.Outcome State Fault Refusal :=
  codecEnd (.ok (.ssmRaw (ssmRawBits frame))) s

/-- The reducer on legal values (R164). -/
def combineSsm (a b : SsmValue) : SsmValue := if ssmRank b ≤ ssmRank a then a else b

/-- R164. -/
def combineSsmResult (a b : BitVec 3) : Except Status Result :=
  match ssmOfCode a, ssmOfCode b with
  | some x, some y => .ok (.ssm (combineSsm x y))
  | _, _ => .error .invalidFieldSpec

/-- `COMBINE_SSM` (R164). -/
def execCombineSsm (a b : BitVec 3) (s : State) : Host.Outcome State Fault Refusal :=
  codecEnd (combineSsmResult a b) s

end Sys2Proof.Machine
end

