-- ==== Sys2Proof/Machine/ValueDecode.lean ====
section
/-! DEFINITION. DEC.BCD, DEC.BNR and DEC.DISC (43_value_decode.md). -/

namespace Sys2Proof.Machine

/-- `fld`, the raw data field as a number (R142). -/
def decField (o : DecOperands) : Nat := (fieldBits o.frame o.lsbPos o.size).toNat

/-- The results of `DEC.*`: `eng_q`, its port `F64(eng_q)`, and `SsmOf(fmt, raw, used)` (R140, R146 to R148). -/
def decodedResult (fmt : Format) (o : DecOperands) (engQ : Rat) : Result :=
  .decoded engQ (f64Of engQ) (ssmOf fmt (ssmRawBits o.frame) (ssmUsedForData o.lsbPos o.size))

/-- `eng_q` of `DEC.BCD`: negated when the raw SSM is 3 and the SSM bits are not data (R143). -/
def bcdEngQ (o : DecOperands) : Rat :=
  let q : Rat := (bcdUnpack (decField o) : Rat)
  if !ssmUsedForData o.lsbPos o.size && ssmRawBits o.frame = 3 then -q else q

/-- `DEC.BCD` (R141, R143). -/
def decBcdResult (o : DecOperands) : Except Status Result :=
  match decRange o with
  | .error e => .error e
  | .ok _ => .ok (decodedResult .bcd o (bcdEngQ o))

/-- `DEC.BCD` (R143). -/
def execDecBcd (frame : Frame) (lsbPos size : BitVec 8) (engMin engMax : F64) (decimals : BitVec 8) (s : State) :
    Host.Outcome State Fault Refusal :=
  codecEnd (decBcdResult ⟨frame, lsbPos, size, engMin, engMax, decimals⟩) s

/-- `x` of `DEC.BNR`, before the rounding: the sign bit is index 28 whatever the field (R144). -/
def bnrExact (o : DecOperands) (lo hi : Rat) : Rat :=
  let fld := decField o
  let scale := bnrScale lo hi o.size
  if o.frame.getLsbD 28 then -((((2 ^ o.size.toNat - fld) % 2 ^ o.size.toNat : Nat) : Rat) * scale)
  else (fld : Rat) * scale

/-- `Round(x * 10^decimals) / 10^decimals` (R144). -/
def roundDecimals (ties : RoundTies) (x : Rat) (decimals : BitVec 8) : Rat :=
  let t : Rat := ((10 ^ decimals.toNat : Nat) : Rat)
  (roundRat ties (x * t) : Rat) / t

/-- `DEC.BNR` (R141, 5 last, and R144). -/
def decBnrResult (ties : RoundTies) (o : DecOperands) : Except Status Result :=
  match decRange o with
  | .error e => .error e
  | .ok (lo, hi) =>
    if bnrMagnitude lo hi = 0 then .error .invalidFieldSpec
    else .ok (decodedResult .bnr o (roundDecimals ties (bnrExact o lo hi) o.decimals))

/-- `DEC.BNR` (R144). -/
def execDecBnr (frame : Frame) (lsbPos size : BitVec 8) (engMin engMax : F64) (decimals : BitVec 8) (s : State) :
    Host.Outcome State Fault Refusal :=
  codecEnd (decBnrResult Config.params.roundTies ⟨frame, lsbPos, size, engMin, engMax, decimals⟩) s

/-- `DEC.DISC` (R141, R145). -/
def decDiscResult (o : DecOperands) : Except Status Result :=
  match decRange o with
  | .error e => .error e
  | .ok _ => .ok (decodedResult .discrete o (decField o : Rat))

/-- `DEC.DISC` (R145). -/
def execDecDisc (frame : Frame) (lsbPos size : BitVec 8) (engMin engMax : F64) (decimals : BitVec 8) (s : State) :
    Host.Outcome State Fault Refusal :=
  codecEnd (decDiscResult ⟨frame, lsbPos, size, engMin, engMax, decimals⟩) s

end Sys2Proof.Machine
end

