-- ==== Sys2Proof/Machine/ValueEncode.lean ====
section
/-! DEFINITION. ENC.BCD, ENC.BNR and ENC.DISC (42_value_encode.md). -/

namespace Sys2Proof.Machine

/-- The BCD frame on operands that passed the checks (R124). -/
def bcdFrame (ties : RoundTies) (o : EncOperands) (x : EncInput) : Frame :=
  let n := (roundRat ties (encAbs x)).toNat
  ssmWrite .bcd x.intent (encNeg x) o.lsbPos o.size
    (withField o.frameIn o.lsbPos o.size (BitVec.ofNat 32 (bcdPack n)))

/-- `ENC.BCD`: the checks of R121, 7 last, and R124. -/
def encBcdResult (ties : RoundTies) (o : EncOperands) : Except Status Result :=
  match encInput o with
  | .error e => .error e
  | .ok x =>
    if x.intent = .failureWarning then .error .invalidFieldSpec else .ok (.frameOut (bcdFrame ties o x))

/-- `ENC.BCD` (R124). -/
def execEncBcd (frameIn : Frame) (lsbPos size : BitVec 8) (engMin engMax engValue : F64) (ssmIntent : BitVec 3)
    (s : State) : Host.Outcome State Fault Refusal :=
  codecEnd
    (encBcdResult Config.params.roundTies ⟨frameIn, lsbPos, size, engMin, engMax, engValue, ssmIntent⟩) s

/-- `d = min(Round(a / scale), 2^size - 1)` (R125). -/
def bnrMagnitudeBits (ties : RoundTies) (x : EncInput) (size : BitVec 8) : Nat :=
  min (roundRat ties (encAbs x / bnrScale x.lo x.hi size)).toNat (2 ^ size.toNat - 1)

/-- `data`: `d`, or its two's complement in `size` bits (R125). -/
def bnrData (ties : RoundTies) (x : EncInput) (size : BitVec 8) : Nat :=
  let d := bnrMagnitudeBits ties x size
  if encNeg x then (2 ^ size.toNat - d) % 2 ^ size.toNat else d

/-- The BNR frame on operands that passed the checks: field, then sign, then SSM (R125, R126, R129). -/
def bnrFrame (ties : RoundTies) (o : EncOperands) (x : EncInput) : Frame :=
  ssmWrite .bnr x.intent (encNeg x) o.lsbPos o.size
    (signWrite (withField o.frameIn o.lsbPos o.size (BitVec.ofNat 32 (bnrData ties x o.size))) (encNeg x))

/-- `ENC.BNR`: the checks of R121, 6 last, and R125. -/
def encBnrResult (ties : RoundTies) (o : EncOperands) : Except Status Result :=
  match encInput o with
  | .error e => .error e
  | .ok x =>
    if bnrMagnitude x.lo x.hi = 0 then .error .invalidFieldSpec else .ok (.frameOut (bnrFrame ties o x))

/-- `ENC.BNR` (R125). -/
def execEncBnr (frameIn : Frame) (lsbPos size : BitVec 8) (engMin engMax engValue : F64) (ssmIntent : BitVec 3)
    (s : State) : Host.Outcome State Fault Refusal :=
  codecEnd
    (encBnrResult Config.params.roundTies ⟨frameIn, lsbPos, size, engMin, engMax, engValue, ssmIntent⟩) s

/-- The Discrete frame on operands that passed the checks (R127). -/
def discFrame (ties : RoundTies) (o : EncOperands) (x : EncInput) : Frame :=
  let n := (roundRat ties (encAbs x)).toNat
  ssmWrite .discrete x.intent (encNeg x) o.lsbPos o.size
    (withField o.frameIn o.lsbPos o.size (BitVec.ofNat 32 n))

/-- `ENC.DISC`: the checks of R121, 8 last and on the value supplied, before the clip, and R127. -/
def encDiscResult (ties : RoundTies) (o : EncOperands) : Except Status Result :=
  match encInput o with
  | .error e => .error e
  | .ok x => if x.value < 0 then .error .negativeNotAllowed else .ok (.frameOut (discFrame ties o x))

/-- `ENC.DISC` (R127). -/
def execEncDisc (frameIn : Frame) (lsbPos size : BitVec 8) (engMin engMax engValue : F64) (ssmIntent : BitVec 3)
    (s : State) : Host.Outcome State Fault Refusal :=
  codecEnd
    (encDiscResult Config.params.roundTies ⟨frameIn, lsbPos, size, engMin, engMax, engValue, ssmIntent⟩) s

end Sys2Proof.Machine
end

