-- ==== Sys2Proof/Machine/Dispatch.lean ====
section
/-! DEFINITION. exec: one arm per constructor of Instr, each one call of that instruction's meaning. -/

namespace Sys2Proof.Machine

def exec (i : Instr) (s : State) : Host.Outcome State Fault Refusal :=
  match i with
  | .getBits f l z => Sys2Proof.Machine.execGetBits f l z s
  | .setBits f l z v => Sys2Proof.Machine.execSetBits f l z v s
  | .bin2bcd n => Sys2Proof.Machine.execBin2bcd n s
  | .bcd2bin b => Sys2Proof.Machine.execBcd2bin b s
  | .encBcd f l z lo hi v m => Sys2Proof.Machine.execEncBcd f l z lo hi v m s
  | .encBnr f l z lo hi v m => Sys2Proof.Machine.execEncBnr f l z lo hi v m s
  | .encDisc f l z lo hi v m => Sys2Proof.Machine.execEncDisc f l z lo hi v m s
  | .decBcd f l z lo hi d => Sys2Proof.Machine.execDecBcd f l z lo hi d s
  | .decBnr f l z lo hi d => Sys2Proof.Machine.execDecBnr f l z lo hi d s
  | .decDisc f l z lo hi d => Sys2Proof.Machine.execDecDisc f l z lo hi d s
  | .createFrame l m => Sys2Proof.Machine.execCreateFrame l m s
  | .readLabel f => Sys2Proof.Machine.execReadLabel f s
  | .readSdi f => Sys2Proof.Machine.execReadSdi f s
  | .readSsmRaw f => Sys2Proof.Machine.execReadSsmRaw f s
  | .combineSsm a b => Sys2Proof.Machine.execCombineSsm a b s
  | .skip r d => Sys2Proof.Machine.execSkip r d s
  | .dwell r d => Sys2Proof.Machine.execDwell r d s
  | .single r d => Sys2Proof.Machine.execSingle r d s
  | .cyclic r d => Sys2Proof.Machine.execCyclic r d s
  | .retx1 r d => Sys2Proof.Machine.execRetx1 r d s
  | .retx2 r d => Sys2Proof.Machine.execRetx2 r d s
  | .jump r d => Sys2Proof.Machine.execJump r d s
  | .ret r d => Sys2Proof.Machine.execReturn r d s
  | .callback r d => Sys2Proof.Machine.execCallback r d s
  | .stop r d => Sys2Proof.Machine.execStop r d s
  | .tick => Sys2Proof.Machine.execTick s
  | .writeJob k w => Sys2Proof.Machine.execWriteJob k w s
  | .clearJobs a b => Sys2Proof.Machine.execClearJobs a b s
  | .writeSlot k r => Sys2Proof.Machine.execWriteSlot k r s
  | .rxUpdate c e n t r => Sys2Proof.Machine.execRxUpdate c e n t r s
  | .restart => Sys2Proof.Machine.execRestart s
  | .cancel => Sys2Proof.Machine.execCancel s

end Sys2Proof.Machine
end

