-- ==== Sys2Proof/Machine/Step.lean ====
section
/-! DEFINITION. The step: the oldest pending move of an agent, and with none pending the scheduler's own move, TICK
(10_state.md R21; log entry 1). -/

namespace Sys2Proof.Machine

/-- One indivisible move (R56). A request that decodes to no operation is answered and has no other effect (R86). -/
def step (s : State) : Host.Outcome State Fault Refusal :=
  match s.pending with
  | [] => exec .tick s
  | r :: rest =>
    match decodeRequest r with
    | .ok i => exec i (setPending rest s)
    | .error _ => .next (rejectRequest (setPending rest s))

/-- The state with a word of the opcode table as the next thing the step runs: a selector or a command as the oldest
request, a job word in the slot at `PC`, ready to be ticked (log entry 5). -/
def State.withFetchWord (s : State) (nbits w : Nat) : State := placeEncoded Config.params (tableEncoding nbits w) s

end Sys2Proof.Machine
end

