-- ==== Sys2Proof/Machine/Agents.lean ====
section
/-! DEFINITION. The agents around the block: who issues which operation (10_state.md R21, 60_exceptions.md R240), the
moves of a well-behaved listener (R208), and what the host owes each action of a tick (R209). The block enforces none of
this (D41); `step` takes any request. -/

namespace Sys2Proof.Machine

/-- The agents that take steps (R21). The collaborator has no move. -/
inductive Agent
  | scheduler
  | host
  | producer
  | listener
  deriving DecidableEq, Repr

/-- The agents that own an operation (R21, R240): a codec operation is anyone's, a job kind is executed by the scheduler
alone. -/
def issuers : Instr → List Agent
  | .getBits _ _ _ => [.scheduler, .host, .producer, .listener]
  | .setBits _ _ _ _ => [.scheduler, .host, .producer, .listener]
  | .bin2bcd _ => [.scheduler, .host, .producer, .listener]
  | .bcd2bin _ => [.scheduler, .host, .producer, .listener]
  | .encBcd _ _ _ _ _ _ _ => [.scheduler, .host, .producer, .listener]
  | .encBnr _ _ _ _ _ _ _ => [.scheduler, .host, .producer, .listener]
  | .encDisc _ _ _ _ _ _ _ => [.scheduler, .host, .producer, .listener]
  | .decBcd _ _ _ _ _ _ => [.scheduler, .host, .producer, .listener]
  | .decBnr _ _ _ _ _ _ => [.scheduler, .host, .producer, .listener]
  | .decDisc _ _ _ _ _ _ => [.scheduler, .host, .producer, .listener]
  | .createFrame _ _ => [.scheduler, .host, .producer, .listener]
  | .readLabel _ => [.scheduler, .host, .producer, .listener]
  | .readSdi _ => [.scheduler, .host, .producer, .listener]
  | .readSsmRaw _ => [.scheduler, .host, .producer, .listener]
  | .combineSsm _ _ => [.scheduler, .host, .producer, .listener]
  | .skip _ _ => [.scheduler]
  | .dwell _ _ => [.scheduler]
  | .single _ _ => [.scheduler]
  | .cyclic _ _ => [.scheduler]
  | .retx1 _ _ => [.scheduler]
  | .retx2 _ _ => [.scheduler]
  | .jump _ _ => [.scheduler]
  | .ret _ _ => [.scheduler]
  | .callback _ _ => [.scheduler]
  | .stop _ _ => [.scheduler]
  | .tick => [.host]
  | .writeJob _ _ => [.host]
  | .clearJobs _ _ => [.host]
  | .writeSlot _ _ => [.producer]
  | .rxUpdate _ _ _ _ _ => [.listener]
  | .restart => [.host]
  | .cancel => [.host]

/-- The extended label of a received frame: `f[9:0]` (R76). -/
def extendedLabel (f : Frame) : BitVec 10 := f.extractLsb' 0 10

/-- The listener's move on a received frame (R208). -/
def listenerReceived (c : RxChannel) (f : Frame) : Instr := .rxUpdate c (extendedLabel f) true false f

/-- The listener's move when an entry's age passes the threshold: `raw` unchanged (R208). -/
def listenerTimedOut (c : RxChannel) (e : BitVec 10) (raw : Frame) : Instr := .rxUpdate c e true true raw

/-- What the host owes the collaborator or its timer (R209). -/
inductive HostDuty
  | transmit (channel : Nat) (f : Frame)
  | letPass (ms : BitVec 8)
  | deliverNotification
  | report (s : Status)
  deriving DecidableEq, Repr

/-- The duty an action carries: `Halted` carries none (R209). -/
def actionDuty (p : Params) : Action → List HostDuty
  | .transmit f => [.transmit p.txChannel f]
  | .wait ms => [.letPass ms]
  | .notifyCycleComplete => [.deliverNotification]
  | .halted => []

/-- Everything the host owes a response: the actions first to last, and a scheduler warning or error to report (R209). -/
def hostOwes (p : Params) (r : Response) : List HostDuty :=
  (match r.result with
    | .actions l => l.flatMap (actionDuty p)
    | _ => [])
    ++ (match r.status with
      | .warnUnreachableIndex => [.report .warnUnreachableIndex]
      | .scheduleIndexConflict => [.report .scheduleIndexConflict]
      | _ => [])

end Sys2Proof.Machine
end

