-- ==== Sys2Proof/Machine/Label.lean ====
section
/-! DEFINITION. The record LabelDefinition as the bundle of operands the codec operations take, with its invariants
(30_encoding.md R78). The registry of such records and its contents are outside the block (00_scope.md R6). -/

namespace Sys2Proof.Machine

/-- `LabelDefinition` (R78). -/
structure LabelDefinition where
  label : BitVec 8
  refreshRateMs : BitVec 32
  sdiMode : SdiMode
  format : Format
  lsbPosition : BitVec 8
  fieldSizeBits : BitVec 8
  engMin : F64
  engMax : F64
  decimals : BitVec 8
  defaultValue : F64
  deriving DecidableEq, Repr

/-- The placement invariant: the geometry the codec operations check (R78, R100). -/
def placementOk (d : LabelDefinition) : Bool := fieldOk d.lsbPosition d.fieldSizeBits

/-- The SSM can be written and read: `lsb_position + field_size_bits <= 30` (R78). -/
def placementLeavesSsm (d : LabelDefinition) : Bool := !ssmUsedForData d.lsbPosition d.fieldSizeBits

/-- The operation that builds the label's empty frame (R78, R160). -/
def labelCreate (d : LabelDefinition) : Instr := .createFrame (d.label.zeroExtend 16) (sdiModeCode d.sdiMode)

/-- `encode` without a format suffix: `ENC` with the label's format and operands (R78, R89). -/
def labelEncode (d : LabelDefinition) (frameIn : Frame) (v : F64) (intent : SsmValue) : Instr :=
  match d.format with
  | .bcd => .encBcd frameIn d.lsbPosition d.fieldSizeBits d.engMin d.engMax v (ssmCode intent)
  | .bnr => .encBnr frameIn d.lsbPosition d.fieldSizeBits d.engMin d.engMax v (ssmCode intent)
  | .discrete => .encDisc frameIn d.lsbPosition d.fieldSizeBits d.engMin d.engMax v (ssmCode intent)

/-- `decode` without a format suffix: `DEC` with the label's format and operands (R78, R89). -/
def labelDecode (d : LabelDefinition) (frame : Frame) : Instr :=
  match d.format with
  | .bcd => .decBcd frame d.lsbPosition d.fieldSizeBits d.engMin d.engMax d.decimals
  | .bnr => .decBnr frame d.lsbPosition d.fieldSizeBits d.engMin d.engMax d.decimals
  | .discrete => .decDisc frame d.lsbPosition d.fieldSizeBits d.engMin d.engMax d.decimals

end Sys2Proof.Machine
end

