-- ==== Sys2Proof/Machine/Load.lean ====
section
/-! DEFINITION. The pseudo-command LOAD_JOBS (46_scheduler_commands.md R204, 30_encoding.md R89) and the written syntax
of a job table (R88). LOAD_JOBS has no code: it is the list of requests the host presents, each one a step of its own. -/

namespace Sys2Proof.Machine

/-- The commands LOAD_JOBS stands for, in order (R204). -/
def loadJobsInstrs (p : Params) (l : List (Index × BitVec 32)) : List Instr :=
  .clearJobs 0 p.jobLast :: (l.map fun e => .writeJob e.1 e.2) ++ [.restart]

/-- The requests LOAD_JOBS stands for (R204). -/
def loadJobsRequests (p : Params) (l : List (Index × BitVec 32)) : List Request :=
  .command 2 { first := 0, last := p.jobLast }
    :: (l.map fun e => .command 1 { index := e.1, word := e.2 }) ++ [.command 5 {}]

/-- The writes of LOAD_JOBS, the status so far being `st`: that of the first write that failed (R204). -/
def loadJobsWrites (p : Params) : List (Index × BitVec 32) → Status → State → Status × State
  | [], st, s => (st, s)
  | (i, w) :: l, st, s =>
    let s' := writeJobRule p i w s
    loadJobsWrites p l (if st = .ok then s'.response.status else st) s'

/-- LOAD_JOBS with no other move inside it: the status of the whole and the state it leaves (R204, R257). -/
def loadJobs (p : Params) (l : List (Index × BitVec 32)) (s : State) : Status × State :=
  let r := loadJobsWrites p l .ok (clearJobsRule p 0 p.jobLast s)
  (r.1, restartRule r.2)

/-! ## Written syntax -/

/-- The operand of a written job: an index, or the name of a line (R88). -/
inductive JobOperand
  | at (i : Index)
  | label (name : String)
  deriving DecidableEq, Repr

/-- One line of a written table: a name that stands for the index of the next job, or a job; the operand and the dwell
may be left out and are then 0 (R88). -/
inductive JobLine
  | label (name : String)
  | job (kind : JobKind) (operand : JobOperand := .at 0) (dwell : BitVec 8 := 0)
  deriving DecidableEq, Repr

/-- The index a name stands for, the next job having index `i` (R88). DESIGN CHOICE (log entry 8), where the spec is
silent: a name on two lines stands for the index of the first of them, and a name with no job after it for the index a
next job would have. -/
def labelIndex (name : String) : List JobLine → Index → Option Index
  | [], _ => none
  | .label n :: l, i => if n = name then some i else labelIndex name l i
  | .job _ _ _ :: l, i => labelIndex name l (i + 1)

/-- The index and word of each job of a written table, its jobs taking consecutive indexes from `i` (R88). DESIGN CHOICE
(log entry 8), where the spec is silent: `none` where a name stands for nothing, and an index past 65535 wraps. -/
def assembleFrom (all : List JobLine) : List JobLine → Index → Option (List (Index × BitVec 32))
  | [], _ => some []
  | .label _ :: l, i => assembleFrom all l i
  | .job k o d :: l, i =>
    match (match o with
      | .at r => some r
      | .label n => labelIndex n all 0), assembleFrom all l (i + 1) with
    | some r, some rest => some ((i, encodeJob ⟨k, r, d⟩) :: rest)
    | _, _ => none

/-- The operand of LOAD_JOBS for a written table (R88, R89). -/
def assemble (l : List JobLine) : Option (List (Index × BitVec 32)) := assembleFrom l l 0

end Sys2Proof.Machine
end

