-- ==== Sys2Proof/Machine/Run.lean ====
section
/-! DEFINITION. A run of the scheduler and what it returns (46_scheduler_commands.md R210): the state reached, together
with the sequence of all action lists and statuses. -/

namespace Sys2Proof.Machine

/-- What stands after a finite prefix of a run: the state, and the response of every operation so far, first to last
(R210). -/
structure RunPrefix where
  final : State
  returned : List Response
  deriving DecidableEq, Repr

/-- At most `k` steps of a run from `s`. The run is over, and takes no further step, once `HALTED = 1`; a run that never
halts has no end and is the sequence of its prefixes (R210). -/
def runPrefix : Nat → State → RunPrefix
  | 0, s => { final := s, returned := [] }
  | k + 1, s =>
    if s.halted then { final := s, returned := [] }
    else
      match step s with
      | .next t =>
        let rest := runPrefix k t
        { final := rest.final, returned := t.response :: rest.returned }
      | .fault _ => { final := s, returned := [] }
      | .refused _ => { final := s, returned := [] }

/-- The action list a response carries; an operation other than a tick carries none (R84). -/
def responseActions (r : Response) : List Action :=
  match r.result with
  | .actions l => l
  | _ => []

/-- The sequence of all action lists and statuses returned (R210). An operation of another agent between two ticks
returns a status and no action. -/
def runTrace (r : RunPrefix) : List (List Action × Status) := r.returned.map fun x => (responseActions x, x.status)

end Sys2Proof.Machine
end

