-- ==== Sys2Proof/Safety.lean ====
section
/-! DEFINITION. What the claims are stated in: the legal shapes of a response (45_scheduler_jobs.md R186, 30_encoding.md
R84), the invariant of the machine, and the end of a run (46_scheduler_commands.md R210). -/

namespace Sys2Proof.Machine

/-- The waits an action may carry: 1 to 250 ms (R84). -/
def waitOk (ms : BitVec 8) : Bool := 0 < ms.toNat && ms.toNat ≤ 250

/-- The seven action lists a tick can return (R186). -/
def actionsOk : List Action → Bool
  | [] => true
  | [.transmit _] => true
  | [.transmit _, .wait ms] => waitOk ms
  | [.wait ms] => waitOk ms
  | [.notifyCycleComplete] => true
  | [.notifyCycleComplete, .wait ms] => waitOk ms
  | [.halted] => true
  | _ => false

/-- A response the block can give: a legal action list, empty under the warning and `[Halted]` under the scheduler's
error, and no result under any other error (R83, R181, R186, R220, R226). -/
def responseOk (r : Response) : Bool :=
  match r.status, r.result with
  | .ok, .actions l => actionsOk l
  | .ok, _ => true
  | .warnUnreachableIndex, .actions l => l = []
  | .warnUnreachableIndex, _ => false
  | .scheduleIndexConflict, .actions l => l = [.halted]
  | .scheduleIndexConflict, _ => false
  | .invalidFieldSpec, x => x = .none
  | .invalidLabelOrSdi, x => x = .none
  | .negativeNotAllowed, x => x = .none

/-- The invariant: every table in canonical form, in bounds, with legal dwells, and a legal response. -/
def Inv (s : State) : Prop := Memory.wf Config.params s = true ∧ responseOk s.response = true

/-- The end of a run (R210). -/
def runOver (s : State) : Prop := s.halted = true

/-- A run from `s` ends in this state with these responses, the last of them that of the operation that halted (R210). -/
def RunEnds (s final : State) (returned : List Response) : Prop :=
  (∃ k, runPrefix k s = { final := final, returned := returned }) ∧ runOver final

/-- The two misuses of a job that end in `SchedFail` (R181): a JUMP to an unreachable target and a RETURN with no
saved return point. -/
def misuse (p : Params) (s : State) (j : Job) : Prop :=
  (j.kind = .jump ∧ reachable p s j.frameRef = false) ∨ (j.kind = .ret ∧ s.ret = none)

/-- The three encoding spaces (30_encoding.md R85). -/
inductive Family
  | codec
  | job
  | command
  deriving DecidableEq, Repr

/-- The space an instruction belongs to (R85). -/
def family : Instr → Family
  | .getBits _ _ _ => .codec
  | .setBits _ _ _ _ => .codec
  | .bin2bcd _ => .codec
  | .bcd2bin _ => .codec
  | .encBcd _ _ _ _ _ _ _ => .codec
  | .encBnr _ _ _ _ _ _ _ => .codec
  | .encDisc _ _ _ _ _ _ _ => .codec
  | .decBcd _ _ _ _ _ _ => .codec
  | .decBnr _ _ _ _ _ _ => .codec
  | .decDisc _ _ _ _ _ _ => .codec
  | .createFrame _ _ => .codec
  | .readLabel _ => .codec
  | .readSdi _ => .codec
  | .readSsmRaw _ => .codec
  | .combineSsm _ _ => .codec
  | .skip _ _ => .job
  | .dwell _ _ => .job
  | .single _ _ => .job
  | .cyclic _ _ => .job
  | .retx1 _ _ => .job
  | .retx2 _ _ => .job
  | .jump _ _ => .job
  | .ret _ _ => .job
  | .callback _ _ => .job
  | .stop _ _ => .job
  | .tick => .command
  | .writeJob _ _ => .command
  | .clearJobs _ _ => .command
  | .writeSlot _ _ => .command
  | .rxUpdate _ _ _ _ _ => .command
  | .restart => .command
  | .cancel => .command

/-- The instruction completes, returns this status and result on its ports, and changes nothing else of the state. -/
def Answers (i : Instr) (s : State) (st : Status) (r : Result) : Prop := exec i s = .next (respond st r s)

/-- The next tick executes this job: neither halted nor cancelled, and the job stands at `PC` (R200). -/
def Ticks (s : State) (j : Job) : Prop :=
  s.halted = false ∧ s.cancel = false ∧ fetchJob Config.params s s.pc = some j

/-- The legal field geometry, written out (40_bitfield.md R100). -/
def FieldLegal (lsbPos size : BitVec 8) : Prop :=
  1 ≤ size.toNat ∧ 9 ≤ lsbPos.toNat ∧ lsbPos.toNat + size.toNat ≤ 32

/-- Checks 2 to 5 of `ENC.*` pass, with these exact operands (42_value_encode.md R121). -/
def EncChecked (lsbPos size : BitVec 8) (engMin engMax engValue : F64) (ssmIntent : BitVec 3) (lo hi v : Rat)
    (m : SsmValue) : Prop :=
  FieldLegal lsbPos size ∧ ssmOfCode ssmIntent = some m ∧ f64Rat engMin = some lo ∧ f64Rat engMax = some hi
    ∧ f64Rat engValue = some v ∧ lo ≤ hi

/-- Checks 2 to 4 of `DEC.*` pass, with this exact range (43_value_decode.md R141). -/
def DecChecked (lsbPos size : BitVec 8) (engMin engMax : F64) (lo hi : Rat) : Prop :=
  FieldLegal lsbPos size ∧ f64Rat engMin = some lo ∧ f64Rat engMax = some hi ∧ lo ≤ hi

end Sys2Proof.Machine
end

