-- ==== Sys2Proof/Certificates/Slice0/Obligations.lean ====
section
/-! DEFINITION. The statements for the provers, in the order of the spec's files. Each docstring names the rules of
spec/ it formalises. -/

open Sys2Proof Sys2Proof.Machine

/-! ## Encoding and the step -/

/-- Decoding an encoded well-formed instruction gives it back, every operand at every value (R74, R75, R80 to R82).
The spec marks these as its own decisions: D5, D6, D8, D9. -/
def Obligations.EncodedInstructionDecodes : Prop :=
  ∀ i : Instr, i.wellFormed = true → decode (encode i) = .ok i

/-- Words written out from the spec's tables decode to the instructions they stand for (R74, R75, R81, R82). The spec
marks these as its own decisions: D2, D5, D6, D8, D9. -/
def Obligations.SpecWordsDecode : Prop :=
  decodeTableWord 8 0b00000000 = some (.getBits 0 0 0)
    ∧ decodeTableWord 8 0b00010100 = some (.encBnr 0 0 0 0 0 0 0)
    ∧ decodeTableWord 8 0b00100101 = some (.decDisc 0 0 0 0 0 0)
    ∧ decodeTableWord 8 0b00001010 = some (.combineSsm 0 0)
    ∧ decodeTableWord 32 0x00020302 = some (.single 2 3)
    ∧ decodeTableWord 32 0x00000506 = some (.jump 0 5)
    ∧ decodeTableWord 32 0x01530204 = some (.retx1 0x153 2)
    ∧ decodeTableWord 3 0b011 = some (.writeSlot 0 0)
    ∧ decodeTableWord 3 0b111 = none

/-- A 32-bit word is a job exactly when `JobWordOk` holds of it, on the word as a number (R203). The spec marks these
as its own decisions: D38. -/
def Obligations.JobWordDecodesExactlyWhenOk : Prop :=
  ∀ w : BitVec 32,
    (∃ j, decodeJobWord w = .ok j)
      ↔ w.toNat % 16 ≤ 9 ∧ w.toNat / 16 % 16 = 0 ∧ w.toNat / 256 % 256 ≤ 250

/-- The layout of a job word: the record's fields stand where R74 puts them, and encoding the record gives the word.
The spec marks these as its own decisions: D5, D6. -/
def Obligations.JobWordLayout : Prop :=
  ∀ (w : BitVec 32) (j : Job), decodeJobWord w = .ok j →
    j.frameRef.toNat = w.toNat / 65536 ∧ j.dwellMs.toNat = w.toNat / 256 % 256
      ∧ (kindCode j.kind).toNat = w.toNat % 16 ∧ encodeJob j = w ∧ encode (jobInstr j) = .job w

/-- Exactly the fifteen selectors of R81 and the seven command codes of R82 name an operation; any other request
performs nothing and is answered `InvalidFieldSpec` (R86). The spec marks these as its own decisions: D8, D9. -/
def Obligations.ReservedRequestsAreRefused : Prop :=
  (∀ (sel : BitVec 8) (p : Ports), (∃ i, decodeRequest (.codec sel p) = .ok i)
      ↔ sel.toNat ∈ [0x00, 0x01, 0x02, 0x03, 0x04, 0x14, 0x24, 0x05, 0x15, 0x25, 0x06, 0x07, 0x08, 0x09, 0x0A])
    ∧ (∀ (cmd : BitVec 3) (p : Ports), (∃ i, decodeRequest (.command cmd p) = .ok i) ↔ cmd.toNat ≠ 7)
    ∧ ∀ (s : State) (r : Request) (rest : List Request), s.pending = r :: rest →
        (∀ i, decodeRequest r ≠ .ok i) →
          step s = .next { s with pending := rest, response := ⟨.invalidFieldSpec, .none⟩ }

/-- The step runs the decoded instruction: that of the oldest pending request, on the state without that request; and
with none pending, the scheduler's tick, which runs the job whose word stands at `PC` (R200; the choice of the tick
when nothing is pending is the model's, log entry 1). The spec marks these as its own decisions: D42. -/
def Obligations.StepRunsTheDecodedInstruction : Prop :=
  (∀ (s : State) (i : Instr) (r : Request) (rest : List Request), s.pending = r :: rest →
      (decodeRequest r = .ok i ∨ (i.wellFormed = true ∧ encode i = .request r)) →
        step s = exec i { s with pending := rest })
    ∧ (∀ s : State, s.pending = [] → step s = exec .tick s)
    ∧ ∀ (s : State) (w : BitVec 32) (i : Instr) (j : Job), s.pending = [] → decode (.job w) = .ok i →
        decodeJobWord w = .ok j → Ticks s j → step s = exec i s ∧ exec .tick s = exec i s

/-- Whatever word of the opcode table is placed for the step, the very next step runs the instruction the decoder
reads from it, on a state that differs from the given one at most in what the fetch needs (the model's
`withFetchWord`, log entry 5). The spec marks these as its own decisions: D6, D8, D9. -/
def Obligations.PlacedWordRunsFirst : Prop :=
  ∀ (s : State) (nbits w : Nat) (i : Instr), decodeTableWord nbits w = some i →
    ∃ t : State, step (s.withFetchWord nbits w) = exec i t ∧ t.pending = s.pending ∧ t.ret = s.ret
      ∧ t.slots = s.slots ∧ t.rx1 = s.rx1 ∧ t.rx2 = s.rx2 ∧ t.response = s.response
      ∧ (∀ k : Index, k ≠ t.pc → jobAt t k = jobAt s k)
      ∧ (family i ≠ .job → t = s)
      ∧ (family i = .job → ∃ j, jobInstr j = i ∧ Ticks t j)

/-! ## Codec operations -/

/-- A codec operation is a function of its operands alone: one status and one result in every state, and no state
touched but the response, a field of the model's own (R20; log entry 2). -/
def Obligations.CodecIsAFunctionOfItsOperands : Prop :=
  ∀ i : Instr, family i = .codec → ∃ (st : Status) (r : Result), ∀ s : State, Answers i s st r

/-- GET_BITS returns the field, bit by bit, zero above it; an illegal geometry is an error (R100, R101). -/
def Obligations.GetBitsReadsTheField : Prop :=
  ∀ (frame : Frame) (lsbPos size : BitVec 8) (s : State),
    (FieldLegal lsbPos size → ∃ v : BitVec 32, Answers (.getBits frame lsbPos size) s .ok (.value v)
        ∧ ∀ k, v.getLsbD k = (decide (k < size.toNat) && frame.getLsbD (lsbPos.toNat - 1 + k)))
      ∧ (¬ FieldLegal lsbPos size → Answers (.getBits frame lsbPos size) s .invalidFieldSpec .none)

/-- SET_BITS replaces the field's bits by the low bits of the value and returns every other bit unchanged; an illegal
geometry is an error (R100, R102). -/
def Obligations.SetBitsReplacesTheField : Prop :=
  ∀ (frame : Frame) (lsbPos size : BitVec 8) (value : BitVec 32) (s : State),
    (FieldLegal lsbPos size → ∃ f : Frame, Answers (.setBits frame lsbPos size value) s .ok (.frameOut f)
        ∧ (∀ k, k < size.toNat → f.getLsbD (lsbPos.toNat - 1 + k) = value.getLsbD k)
        ∧ ∀ k, ¬ (lsbPos.toNat - 1 ≤ k ∧ k < lsbPos.toNat - 1 + size.toNat) → f.getLsbD k = frame.getLsbD k)
      ∧ (¬ FieldLegal lsbPos size → Answers (.setBits frame lsbPos size value) s .invalidFieldSpec .none)

/-- The laws of the bit field: idempotence, read after write, write after read, and two fields that share no index
commute (R103). The spec marks this as derived from its other rules. -/
def Obligations.BitFieldLaws : Prop :=
  ∀ (f : Frame) (p z : BitVec 8) (v : BitVec 32), FieldLegal p z →
    withField (withField f p z v) p z v = withField f p z v
      ∧ fieldBits (withField f p z v) p z = v &&& BitVec.ofNat 32 (2 ^ z.toNat - 1)
      ∧ withField f p z (fieldBits f p z) = f
      ∧ ∀ (p' z' : BitVec 8) (v' : BitVec 32), FieldLegal p' z' →
          (p.toNat + z.toNat ≤ p'.toNat ∨ p'.toNat + z'.toNat ≤ p.toNat) →
            withField (withField f p z v) p' z' v' = withField (withField f p' z' v') p z v

/-- `BcdPack` is the sum of the decimal digits at powers of 16, `BcdUnpack` the sum of the nibbles at powers of 10,
the low `4k` bits of `BcdPack(n)` are `BcdPack(n mod 10^k)`, and unpacking undoes packing (R110, R111). The spec marks
these as its own decisions: D19. -/
def Obligations.BcdPackAndUnpackSums : Prop :=
  (∀ n, bcdPack n = ∑ i ∈ Finset.range (n + 1), n / 10 ^ i % 10 * 16 ^ i)
    ∧ (∀ b, bcdUnpack b = ∑ i ∈ Finset.range (b + 1), b / 16 ^ i % 16 * 10 ^ i)
    ∧ (∀ n k, bcdPack n % 2 ^ (4 * k) = bcdPack (n % 10 ^ k))
    ∧ ∀ n, bcdUnpack (bcdPack n) = n

/-- BIN2BCD returns, always with `Ok`, the word whose eight nibbles are the low eight decimal digits (R112). The spec
marks these as its own decisions: D23. -/
def Obligations.Bin2bcdPacksEightDigits : Prop :=
  ∀ (n : BitVec 32) (s : State), ∃ b : BitVec 32, Answers (.bin2bcd n) s .ok (.bcd b)
    ∧ ∀ i, i < 8 → b.toNat / 16 ^ i % 16 = n.toNat / 10 ^ i % 10

/-- BCD2BIN returns, always with `Ok`, the weighted sum of the eight nibbles, a nibble above 9 counting with its value
(R113). The spec marks these as its own decisions: D19, D23. -/
def Obligations.Bcd2binSumsEightNibbles : Prop :=
  ∀ (b : BitVec 32) (s : State), ∃ n : BitVec 32, Answers (.bcd2bin b) s .ok (.n n)
    ∧ n.toNat = ∑ i ∈ Finset.range 8, b.toNat / 16 ^ i % 16 * 10 ^ i

/-- The two BCD operations undo each other on eight-digit numbers and on words of decimal nibbles, and inside a field
only the low six digits of the packed value matter (R114). The spec marks this as derived from its other rules. The
spec marks these as its own decisions: D23. -/
def Obligations.BcdOperationsRoundTrip : Prop :=
  (∀ (n : BitVec 32) (s : State), n.toNat < 10 ^ 8 →
      ∃ b, Answers (.bin2bcd n) s .ok (.bcd b) ∧ Answers (.bcd2bin b) s .ok (.n n))
    ∧ (∀ (b : BitVec 32) (s : State), (∀ i, i < 8 → b.toNat / 16 ^ i % 16 ≤ 9) →
        ∃ n, Answers (.bcd2bin b) s .ok (.n n) ∧ Answers (.bin2bcd n) s .ok (.bcd b))
    ∧ ∀ (f : Frame) (p z : BitVec 8) (n : Nat), FieldLegal p z →
        withField f p z (BitVec.ofNat 32 (bcdPack n)) = withField f p z (BitVec.ofNat 32 (bcdPack (n % 10 ^ 6)))

/-- `Round` gives a nearest integer; a tie goes away from zero or to the even neighbour as `ROUND_TIES` says, under
each of its two values (R12). The spec marks these as its own decisions: D11. -/
def Obligations.RoundIsNearestWithTies : Prop :=
  ∀ q : Rat,
    (∀ ties, |(roundRat ties q : Rat) - q| ≤ 1 / 2)
      ∧ (|(roundRat .halfAwayFromZero q : Rat) - q| = 1 / 2 → |q| < |(roundRat .halfAwayFromZero q : Rat)|)
      ∧ (|(roundRat .halfToEven q : Rat) - q| = 1 / 2 → Even (roundRat .halfToEven q))

/-- An operand is refused exactly when its exponent field is all ones; any other is sign, mantissa and exponent read
as binary64, on the word as a number, both zeros being 0 (R79). The spec marks these as its own decisions: D10. -/
def Obligations.EngineeringOperandIsExact : Prop :=
  ∀ b : F64,
    (f64Rat b = none ↔ b.toNat / 2 ^ 52 % 2 ^ 11 = 2047)
      ∧ ∀ x, f64Rat b = some x →
          x = (-1) ^ (b.toNat / 2 ^ 63)
            * (if b.toNat / 2 ^ 52 % 2 ^ 11 = 0 then ((b.toNat % 2 ^ 52 : Nat) : Rat) / 2 ^ 1074
              else ((2 ^ 52 + b.toNat % 2 ^ 52 : Nat) : Rat) * 2 ^ (b.toNat / 2 ^ 52 % 2 ^ 11) / 2 ^ 1075)

/-- The result port is finite for every rational that some finite binary64 equals or exceeds in magnitude, and a
finite port carries a binary64 nearest to the exact rational; where two are equally near, the one whose mantissa is
even (R12, R148); zero is positive zero (R143). The spec marks these as its own decisions: D10. -/
def Obligations.ResultPortIsNearestBinary64 : Prop :=
  f64Of 0 = 0
    ∧ (∀ (q y : Rat) (g : F64), f64Rat g = some y → |q| ≤ |y| → f64Rat (f64Of q) ≠ none)
    ∧ ∀ (q x y : Rat) (g : F64), f64Rat (f64Of q) = some x → f64Rat g = some y →
        |q - x| ≤ |q - y| ∧ (|q - x| = |q - y| → x ≠ y → (f64Of q).getLsbD 0 = false)

/-- ENC.BCD on operands that pass the checks: the field holds the packed digits of the rounded magnitude cut to the
field, the SSM bits hold the code of the BCD column of R128 when they are written, every other bit is the input's
(R122 to R124, R128 to R130). The spec marks these as its own decisions: D10, D11, D13. -/
def Obligations.EncBcdEncodes : Prop :=
  ∀ (f : Frame) (l z : BitVec 8) (mn mx ev : F64) (code : BitVec 3) (lo hi v : Rat) (m : SsmValue) (s : State),
    EncChecked l z mn mx ev code lo hi v m → m ≠ .failureWarning →
      let c := min (max v lo) hi
      let n := (roundRat Config.params.roundTies |c|).toNat
      ∃ g : Frame, Answers (.encBcd f l z mn mx ev code) s .ok (.frameOut g)
        ∧ (∀ k, k < z.toNat → g.getLsbD (l.toNat - 1 + k) = (bcdPack n).testBit k)
        ∧ (m ≠ .data → l.toNat + z.toNat ≤ 30 →
            g.toNat / 2 ^ 29 % 4 = (match m with
              | .normalOperation => if c < 0 then 3 else 0
              | .noComputedData => 1
              | _ => 2))
        ∧ ∀ k, ¬ (l.toNat - 1 ≤ k ∧ k < l.toNat - 1 + z.toNat)
            → ¬ (m ≠ .data ∧ l.toNat + z.toNat ≤ 30 ∧ (k = 29 ∨ k = 30)) → g.getLsbD k = f.getLsbD k

/-- ENC.BNR on operands that pass the checks: index 28 is the sign, the field (but for index 28) holds the scaled
magnitude clipped to the field, or its two's complement, the SSM bits hold the code of the BNR column of R128 when
they are written, every other bit is the input's (R122, R123, R125, R126, R128 to R130). The spec marks these as its
own decisions: D10, D11, D13, D14. -/
def Obligations.EncBnrEncodes : Prop :=
  ∀ (f : Frame) (l z : BitVec 8) (mn mx ev : F64) (code : BitVec 3) (lo hi v : Rat) (m : SsmValue) (s : State),
    EncChecked l z mn mx ev code lo hi v m → max |lo| |hi| ≠ 0 →
      let c := min (max v lo) hi
      let d := min (roundRat Config.params.roundTies (|c| * 2 ^ z.toNat / max |lo| |hi|)).toNat (2 ^ z.toNat - 1)
      let data := if c < 0 then (2 ^ z.toNat - d) % 2 ^ z.toNat else d
      ∃ g : Frame, Answers (.encBnr f l z mn mx ev code) s .ok (.frameOut g)
        ∧ g.getLsbD 28 = decide (c < 0)
        ∧ (∀ k, k < z.toNat → l.toNat - 1 + k ≠ 28 → g.getLsbD (l.toNat - 1 + k) = data.testBit k)
        ∧ (m ≠ .data → l.toNat + z.toNat ≤ 30 →
            g.toNat / 2 ^ 29 % 4 = (match m with
              | .normalOperation => 3
              | .noComputedData => 1
              | .functionalTest => 2
              | _ => 0))
        ∧ ∀ k, k ≠ 28 → ¬ (l.toNat - 1 ≤ k ∧ k < l.toNat - 1 + z.toNat)
            → ¬ (m ≠ .data ∧ l.toNat + z.toNat ≤ 30 ∧ (k = 29 ∨ k = 30)) → g.getLsbD k = f.getLsbD k

/-- ENC.DISC on operands that pass the checks: the field holds the rounded magnitude unscaled, cut to the field, the
SSM bits hold the code of the Discrete column of R128 when they are written, every other bit is the input's (R122,
R123, R127 to R130). The spec marks these as its own decisions: D10, D11, D13, D16. -/
def Obligations.EncDiscEncodes : Prop :=
  ∀ (f : Frame) (l z : BitVec 8) (mn mx ev : F64) (code : BitVec 3) (lo hi v : Rat) (m : SsmValue) (s : State),
    EncChecked l z mn mx ev code lo hi v m → 0 ≤ v →
      let n := (roundRat Config.params.roundTies |min (max v lo) hi|).toNat
      ∃ g : Frame, Answers (.encDisc f l z mn mx ev code) s .ok (.frameOut g)
        ∧ (∀ k, k < z.toNat → g.getLsbD (l.toNat - 1 + k) = n.testBit k)
        ∧ (m ≠ .data → l.toNat + z.toNat ≤ 30 →
            g.toNat / 2 ^ 29 % 4 = (match m with
              | .normalOperation => 0
              | .noComputedData => 1
              | .functionalTest => 2
              | _ => 3))
        ∧ ∀ k, ¬ (l.toNat - 1 ≤ k ∧ k < l.toNat - 1 + z.toNat)
            → ¬ (m ≠ .data ∧ l.toNat + z.toNat ≤ 30 ∧ (k = 29 ∨ k = 30)) → g.getLsbD k = f.getLsbD k

/-- The refusals of the encoder in the order of R121: format code 3; a failed common check in any format; a BNR range
of magnitude 0; BCD with FailureWarning; and last, on the value supplied, a negative Discrete value. The spec marks
these as its own decisions: D12, D15, D16, D17. -/
def Obligations.EncRefusesInOrder : Prop :=
  (∀ (s : State) (p : Ports) (rest : List Request), s.pending = .codec 0x34 p :: rest →
      step s = .next { s with pending := rest, response := ⟨.invalidFieldSpec, .none⟩ })
    ∧ ∀ (f : Frame) (l z : BitVec 8) (mn mx ev : F64) (code : BitVec 3) (s : State),
        ((¬ ∃ lo hi v m, EncChecked l z mn mx ev code lo hi v m) →
          Answers (.encBcd f l z mn mx ev code) s .invalidFieldSpec .none
            ∧ Answers (.encBnr f l z mn mx ev code) s .invalidFieldSpec .none
            ∧ Answers (.encDisc f l z mn mx ev code) s .invalidFieldSpec .none)
        ∧ ∀ (lo hi v : Rat) (m : SsmValue), EncChecked l z mn mx ev code lo hi v m →
            (max |lo| |hi| = 0 → Answers (.encBnr f l z mn mx ev code) s .invalidFieldSpec .none)
              ∧ (m = .failureWarning → Answers (.encBcd f l z mn mx ev code) s .invalidFieldSpec .none)
              ∧ (v < 0 → Answers (.encDisc f l z mn mx ev code) s .negativeNotAllowed .none)

/-- DEC.BCD on operands that pass the checks: the weighted sum of the field's nibbles, negated when the raw SSM is 3
and the SSM bits are not data, and the SSM value of the BCD column of R146, or `Data` when they are (R142, R143, R146,
R147). The spec marks these as its own decisions: D10, D18, D19, D21. -/
def Obligations.DecBcdDecodes : Prop :=
  ∀ (f : Frame) (l z : BitVec 8) (mn mx : F64) (dec : BitVec 8) (lo hi : Rat) (s : State),
    DecChecked l z mn mx lo hi →
      let fld := f.toNat / 2 ^ (l.toNat - 1) % 2 ^ z.toNat
      let raw := f.toNat / 2 ^ 29 % 4
      let n := ∑ i ∈ Finset.range 6, fld / 16 ^ i % 16 * 10 ^ i
      let q : Rat := if l.toNat + z.toNat ≤ 30 ∧ raw = 3 then -(n : Rat) else n
      let m : SsmValue := if 30 < l.toNat + z.toNat then .data else
        (match raw with
          | 1 => .noComputedData
          | 2 => .functionalTest
          | _ => .normalOperation)
      Answers (.decBcd f l z mn mx dec) s .ok (.decoded q (f64Of q) m)

/-- DEC.BNR on operands that pass the checks: the field, two's-complemented and negated when index 28 is set, times
the scale, rounded to `decimals`, and the SSM value of the BNR column of R146, or `Data` (R142, R144, R146, R147). The
spec marks these as its own decisions: D10, D11, D18, D20. -/
def Obligations.DecBnrDecodes : Prop :=
  ∀ (f : Frame) (l z : BitVec 8) (mn mx : F64) (dec : BitVec 8) (lo hi : Rat) (s : State),
    DecChecked l z mn mx lo hi → max |lo| |hi| ≠ 0 →
      let fld := f.toNat / 2 ^ (l.toNat - 1) % 2 ^ z.toNat
      let raw := f.toNat / 2 ^ 29 % 4
      let scale : Rat := max |lo| |hi| / 2 ^ z.toNat
      let x : Rat := if f.toNat / 2 ^ 28 % 2 = 1 then -(((2 ^ z.toNat - fld) % 2 ^ z.toNat : Nat) * scale)
        else fld * scale
      let q : Rat := roundRat Config.params.roundTies (x * 10 ^ dec.toNat) / 10 ^ dec.toNat
      let m : SsmValue := if 30 < l.toNat + z.toNat then .data else
        (match raw with
          | 0 => .failureWarning
          | 1 => .noComputedData
          | 2 => .functionalTest
          | _ => .normalOperation)
      Answers (.decBnr f l z mn mx dec) s .ok (.decoded q (f64Of q) m)

/-- DEC.DISC on operands that pass the checks: the raw field unscaled, and the SSM value of the Discrete column of
R146, or `Data` (R142, R145 to R147). The spec marks these as its own decisions: D10, D18, D21. -/
def Obligations.DecDiscDecodes : Prop :=
  ∀ (f : Frame) (l z : BitVec 8) (mn mx : F64) (dec : BitVec 8) (lo hi : Rat) (s : State),
    DecChecked l z mn mx lo hi →
      let fld := f.toNat / 2 ^ (l.toNat - 1) % 2 ^ z.toNat
      let raw := f.toNat / 2 ^ 29 % 4
      let m : SsmValue := if 30 < l.toNat + z.toNat then .data else
        (match raw with
          | 1 => .noComputedData
          | 2 => .functionalTest
          | 3 => .failureWarning
          | _ => .normalOperation)
      Answers (.decDisc f l z mn mx dec) s .ok (.decoded fld (f64Of fld) m)

/-- The refusals of the decoder (R141): format code 3; a failed common check in any format; a BNR range of magnitude
0. The spec marks these as its own decisions: D12, D17. -/
def Obligations.DecRefuses : Prop :=
  (∀ (s : State) (p : Ports) (rest : List Request), s.pending = .codec 0x35 p :: rest →
      step s = .next { s with pending := rest, response := ⟨.invalidFieldSpec, .none⟩ })
    ∧ ∀ (f : Frame) (l z : BitVec 8) (mn mx : F64) (dec : BitVec 8) (s : State),
        ((¬ ∃ lo hi, DecChecked l z mn mx lo hi) →
          Answers (.decBcd f l z mn mx dec) s .invalidFieldSpec .none
            ∧ Answers (.decBnr f l z mn mx dec) s .invalidFieldSpec .none
            ∧ Answers (.decDisc f l z mn mx dec) s .invalidFieldSpec .none)
        ∧ ∀ lo hi : Rat, DecChecked l z mn mx lo hi → max |lo| |hi| = 0 →
            Answers (.decBnr f l z mn mx dec) s .invalidFieldSpec .none

/-- The BCD round trip within the field: the decoder returns the rounded clipped value, with its sign and
`NormalOperation` under that intent, without its sign and with the intent under the two others (R149, BCD). The spec
marks this as derived from its other rules. -/
def Obligations.BcdRoundTrip : Prop :=
  ∀ (f : Frame) (l z : BitVec 8) (mn mx ev : F64) (code : BitVec 3) (dec : BitVec 8) (lo hi v : Rat) (m : SsmValue)
    (s : State),
    EncChecked l z mn mx ev code lo hi v m → m ≠ .failureWarning → m ≠ .data → l.toNat + z.toNat ≤ 30 →
      let c := min (max v lo) hi
      let n := (roundRat Config.params.roundTies |c|).toNat
      bcdPack n < 2 ^ z.toNat →
        let q : Rat := if m = .normalOperation ∧ c < 0 then -(n : Rat) else n
        ∃ g : Frame, Answers (.encBcd f l z mn mx ev code) s .ok (.frameOut g)
          ∧ Answers (.decBcd g l z mn mx dec) s .ok (.decoded q (f64Of q) m)

/-- The BNR round trip: within half a step of the scale and half a unit of the last decimal, within a whole step at
full scale; the SSM value is the intent (R149, BNR). The spec marks this as derived from its other rules. -/
def Obligations.BnrRoundTrip : Prop :=
  ∀ (f : Frame) (l z : BitVec 8) (mn mx ev : F64) (code : BitVec 3) (dec : BitVec 8) (lo hi v : Rat) (m : SsmValue)
    (s : State),
    EncChecked l z mn mx ev code lo hi v m → max |lo| |hi| ≠ 0 → m ≠ .data → l.toNat + z.toNat ≤ 29 →
      let c := min (max v lo) hi
      let scale : Rat := max |lo| |hi| / 2 ^ z.toNat
      ∃ (g : Frame) (q : Rat), Answers (.encBnr f l z mn mx ev code) s .ok (.frameOut g)
        ∧ Answers (.decBnr g l z mn mx dec) s .ok (.decoded q (f64Of q) m)
        ∧ |q - c| ≤ scale + 1 / 10 ^ dec.toNat / 2
        ∧ (|c| / scale < 2 ^ z.toNat - 1 / 2 → |q - c| ≤ scale / 2 + 1 / 10 ^ dec.toNat / 2)

/-- The Discrete round trip within the field: the rounded magnitude of the clipped value, and the intent (R149,
Discrete). The spec marks this as derived from its other rules. -/
def Obligations.DiscreteRoundTrip : Prop :=
  ∀ (f : Frame) (l z : BitVec 8) (mn mx ev : F64) (code : BitVec 3) (dec : BitVec 8) (lo hi v : Rat) (m : SsmValue)
    (s : State),
    EncChecked l z mn mx ev code lo hi v m → 0 ≤ v → m ≠ .data → l.toNat + z.toNat ≤ 30 →
      let n := (roundRat Config.params.roundTies |min (max v lo) hi|).toNat
      n < 2 ^ z.toNat →
        ∃ g : Frame, Answers (.encDisc f l z mn mx ev code) s .ok (.frameOut g)
          ∧ Answers (.decDisc g l z mn mx dec) s .ok (.decoded n (f64Of n) m)

/-- CREATE_FRAME: the label, and the SDI code at 9:8 unless the mode is `Data`; every other bit 0; an illegal label or
mode is an error (R160). -/
def Obligations.CreateFrameBuilds : Prop :=
  ∀ (label : BitVec 16) (sdi : BitVec 3) (s : State),
    (label.toNat ≤ 255 → sdi.toNat ≤ 4 → ∃ f : Frame, Answers (.createFrame label sdi) s .ok (.frameOut f)
        ∧ f.toNat = label.toNat + (if sdi.toNat = 4 then 0 else sdi.toNat * 256))
      ∧ (255 < label.toNat ∨ 4 < sdi.toNat → Answers (.createFrame label sdi) s .invalidLabelOrSdi .none)

/-- The three readers return frame bits 7:0, 9:8 and 30:29 (R161 to R163). -/
def Obligations.ReadersReadTheirBits : Prop :=
  ∀ (f : Frame) (s : State),
    (∃ l : BitVec 8, Answers (.readLabel f) s .ok (.label l) ∧ l.toNat = f.toNat % 2 ^ 8)
      ∧ (∃ d : BitVec 2, Answers (.readSdi f) s .ok (.sdi d) ∧ d.toNat = f.toNat / 2 ^ 8 % 4)
      ∧ ∃ r : BitVec 2, Answers (.readSsmRaw f) s .ok (.ssmRaw r) ∧ r.toNat = f.toNat / 2 ^ 29 % 4

/-- COMBINE_SSM returns the operand of the higher rank, the ranks being FailureWarning > NoComputedData >
FunctionalTest > NormalOperation > Data; a code 5 to 7 is an error (R164). The spec marks these as its own decisions:
D4. -/
def Obligations.CombineSsmTakesThePriority : Prop :=
  ∀ (a b : BitVec 3) (s : State),
    let order : List SsmValue := [.data, .normalOperation, .functionalTest, .noComputedData, .failureWarning]
    (a.toNat ≤ 4 → b.toNat ≤ 4 → ∃ x y z : SsmValue, ssmCode x = a ∧ ssmCode y = b
        ∧ Answers (.combineSsm a b) s .ok (.ssm z) ∧ order.idxOf z = max (order.idxOf x) (order.idxOf y))
      ∧ (4 < a.toNat ∨ 4 < b.toNat → Answers (.combineSsm a b) s .invalidFieldSpec .none)

/-- The laws of R165: COMBINE_SSM is commutative, associative and idempotent with identity `Data` and absorbing
`FailureWarning`; a created frame reads back its label and SDI; a SET_BITS leaves the label, and the SDI and the SSM
bits its field does not cover, as they were. The spec marks this as derived from its other rules. -/
def Obligations.FrameAndCombineLaws : Prop :=
  (∀ a b c : SsmValue, combineSsm a b = combineSsm b a ∧ combineSsm a (combineSsm b c) = combineSsm (combineSsm a b) c
      ∧ combineSsm a a = a ∧ combineSsm .data a = a ∧ combineSsm .failureWarning a = .failureWarning)
    ∧ (∀ (label : BitVec 16) (sdi : BitVec 3) (s : State), label.toNat ≤ 255 → sdi.toNat ≤ 4 →
        ∃ f : Frame, Answers (.createFrame label sdi) s .ok (.frameOut f)
          ∧ Answers (.readLabel f) s .ok (.label (BitVec.ofNat 8 label.toNat))
          ∧ Answers (.readSdi f) s .ok (.sdi (if sdi.toNat = 4 then 0 else BitVec.ofNat 2 sdi.toNat)))
    ∧ ∀ (f : Frame) (p z : BitVec 8) (v : BitVec 32), FieldLegal p z →
        (withField f p z v).toNat % 2 ^ 8 = f.toNat % 2 ^ 8
          ∧ (11 ≤ p.toNat → (withField f p z v).toNat / 2 ^ 8 % 4 = f.toNat / 2 ^ 8 % 4)
          ∧ (p.toNat + z.toNat ≤ 30 → (withField f p z v).toNat / 2 ^ 29 % 4 = f.toNat / 2 ^ 29 % 4)

/-! ## Jobs: what each kind does, as its own meaning and as the tick that executes it -/

/-- SKIP, DWELL and CALLBACK advance `PC`, emit nothing, the wait, and the notification and the wait, and change
nothing else; a zero dwell emits no wait (R173 to R175, R184). The spec marks these as its own decisions: D25, D26. -/
def Obligations.SkipDwellCallbackAdvance : Prop :=
  ∀ (s : State) (r : Index) (d : BitVec 8),
    let waits : List Action := if d.toNat = 0 then [] else [.wait d]
    let after (acts : List Action) : State := { s with pc := s.pc + 1, response := ⟨.ok, .actions acts⟩ }
    (exec (.skip r d) s = .next (after []) ∧ (Ticks s ⟨.skip, r, d⟩ → exec .tick s = .next (after [])))
      ∧ (exec (.dwell r d) s = .next (after waits) ∧ (Ticks s ⟨.dwell, r, d⟩ → exec .tick s = .next (after waits)))
      ∧ (exec (.callback r d) s = .next (after (.notifyCycleComplete :: waits))
        ∧ (Ticks s ⟨.callback, r, d⟩ → exec .tick s = .next (after (.notifyCycleComplete :: waits))))

/-- SINGLE on a slot of the table: an armed, non-zero slot is transmitted and disarmed, its value kept; otherwise
nothing is sent; the wait follows either way, `PC` advances, no other slot changes and nothing else does (R173, R176,
R30). The spec marks these as its own decisions: D26, D31, D39. -/
def Obligations.SingleSendsAnArmedSlotOnce : Prop :=
  ∀ (s : State) (i : Index) (d : BitVec 8), i.toNat < Config.params.frameSlots →
    let waits : List Action := if d.toNat = 0 then [] else [.wait d]
    let sends := (slotAt s i).armed = true ∧ (slotAt s i).raw ≠ 0
    ∃ t : State, exec (.single i d) s = .next t ∧ (Ticks s ⟨.single, i, d⟩ → exec .tick s = .next t)
      ∧ (slotAt t i).raw = (slotAt s i).raw
      ∧ (sends → (slotAt t i).armed = false
          ∧ t = { s with pc := s.pc + 1, slots := t.slots,
                         response := ⟨.ok, .actions (.transmit (slotAt s i).raw :: waits)⟩ })
      ∧ (¬ sends → t = { s with pc := s.pc + 1, response := ⟨.ok, .actions waits⟩ })
      ∧ ∀ k : Index, k ≠ i → slotAt t k = slotAt s k

/-- CYCLIC on a slot of the table transmits its value unconditionally, then the wait; `PC` advances and nothing else
changes (R173, R177). The spec marks these as its own decisions: D25, D26. -/
def Obligations.CyclicSendsTheSlot : Prop :=
  ∀ (s : State) (i : Index) (d : BitVec 8), i.toNat < Config.params.frameSlots →
    let waits : List Action := if d.toNat = 0 then [] else [.wait d]
    let t : State := { s with pc := s.pc + 1, response := ⟨.ok, .actions (.transmit (slotAt s i).raw :: waits)⟩ }
    exec (.cyclic i d) s = .next t ∧ (Ticks s ⟨.cyclic, i, d⟩ → exec .tick s = .next t)

/-- RETX1 and RETX2 on a legal extended label transmit the last frame received on their own channel when it has been
received and is not timed out, then the wait; `PC` advances and nothing else changes (R173, R178, R179). The spec
marks these as its own decisions: D26, D27, D36. -/
def Obligations.RetransmitSendsTheReceivedFrame : Prop :=
  ∀ (s : State) (e : Index) (d : BitVec 8), e.toNat ≤ 1023 →
    let waits : List Action := if d.toNat = 0 then [] else [.wait d]
    let sent (x : RxEntry) : List Action :=
      if x.seen = true ∧ x.timedOut = false then .transmit x.raw :: waits else waits
    let after (x : RxEntry) : State := { s with pc := s.pc + 1, response := ⟨.ok, .actions (sent x)⟩ }
    (exec (.retx1 e d) s = .next (after (rxAt s .rx1 e.toNat))
        ∧ (Ticks s ⟨.retransmitRx1, e, d⟩ → exec .tick s = .next (after (rxAt s .rx1 e.toNat))))
      ∧ (exec (.retx2 e d) s = .next (after (rxAt s .rx2 e.toNat))
        ∧ (Ticks s ⟨.retransmitRx2, e, d⟩ → exec .tick s = .next (after (rxAt s .rx2 e.toNat))))

/-- A reference that names nothing: SINGLE and CYCLIC past the frame table, whatever its size, RETX1 and RETX2 past
1023; the tick warns, advances `PC`, emits nothing and changes nothing else (R172). The spec marks these as its own
decisions: D30. -/
def Obligations.UnreachableReferenceWarns : Prop :=
  ∀ (s : State) (r : Index) (d : BitVec 8),
    let t : State := { s with pc := s.pc + 1, response := ⟨.warnUnreachableIndex, .actions []⟩ }
    (∀ p : Params, p.frameSlots ≤ r.toNat → singleRule p r d s = t ∧ cyclicRule p r d s = t)
      ∧ (Config.params.frameSlots ≤ r.toNat →
        exec (.single r d) s = .next t ∧ exec (.cyclic r d) s = .next t
          ∧ (Ticks s ⟨.single, r, d⟩ ∨ Ticks s ⟨.cyclic, r, d⟩ → exec .tick s = .next t))
      ∧ (1023 < r.toNat →
        exec (.retx1 r d) s = .next t ∧ exec (.retx2 r d) s = .next t
          ∧ (Ticks s ⟨.retransmitRx1, r, d⟩ ∨ Ticks s ⟨.retransmitRx2, r, d⟩ → exec .tick s = .next t))

/-- JUMP to a slot that holds a job: the successor is saved as the return point, over any earlier one, the wait is
emitted, `PC` is the target; nothing else changes (R173, R180). The spec marks these as its own decisions: D25, D26.
-/
def Obligations.JumpSavesTheSuccessor : Prop :=
  ∀ (s : State) (g : Index) (d : BitVec 8), g.toNat < Config.params.jobSlots → jobAt s g ≠ none →
    let waits : List Action := if d.toNat = 0 then [] else [.wait d]
    let t : State := { s with pc := g, ret := some (s.pc + 1), response := ⟨.ok, .actions waits⟩ }
    exec (.jump g d) s = .next t ∧ (Ticks s ⟨.jump, g, d⟩ → exec .tick s = .next t)

/-- RETURN with a saved return point goes there and consumes it, then the wait; the target is not checked; nothing
else changes (R173, R182). The spec marks these as its own decisions: D26, D29. -/
def Obligations.ReturnConsumesTheReturnPoint : Prop :=
  ∀ (s : State) (r i : Index) (d : BitVec 8), s.ret = some i →
    let waits : List Action := if d.toNat = 0 then [] else [.wait d]
    let t : State := { s with pc := i, ret := none, response := ⟨.ok, .actions waits⟩ }
    exec (.ret r d) s = .next t ∧ (Ticks s ⟨.ret, r, d⟩ → exec .tick s = .next t)

/-- The misuses: a JUMP whose target is outside the table or holds no job, and a RETURN with nothing saved, halt with
`ScheduleIndexConflict` and `[Halted]`, `PC` and `RET` kept, nothing else changed (R181, R183, R225). The spec marks
these as its own decisions: D28, D29. -/
def Obligations.MisuseHalts : Prop :=
  ∀ (s : State) (g : Index) (d : BitVec 8),
    let t : State := { s with halted := true, response := ⟨.scheduleIndexConflict, .actions [.halted]⟩ }
    (Config.params.jobSlots ≤ g.toNat ∨ jobAt s g = none →
        exec (.jump g d) s = .next t ∧ (Ticks s ⟨.jump, g, d⟩ → exec .tick s = .next t))
      ∧ (s.ret = none → exec (.ret g d) s = .next t ∧ (Ticks s ⟨.ret, g, d⟩ → exec .tick s = .next t))

/-- STOP halts with `Ok` and `[Halted]`, whatever its dwell; `PC` and `RET` are kept and nothing else changes (R185).
The spec marks these as its own decisions: D33. -/
def Obligations.StopHalts : Prop :=
  ∀ (s : State) (r : Index) (d : BitVec 8),
    let t : State := { s with halted := true, response := ⟨.ok, .actions [.halted]⟩ }
    exec (.stop r d) s = .next t ∧ (Ticks s ⟨.stop, r, d⟩ → exec .tick s = .next t)

/-! ## Commands -/

/-- TICK tests `HALTED`, then `CANCEL`, then the reachability of `PC`, and only then executes the job: a halted
scheduler answers `[Halted]` and changes nothing, a cancelled one halts without executing the job, an unreachable `PC`
warns and advances, and otherwise the tick completes as the fetched job does (R171, R200, R231, R233). The spec marks
these as its own decisions: D30, D33, D35, D42. -/
def Obligations.TickTestsInOrder : Prop :=
  ∀ s : State,
    (s.halted = true → exec .tick s = .next { s with response := ⟨.ok, .actions [.halted]⟩ })
      ∧ (s.halted = false → s.cancel = true →
          exec .tick s = .next { s with halted := true, response := ⟨.ok, .actions [.halted]⟩ })
      ∧ (s.halted = false → s.cancel = false →
          (Config.params.jobSlots ≤ s.pc.toNat ∨ jobAt s s.pc = none →
            exec .tick s
              = .next { s with pc := s.pc + 1, response := ⟨.warnUnreachableIndex, .actions []⟩ })
          ∧ ∀ j : Job, s.pc.toNat < Config.params.jobSlots → jobAt s s.pc = some j →
              ∃ t : State, exec .tick s = .next t ∧ exec (jobInstr j) s = .next t)

/-- WRITE_JOB: a job word to an index of the table stores its record there, over whatever stood there, and changes no
other slot and nothing else; otherwise the slot keeps its content and the status is `InvalidFieldSpec` (R201, R203).
The spec marks these as its own decisions: D6, D24, D38. -/
def Obligations.WriteJobStoresTheRecord : Prop :=
  ∀ (s : State) (i : Index) (w : BitVec 32),
    let ok := w.toNat % 16 ≤ 9 ∧ w.toNat / 16 % 16 = 0 ∧ w.toNat / 256 % 256 ≤ 250
    (i.toNat < Config.params.jobSlots → ok → ∃ (t : State) (j : Job), exec (.writeJob i w) s = .next t
        ∧ t = { s with jobs := t.jobs, response := ⟨.ok, .none⟩ } ∧ jobAt t i = some j
        ∧ (kindCode j.kind).toNat = w.toNat % 16 ∧ j.dwellMs.toNat = w.toNat / 256 % 256
        ∧ j.frameRef.toNat = w.toNat / 65536 ∧ ∀ k : Index, k ≠ i → jobAt t k = jobAt s k)
      ∧ (Config.params.jobSlots ≤ i.toNat ∨ ¬ ok → Answers (.writeJob i w) s .invalidFieldSpec .none)

/-- CLEAR_JOBS empties exactly the slots `first` to `last` and changes nothing else; an empty range or one that leaves
the table clears nothing and is an error (R202). The spec marks these as its own decisions: D24, D38. -/
def Obligations.ClearJobsEmptiesTheRange : Prop :=
  ∀ (s : State) (first last : Index),
    (first.toNat ≤ last.toNat → last.toNat < Config.params.jobSlots → ∃ t : State,
        exec (.clearJobs first last) s = .next t ∧ t = { s with jobs := t.jobs, response := ⟨.ok, .none⟩ }
        ∧ ∀ k : Index, jobAt t k = if first.toNat ≤ k.toNat ∧ k.toNat ≤ last.toNat then none else jobAt s k)
      ∧ (last.toNat < first.toNat ∨ Config.params.jobSlots ≤ last.toNat →
        Answers (.clearJobs first last) s .invalidFieldSpec .none)

/-- WRITE_SLOT stores the 32 bits as given and arms the slot, whatever the value, and changes no other slot and
nothing else; an index outside the table, whatever its size, writes nothing and is an error (R206). The spec marks
these as its own decisions: D32, D38, D39. -/
def Obligations.WriteSlotStoresAndArms : Prop :=
  ∀ (s : State) (i : Index) (v : Frame),
    (i.toNat < Config.params.frameSlots → ∃ t : State, exec (.writeSlot i v) s = .next t
        ∧ t = { s with slots := t.slots, response := ⟨.ok, .none⟩ } ∧ slotAt t i = ⟨v, true⟩
        ∧ ∀ k : Index, k ≠ i → slotAt t k = slotAt s k)
      ∧ (Config.params.frameSlots ≤ i.toNat → Answers (.writeSlot i v) s .invalidFieldSpec .none)
      ∧ ∀ p : Params, p.frameSlots ≤ i.toNat →
          writeSlotRule p i v s = { s with response := ⟨.invalidFieldSpec, .none⟩ }

/-- RX_UPDATE writes the whole entry of its channel, with no condition, and changes no other entry of either table and
nothing else (R208). The spec marks these as its own decisions: D36. -/
def Obligations.RxUpdateWritesOneEntry : Prop :=
  ∀ (s : State) (c : RxChannel) (e : BitVec 10) (seen timedOut : Bool) (v : Frame),
    ∃ t : State, exec (.rxUpdate c e seen timedOut v) s = .next t
      ∧ t = { s with rx1 := t.rx1, rx2 := t.rx2, response := ⟨.ok, .none⟩ }
      ∧ rxAt t c e.toNat = ⟨seen, timedOut, v⟩
      ∧ ∀ (c' : RxChannel) (k : Nat), (c', k) ≠ (c, e.toNat) → rxAt t c' k = rxAt s c' k

/-- RESTART puts the four scheduler registers back to the initial state and keeps the tables; CANCEL sets the pending
stop request and nothing else, and the next tick halts without executing a job (R205, R207). The spec marks these as
its own decisions: D34, D35. -/
def Obligations.RestartAndCancel : Prop :=
  ∀ s : State,
    exec .restart s
        = .next { s with pc := 0, ret := none, halted := false, cancel := false, response := ⟨.ok, .none⟩ }
      ∧ ∃ t : State, exec .cancel s = .next t ∧ t = { s with cancel := true, response := ⟨.ok, .none⟩ }
        ∧ exec .tick t = .next { t with halted := true, response := ⟨.ok, .actions [.halted]⟩ }

/-- LOAD_JOBS with no other move inside it: stepping through its requests leaves the registers restarted, in each slot
of the table the last good word the list gives it or nothing, every other table untouched, and its status is `Ok`
exactly when every write succeeded (R204; the list of moves is the model's own field, log entry 1). The spec marks
these as its own decisions: D34. -/
def Obligations.LoadJobsBuildsTheTable : Prop :=
  ∀ (l : List (Index × BitVec 32)) (s : State) (rest : List Request),
    s.pending = loadJobsRequests Config.params l ++ rest →
      let good := l.filter fun e => decide (e.1.toNat < Config.params.jobSlots) && jobWordOk e.2
      ∃ t : State, Host.Core.run Sys2Proof.core (l.length + 2) s = .next t
        ∧ t = { s with pc := 0, ret := none, halted := false, cancel := false, jobs := t.jobs,
                       response := ⟨.ok, .none⟩, pending := rest }
        ∧ (∀ k : Index, k.toNat < Config.params.jobSlots →
            jobAt t k = ((good.filter fun e => e.1 = k).getLast?).bind fun e => (decodeJobWord e.2).toOption)
        ∧ (loadJobs Config.params l s).1 = (if good.length = l.length then .ok else .invalidFieldSpec)
        ∧ (loadJobs Config.params l s).2 = { t with pending := s.pending }

/-! ## The whole machine -/

/-- Every step from a state that meets the invariant leads to one that meets it: tables in bounds with legal dwells
(R29 to R31, R74), a legal response (R83, R84, R186). The canonical form of the tables and the response field are the
model's own (log entries 4 and 2). -/
def Obligations.StepKeepsTheInvariant : Prop :=
  ∀ s t : State, Inv s → step s = .next t → Inv t

/-- The state after reset meets the invariant (the model's own, log entries 2 and 4). -/
def Obligations.ResetMeetsTheInvariant : Prop := Inv State.reset

/-- The values after reset (R36); the first step with nothing placed warns and advances, transmitting nothing (R251;
that an empty list of moves lets the scheduler tick is the model's choice, log entry 1). The spec marks these as its
own decisions: D24, D32, D34, D35, D36. -/
def Obligations.ResetValues : Prop :=
  State.reset.pc = 0 ∧ State.reset.ret = none ∧ State.reset.halted = false ∧ State.reset.cancel = false
    ∧ (∀ i, jobAt State.reset i = none) ∧ (∀ i, slotAt State.reset i = ⟨0, false⟩)
    ∧ (∀ c e, rxAt State.reset c e = ⟨false, false, 0⟩)
    ∧ step State.reset
        = .next { State.reset with pc := 1, response := ⟨.warnUnreachableIndex, .actions []⟩ }

/-- Two job tables in canonical form that read the same everywhere are the same data; and so are two tables of any
other kind, with no entry equal to what an unlisted index holds (the model's own form, log entry 4). -/
def Obligations.CanonicalTablesAreEqualData : Prop :=
  (∀ (bound : Nat) (ok : Job → Bool) (t u : Table Job), tableWf bound ok t = true → tableWf bound ok u = true →
      (∀ i, tableFind t i = tableFind u i) → t = u)
    ∧ ∀ (α : Type) [DecidableEq α] (dflt : α) (bound : Nat) (t u : Table α),
        tableWf bound (fun e => e != dflt) t = true → tableWf bound (fun e => e != dflt) u = true →
          (∀ i, (tableFind t i).getD dflt = (tableFind u i).getD dflt) → t = u

/-- No step stops: every state has a next state (R220, R234). The spec marks these as its own decisions: D7. -/
def Obligations.EveryStepCompletes : Prop :=
  (∀ (i : Instr) (s : State), ∃ t, exec i s = .next t) ∧ ∀ s : State, ∃ t, step s = .next t

/-- Each operation's status and result stand alone: no instruction reads the response of the one before, nor the moves
still to come (R27, R220; both are fields of the model's own, log entries 1 and 2). The spec marks these as its own
decisions: D7. -/
def Obligations.ResponseAndPendingAreNotRead : Prop :=
  ∀ (i : Instr) (s : State) (x : Response) (l : List Request),
    exec i { s with response := x } = exec i s
      ∧ ∀ t : State, exec i s = .next t → exec i { s with pending := l } = .next { t with pending := l }

/-- The action list of a tick is one of seven, with waits of 1 to 250 ms, and `Halted` stands alone (R84, R186). The
spec marks this as derived from its other rules. -/
def Obligations.TickActionLists : Prop :=
  ∀ s t : State, Memory.wf Config.params s = true → exec .tick s = .next t →
    ∃ l : List Action, t.response.result = .actions l
      ∧ ((∃ f ms, 1 ≤ ms.toNat ∧ ms.toNat ≤ 250 ∧ (l = [.transmit f] ∨ l = [.transmit f, .wait ms]
            ∨ l = [.wait ms] ∨ l = [.notifyCycleComplete, .wait ms]))
          ∨ l = [] ∨ l = [.notifyCycleComplete] ∨ l = [.halted])

/-- Only a STOP, a misuse and a cancelled tick halt the scheduler, and only RESTART wakes it (R25, R210, R245). The
spec marks this as derived from its other rules. The spec marks these as its own decisions: D34. -/
def Obligations.OnlyTheseHaltAndWake : Prop :=
  ∀ (i : Instr) (s t : State), exec i s = .next t →
    (s.halted = false → t.halted = true →
        (i = .tick ∧ (s.cancel = true
          ∨ ∃ j, fetchJob Config.params s s.pc = some j ∧ (j.kind = .stop ∨ misuse Config.params s j)))
        ∨ ∃ j, i = jobInstr j ∧ (j.kind = .stop ∨ misuse Config.params s j))
      ∧ (s.halted = true → t.halted = false → i = .restart)

/-- Who writes what: the tables, `ARMED`, `PC`, `RET` and `CANCEL` are each written only by the operations R33 names
for it (`HALTED` has a statement of its own, OnlyTheseHaltAndWake). The spec marks this as derived from its other
rules. -/
def Obligations.OnlyTheOwnersWrite : Prop :=
  ∀ (i : Instr) (s t : State), exec i s = .next t →
    (t.jobs ≠ s.jobs → (∃ k w, i = .writeJob k w) ∨ ∃ a b, i = .clearJobs a b)
      ∧ (∀ k : Index, (slotAt t k).raw ≠ (slotAt s k).raw → ∃ v, i = .writeSlot k v)
      ∧ (∀ k : Index, (slotAt t k).armed ≠ (slotAt s k).armed →
          (∃ v, i = .writeSlot k v) ∨ (∃ d, i = .single k d)
            ∨ (i = .tick ∧ ∃ d, fetchJob Config.params s s.pc = some ⟨.single, k, d⟩))
      ∧ (∀ c e, rxAt t c e ≠ rxAt s c e → ∃ x n o v, i = .rxUpdate c x n o v ∧ x.toNat = e)
      ∧ (t.pc ≠ s.pc → i = .tick ∨ i = .restart ∨ family i = .job)
      ∧ (t.ret ≠ s.ret → i = .restart ∨ (∃ r d, i = .jump r d ∨ i = .ret r d)
          ∨ (i = .tick ∧ ∃ j, fetchJob Config.params s s.pc = some j ∧ (j.kind = .jump ∨ j.kind = .ret)))
      ∧ (t.cancel ≠ s.cancel → i = .cancel ∨ i = .restart)

/-- A halted scheduler is stable under any number of ticks (R200, R210; that an empty list of moves lets the scheduler
tick is the model's choice, log entry 1). A prefix of a run is the machine's own steps, none of them from a halted
state, with the response of every one of them in order; a prefix shorter than asked for is over, and one that is over
is the whole run, so that a run has at most one end: its final state with the sequence of everything it returned
(R210). The spec marks this as derived from its other rules. The spec marks these as its own decisions: D33. -/
def Obligations.HaltedIsStableUnderTicks : Prop :=
  (∀ (s : State) (k : Nat), s.halted = true → s.pending = [] →
      Host.Core.run Sys2Proof.core (k + 1) s = .next { s with response := ⟨.ok, .actions [.halted]⟩ })
    ∧ (∀ (k : Nat) (s : State),
        let r := runPrefix k s
        r.returned.length ≤ k ∧ Host.Core.run Sys2Proof.core r.returned.length s = .next r.final
          ∧ (∀ i, i < r.returned.length → ∃ u v : State, Host.Core.run Sys2Proof.core i s = .next u
              ∧ u.halted = false ∧ step u = .next v ∧ r.returned[i]? = some v.response
              ∧ (runTrace r)[i]? = some (responseActions v.response, v.response.status))
          ∧ (r.returned.length < k → runOver r.final)
          ∧ (runOver r.final → ∀ m, runPrefix (k + m) s = r))
    ∧ ∀ (s f f' : State) (l l' : List Response), RunEnds s f l → RunEnds s f' l' → f = f' ∧ l = l'

/-- A non-zero frame written to a slot is sent by the next SINGLE on it, and not again by a second one until another
write (R64, R176). The spec marks these as its own decisions: D31, D39. -/
def Obligations.WrittenSlotIsSentOnce : Prop :=
  ∀ (s : State) (i : Index) (v : Frame) (d : BitVec 8), i.toNat < Config.params.frameSlots → v ≠ 0 →
    let waits : List Action := if d.toNat = 0 then [] else [.wait d]
    ∃ a b c : State, exec (.writeSlot i v) s = .next a ∧ exec (.single i d) a = .next b
      ∧ exec (.single i d) b = .next c
      ∧ b.response = ⟨.ok, .actions (.transmit v :: waits)⟩ ∧ c.response = ⟨.ok, .actions waits⟩
      ∧ (slotAt c i).raw = v
end

