-- ==== Sys2Proof/Laws/Numbers.lean ====
section
/-! SUPPORT. The model's arithmetic in the library's words: absolute value, maximum, clip, `Round` by cases, and the
checks of the encoder and decoder as the predicates of Safety. -/

namespace Sys2Proof.Machine

theorem absRat_eq_abs (q : Rat) : absRat q = |q| := by
  unfold absRat
  split
  · exact (abs_of_neg ‹_›).symm
  · exact (abs_of_nonneg (not_lt.1 ‹_›)).symm

theorem maxRat_eq_max (a b : Rat) : maxRat a b = max a b := by
  unfold maxRat
  split
  · exact (max_eq_right (le_of_lt ‹_›)).symm
  · exact (max_eq_left (not_lt.1 ‹_›)).symm

theorem minRat_eq_min (a b : Rat) : minRat a b = min a b := by
  unfold minRat
  split
  · exact (min_eq_right (le_of_lt ‹_›)).symm
  · exact (min_eq_left (not_lt.1 ‹_›)).symm

theorem clip_eq (v lo hi : Rat) : clip v lo hi = min (max v lo) hi := by
  rw [clip, minRat_eq_min, maxRat_eq_max]

theorem bnrMagnitude_eq (lo hi : Rat) : bnrMagnitude lo hi = max |lo| |hi| := by
  rw [bnrMagnitude, maxRat_eq_max, absRat_eq_abs, absRat_eq_abs]

@[simp] theorem pow2_eq (k : Nat) : pow2 k = 2 ^ k := by simp [pow2]

theorem bnrScale_eq (lo hi : Rat) (size : BitVec 8) : bnrScale lo hi size = max |lo| |hi| / 2 ^ size.toNat := by
  rw [bnrScale, bnrMagnitude_eq, pow2_eq]

/-- The integer and the fractional part `Round` looks at. -/
theorem floor_bounds (q : Rat) : (q.floor : Rat) ≤ q ∧ q < (q.floor : Rat) + 1 :=
  ⟨Rat.floor_le q, by have := Rat.lt_floor_add_one q; push_cast at this; exact this⟩

/-- `Round` gives the floor or its successor. -/
theorem roundRat_floor_or_succ (ties : RoundTies) (q : Rat) :
    roundRat ties q = q.floor ∨ roundRat ties q = q.floor + 1 := by
  unfold roundRat
  dsimp only
  split
  · exact .inl rfl
  · split
    · exact .inr rfl
    · cases ties <;> dsimp only <;> split <;> simp

theorem roundRat_nonneg (ties : RoundTies) {q : Rat} (hq : 0 ≤ q) : 0 ≤ roundRat ties q := by
  have h0 : 0 ≤ q.floor := by
    have h : ((-1 : Int) : Rat) < (q.floor : Rat) := by
      have := (floor_bounds q).2
      push_cast
      linarith
    have := Int.cast_lt.1 h
    omega
  rcases roundRat_floor_or_succ ties q with h | h <;> omega

/-- The shared checks of `ENC.*` pass exactly when `EncChecked` holds. -/
theorem encInput_eq_ok (f : Frame) (l z : BitVec 8) (mn mx ev : F64) (code : BitVec 3) (x : EncInput) :
    encInput ⟨f, l, z, mn, mx, ev, code⟩ = .ok x
      ↔ EncChecked l z mn mx ev code x.lo x.hi x.value x.intent := by
  unfold encInput EncChecked
  dsimp only
  rw [← show fieldOk l z = true ↔ FieldLegal l z by simp [fieldOk, FieldLegal, and_assoc]]
  obtain ⟨lo, hi, v, m⟩ := x
  split
  · rename_i hf
    cases ssmOfCode code with
    | none => simp
    | some m' =>
      cases f64Rat mn with
      | none => simp
      | some a =>
        cases f64Rat mx with
        | none => simp
        | some b =>
          cases f64Rat ev with
          | none => simp
          | some c =>
            dsimp only
            by_cases hlt : b < a
            · simp only [hlt, if_true, hf, true_and, Option.some.injEq, reduceCtorEq, false_iff]
              rintro ⟨-, rfl, rfl, -, h⟩
              exact absurd h (not_le.2 hlt)
            · simp only [hlt, if_false, hf, true_and, Option.some.injEq, Except.ok.injEq, EncInput.mk.injEq]
              constructor
              · rintro ⟨rfl, rfl, rfl, rfl⟩
                exact ⟨rfl, rfl, rfl, rfl, not_lt.1 hlt⟩
              · rintro ⟨rfl, rfl, rfl, rfl, -⟩
                exact ⟨rfl, rfl, rfl, rfl⟩
  · simp_all

/-- The shared checks of `ENC.*` fail with one error only. -/
theorem encInput_eq_error (o : EncOperands) (e : Status) (h : encInput o = .error e) : e = .invalidFieldSpec := by
  unfold encInput at h
  split at h
  · split at h
    · cases h; rfl
    · split at h
      · split at h
        · cases h; rfl
        · cases h
      · cases h; rfl
  · cases h; rfl

/-- The shared checks of `DEC.*` pass exactly when `DecChecked` holds. -/
theorem decRange_eq_ok (f : Frame) (l z : BitVec 8) (mn mx : F64) (d : BitVec 8) (lo hi : Rat) :
    decRange ⟨f, l, z, mn, mx, d⟩ = .ok (lo, hi) ↔ DecChecked l z mn mx lo hi := by
  unfold decRange DecChecked
  dsimp only
  rw [← show fieldOk l z = true ↔ FieldLegal l z by simp [fieldOk, FieldLegal, and_assoc]]
  split
  · rename_i hf
    cases f64Rat mn with
    | none => simp
    | some a =>
      cases f64Rat mx with
      | none => simp
      | some b =>
        dsimp only
        by_cases hlt : b < a
        · simp only [hlt, if_true, hf, true_and, Option.some.injEq, reduceCtorEq, false_iff]
          rintro ⟨rfl, rfl, h⟩
          exact absurd h (not_le.2 hlt)
        · simp only [hlt, if_false, hf, true_and, Option.some.injEq, Except.ok.injEq, Prod.mk.injEq]
          constructor
          · rintro ⟨rfl, rfl⟩
            exact ⟨rfl, rfl, not_lt.1 hlt⟩
          · rintro ⟨rfl, rfl, -⟩
            exact ⟨rfl, rfl⟩
  · simp_all

/-- The shared checks of `DEC.*` fail with one error only. -/
theorem decRange_eq_error (o : DecOperands) (e : Status) (h : decRange o = .error e) : e = .invalidFieldSpec := by
  unfold decRange at h
  split at h
  · split at h
    · split at h
      · cases h; rfl
      · cases h
    · cases h; rfl
  · cases h; rfl

end Sys2Proof.Machine
end

