-- ==== Sys2Proof/Laws/Binary64.lean ====
section
/-! SUPPORT. Binary64 patterns as magnitudes: what the quotient rounds to, what a pattern is worth in units of `2^-1074`,
and that the rounding of `f64Of` keeps below the infinity. -/

namespace Sys2Proof.Machine

/-! ## The rounded quotient -/

/-- The rounded quotient is a nearest natural, and the even one where two are equally near. -/
theorem divRoundEven_spec (n : Nat) {d : Nat} (hd : 0 < d) :
    |(divRoundEven n d : Rat) - n / d| ≤ 1 / 2
      ∧ (|(divRoundEven n d : Rat) - n / d| = 1 / 2 → divRoundEven n d % 2 = 0) := by
  have hd' : (0 : Rat) < d := by exact_mod_cast hd
  have hq : (n : Rat) / d = (n / d : Nat) + ((n % d : Nat) : Rat) / d := by
    rw [eq_comm, ← eq_sub_iff_add_eq', eq_comm, sub_eq_iff_eq_add, div_add' _ _ _ hd'.ne']
    congr 1
    have h := Nat.mod_add_div n d
    have h' : ((n % d : Nat) : Rat) + (d : Rat) * ((n / d : Nat) : Rat) = (n : Rat) := by exact_mod_cast h
    rw [← h']; ring
  have hr0 : (0 : Rat) ≤ ((n % d : Nat) : Rat) / d := by positivity
  unfold divRoundEven
  split
  · rename_i h
    have hlt : ((n % d : Nat) : Rat) / d < 1 / 2 := by
      rw [div_lt_iff₀ hd']
      have : (2 : Rat) * ((n % d : Nat) : Rat) < d := by exact_mod_cast h
      linarith
    rw [hq, sub_add_cancel_left, abs_neg, abs_of_nonneg hr0]
    exact ⟨hlt.le, fun e => absurd e hlt.ne⟩
  · split
    · rename_i h
      have hgt : 1 / 2 < ((n % d : Nat) : Rat) / d := by
        rw [lt_div_iff₀ hd']
        have : (d : Rat) < 2 * ((n % d : Nat) : Rat) := by exact_mod_cast h
        linarith
      have hlt : ((n % d : Nat) : Rat) / d < 1 := by
        rw [div_lt_one hd']; exact_mod_cast Nat.mod_lt n hd
      have e : (((n / d + 1 : Nat) : Rat)) - n / d = 1 - ((n % d : Nat) : Rat) / d := by rw [hq]; push_cast; ring
      rw [e, abs_of_nonneg (by linarith)]
      exact ⟨by linarith, fun e' => absurd e' (by linarith)⟩
    · have h : 2 * (n % d) = d := by omega
      have hh : ((n % d : Nat) : Rat) / d = 1 / 2 := by
        rw [div_eq_iff hd'.ne']
        have : (2 : Rat) * ((n % d : Nat) : Rat) = d := by exact_mod_cast h
        linarith
      refine ⟨?_, fun _ => by omega⟩
      rcases Nat.mod_two_eq_zero_or_one (n / d) with h2 | h2
      · rw [h2, Nat.add_zero, hq, hh, sub_add_cancel_left, abs_neg, abs_of_pos (by norm_num)]
      · rw [h2, hq, hh]; push_cast; rw [show ((n / d : Nat) : Rat) + 1 - (((n / d : Nat) : Rat) + 1 / 2) = 1 / 2 by ring,
          abs_of_pos (by norm_num)]

/-- The rounded quotient keeps an upper bound that is a whole number. -/
theorem divRoundEven_le {n d b : Nat} (hd : 0 < d) (h : n ≤ b * d) : divRoundEven n d ≤ b := by
  have h1 := Nat.mod_add_div n d
  have h2 := Nat.mod_lt n hd
  have h3 : n / d ≤ b := Nat.div_le_of_le_mul (by rwa [Nat.mul_comm] at h)
  have h4 : n / d = b → n % d = 0 := by
    intro e; rw [e, Nat.mul_comm] at h1; omega
  unfold divRoundEven
  split
  · exact h3
  · rcases Nat.lt_or_ge (n / d) b with h5 | h5
    · split <;> omega
    · have := h4 (by omega); split <;> omega

/-- The rounded quotient keeps a lower bound that is a whole number. -/
theorem le_divRoundEven {n d b : Nat} (hd : 0 < d) (h : b * d ≤ n) : b ≤ divRoundEven n d := by
  have h3 : b ≤ n / d := (Nat.le_div_iff_mul_le hd).2 h
  unfold divRoundEven
  split
  · exact h3
  · split <;> omega

/-! ## What a pattern is worth -/

/-- The worth of the magnitude bits of a finite binary64, in units of `2^-1074`. -/
def f64Units (m : Nat) : Nat := if m / 2 ^ 52 = 0 then m % 2 ^ 52 else (2 ^ 52 + m % 2 ^ 52) * 2 ^ (m / 2 ^ 52 - 1)

theorem f64Units_of_lt {m : Nat} (h : m < 2 ^ 52) : f64Units m = m := by
  unfold f64Units; rw [if_pos (Nat.div_eq_of_lt h), Nat.mod_eq_of_lt h]

theorem f64Units_of_ge {m : Nat} (h : 2 ^ 52 ≤ m) :
    f64Units m = (2 ^ 52 + m % 2 ^ 52) * 2 ^ (m / 2 ^ 52 - 1) := by
  unfold f64Units; rw [if_neg (by omega)]

/-- `r` places of `2^s` units: the magnitude bits `f64Of` lays out. -/
theorem f64Units_layout {s r : Nat} (hr : r ≤ 2 ^ 53) (h : 2 ^ 52 ≤ r ∨ s = 0) :
    f64Units (s * 2 ^ 52 + r) = r * 2 ^ s := by
  rcases Nat.lt_or_ge r (2 ^ 52) with h1 | h1
  · obtain rfl : s = 0 := by omega
    rw [Nat.zero_mul, Nat.zero_add, f64Units_of_lt h1, Nat.pow_zero, Nat.mul_one]
  · rw [f64Units_of_ge (by omega)]
    rcases Nat.lt_or_ge r (2 ^ 53) with h2 | h2
    · rw [show (s * 2 ^ 52 + r) % 2 ^ 52 = r - 2 ^ 52 by omega, show (s * 2 ^ 52 + r) / 2 ^ 52 - 1 = s by omega,
        show 2 ^ 52 + (r - 2 ^ 52) = r by omega]
    · obtain rfl : r = 2 ^ 53 := by omega
      rw [show (s * 2 ^ 52 + 2 ^ 53) % 2 ^ 52 = 0 by omega, show (s * 2 ^ 52 + 2 ^ 53) / 2 ^ 52 - 1 = s + 1 by omega,
        Nat.pow_succ]
      omega

/-- A finite pattern is worth at most the largest finite one. -/
theorem f64Units_le {m : Nat} (h : m < 0x7FF0000000000000) : f64Units m ≤ (2 ^ 53 - 1) * 2 ^ 2045 := by
  rcases Nat.lt_or_ge m (2 ^ 52) with h1 | h1
  · rw [f64Units_of_lt h1]
    calc m ≤ (2 ^ 53 - 1) * 1 := by omega
      _ ≤ _ := Nat.mul_le_mul_left _ (Nat.two_pow_pos _)
  · rw [f64Units_of_ge h1]
    exact Nat.mul_le_mul (by omega) (Nat.pow_le_pow_right (by omega) (by omega))

/-- Every pattern worth `2^(52+s)` units or more is worth a multiple of `2^s` units. -/
theorem f64Units_multiple {m s : Nat} (h : 2 ^ (52 + s) ≤ f64Units m) : ∃ c, f64Units m = c * 2 ^ s := by
  rcases Nat.lt_or_ge m (2 ^ 52) with h1 | h1
  · rw [f64Units_of_lt h1] at h ⊢
    have : 2 ^ 52 ≤ 2 ^ (52 + s) := Nat.pow_le_pow_right (by omega) (by omega)
    omega
  · rw [f64Units_of_ge h1] at h ⊢
    have hs : s ≤ m / 2 ^ 52 - 1 := by
      by_contra hc
      have h2 : 2 ^ (m / 2 ^ 52 - 1 + 1) ≤ 2 ^ s := Nat.pow_le_pow_right (by omega) (by omega)
      have h3 : (2 ^ 52 + m % 2 ^ 52) * 2 ^ (m / 2 ^ 52 - 1) < 2 ^ 53 * 2 ^ (m / 2 ^ 52 - 1) :=
        Nat.mul_lt_mul_of_pos_right (by omega) (Nat.two_pow_pos _)
      have h4 : 2 ^ 53 * 2 ^ (m / 2 ^ 52 - 1) = 2 ^ 52 * 2 ^ (m / 2 ^ 52 - 1 + 1) := by rw [Nat.pow_succ]; omega
      have h5 : 2 ^ 52 * 2 ^ (m / 2 ^ 52 - 1 + 1) ≤ 2 ^ 52 * 2 ^ s := Nat.mul_le_mul_left _ h2
      rw [Nat.pow_add] at h
      omega
    refine ⟨(2 ^ 52 + m % 2 ^ 52) * 2 ^ (m / 2 ^ 52 - 1 - s), ?_⟩
    rw [Nat.mul_assoc, ← Nat.pow_add, show m / 2 ^ 52 - 1 - s + s = m / 2 ^ 52 - 1 by omega]

/-- A binary64 operand: refused above the last finite magnitude, else its sign and the worth of its magnitude. -/
theorem f64Rat_eq (b : F64) :
    f64Rat b = if 0x7FF0000000000000 ≤ b.toNat % 2 ^ 63 then none
      else some ((if b.msb then -1 else 1) * ((f64Units (b.toNat % 2 ^ 63) : Nat) : Rat) / 2 ^ 1074) := by
  have he : (b.extractLsb' 52 11).toNat = b.toNat % 2 ^ 63 / 2 ^ 52 := by
    rw [BitVec.extractLsb'_toNat, Nat.shiftRight_eq_div_pow]; omega
  have hm : (b.extractLsb' 0 52).toNat = b.toNat % 2 ^ 63 % 2 ^ 52 := by
    rw [BitVec.extractLsb'_toNat, Nat.shiftRight_zero]; omega
  unfold f64Rat
  rw [he, hm]
  generalize hk : b.toNat % 2 ^ 63 = k
  have hk63 : k < 2 ^ 63 := hk ▸ Nat.mod_lt _ (Nat.two_pow_pos _)
  dsimp only
  by_cases h : 0x7FF0000000000000 ≤ k
  · rw [if_pos (by omega), if_pos h]
  · rw [if_neg (by omega), if_neg h]
    congr 1
    have hv : (if k / 2 ^ 52 = 0 then ((k % 2 ^ 52 : Nat) : Rat) / pow2 1074
        else (((2 ^ 52 + k % 2 ^ 52) * 2 ^ (k / 2 ^ 52) : Nat) : Rat) / pow2 1075) = (f64Units k : Rat) / 2 ^ 1074 := by
      unfold f64Units
      rw [pow2_eq, pow2_eq]
      split
      · rfl
      · obtain ⟨e, he⟩ : ∃ e, k / 2 ^ 52 = e + 1 := ⟨k / 2 ^ 52 - 1, by omega⟩
        generalize 2 ^ 52 + k % 2 ^ 52 = c
        rw [he, Nat.add_sub_cancel, pow_succ 2 e, ← Nat.mul_assoc, Nat.cast_mul, pow_succ (2 : Rat) 1074, Nat.cast_ofNat,
          mul_div_mul_right _ _ two_ne_zero]
    rw [hv]
    split <;> ring

/-! ## The pattern `f64Of` lays out -/

theorem pred_two_pow_mul_two_pow_lt (a b : Nat) : (2 ^ a - 1) * 2 ^ b < 2 ^ (a + b) := by
  rw [Nat.pow_add]
  exact Nat.mul_lt_mul_of_pos_right (Nat.sub_lt (Nat.two_pow_pos a) Nat.one_pos) (Nat.two_pow_pos b)

/-- A magnitude worth no more than the largest finite binary64 is laid out as a finite pattern. -/
theorem f64Magnitude_lt {n d : Nat} (hd : 0 < d) (h : n * 2 ^ 1074 ≤ (2 ^ 53 - 1) * 2 ^ 2045 * d) :
    f64Magnitude n d < 0x7FF0000000000000 := by
  unfold f64Magnitude
  dsimp only
  generalize hu : n * 2 ^ 1074 = u at h ⊢
  refine lt_of_le_of_lt (min_le_left _ _) ?_
  have hlog : (u / d).log2 < 53 + 2045 := by
    rcases Nat.eq_zero_or_pos (u / d) with h0 | h0
    · rw [h0]; decide
    · rw [Nat.log2_lt (by omega)]
      exact lt_of_le_of_lt (Nat.div_le_of_le_mul (by rwa [Nat.mul_comm] at h)) (pred_two_pow_mul_two_pow_lt 53 2045)
  generalize hs : (u / d).log2 - 52 = s
  have hs' : s ≤ 2045 := by omega
  have hb : u < 2 ^ 53 * (d * 2 ^ s) := by
    have h1 : u / d < 2 ^ ((u / d).log2 + 1) := Nat.lt_log2_self
    have h2 : 2 ^ ((u / d).log2 + 1) ≤ 2 ^ (53 + s) := Nat.pow_le_pow_right (by omega) (by omega)
    have h3 : u < 2 ^ (53 + s) * d := (Nat.div_lt_iff_lt_mul hd).1 (lt_of_lt_of_le h1 h2)
    rwa [Nat.pow_add, Nat.mul_assoc, Nat.mul_comm _ d] at h3
  have hds : 0 < d * 2 ^ s := Nat.mul_pos hd (Nat.two_pow_pos _)
  rcases Nat.lt_or_ge s 2045 with h5 | h5
  · have := divRoundEven_le (b := 2 ^ 53) hds hb.le
    omega
  · obtain rfl : s = 2045 := by omega
    have : divRoundEven u (d * 2 ^ 2045) ≤ 2 ^ 53 - 1 := by
      refine divRoundEven_le hds ?_
      rwa [Nat.mul_assoc, Nat.mul_comm (2 ^ 2045)] at h
    omega

theorem f64Magnitude_le (n d : Nat) : f64Magnitude n d ≤ 0x7FF0000000000000 := min_le_right _ _

theorem toNat_f64Of (q : Rat) :
    (f64Of q).toNat = if q.num < 0 then 2 ^ 63 + f64Magnitude q.num.natAbs q.den
      else f64Magnitude q.num.natAbs q.den := by
  have h := f64Magnitude_le q.num.natAbs q.den
  unfold f64Of
  dsimp only
  rw [BitVec.toNat_ofNat, Nat.mod_eq_of_lt (by split <;> omega)]

/-- The magnitude bits of the port. -/
theorem f64Of_magnitude (q : Rat) : (f64Of q).toNat % 2 ^ 63 = f64Magnitude q.num.natAbs q.den := by
  have h := f64Magnitude_le q.num.natAbs q.den
  rw [toNat_f64Of]
  split <;> omega

/-- The sign bit of the port. -/
theorem f64Of_msb (q : Rat) : (f64Of q).msb = decide (q < 0) := by
  have h := f64Magnitude_le q.num.natAbs q.den
  rw [BitVec.msb_eq_decide, toNat_f64Of]
  by_cases hq : q.num < 0
  · rw [if_pos hq, decide_eq_true (Rat.num_neg.1 hq), decide_eq_true (by omega)]
  · rw [if_neg hq, decide_eq_false fun hc => hq (Rat.num_neg.2 hc), decide_eq_false (by omega)]

end Sys2Proof.Machine
end

