-- ==== Sys2Proof/Laws/State.lean ====
section
/-! SUPPORT. What each update of one field of State leaves in each field: true by rfl, for simp. -/

namespace Sys2Proof.Machine

@[simp] theorem setPc_pc (v : Index) (s : State) : (setPc v s).pc = v := rfl
@[simp] theorem setPc_ret (v : Index) (s : State) : (setPc v s).ret = s.ret := rfl
@[simp] theorem setPc_halted (v : Index) (s : State) : (setPc v s).halted = s.halted := rfl
@[simp] theorem setPc_cancel (v : Index) (s : State) : (setPc v s).cancel = s.cancel := rfl
@[simp] theorem setPc_jobs (v : Index) (s : State) : (setPc v s).jobs = s.jobs := rfl
@[simp] theorem setPc_slots (v : Index) (s : State) : (setPc v s).slots = s.slots := rfl
@[simp] theorem setPc_rx1 (v : Index) (s : State) : (setPc v s).rx1 = s.rx1 := rfl
@[simp] theorem setPc_rx2 (v : Index) (s : State) : (setPc v s).rx2 = s.rx2 := rfl
@[simp] theorem setPc_response (v : Index) (s : State) : (setPc v s).response = s.response := rfl
@[simp] theorem setPc_pending (v : Index) (s : State) : (setPc v s).pending = s.pending := rfl

@[simp] theorem setRet_pc (v : Option Index) (s : State) : (setRet v s).pc = s.pc := rfl
@[simp] theorem setRet_ret (v : Option Index) (s : State) : (setRet v s).ret = v := rfl
@[simp] theorem setRet_halted (v : Option Index) (s : State) : (setRet v s).halted = s.halted := rfl
@[simp] theorem setRet_cancel (v : Option Index) (s : State) : (setRet v s).cancel = s.cancel := rfl
@[simp] theorem setRet_jobs (v : Option Index) (s : State) : (setRet v s).jobs = s.jobs := rfl
@[simp] theorem setRet_slots (v : Option Index) (s : State) : (setRet v s).slots = s.slots := rfl
@[simp] theorem setRet_rx1 (v : Option Index) (s : State) : (setRet v s).rx1 = s.rx1 := rfl
@[simp] theorem setRet_rx2 (v : Option Index) (s : State) : (setRet v s).rx2 = s.rx2 := rfl
@[simp] theorem setRet_response (v : Option Index) (s : State) : (setRet v s).response = s.response := rfl
@[simp] theorem setRet_pending (v : Option Index) (s : State) : (setRet v s).pending = s.pending := rfl

@[simp] theorem setHalted_pc (v : Bool) (s : State) : (setHalted v s).pc = s.pc := rfl
@[simp] theorem setHalted_ret (v : Bool) (s : State) : (setHalted v s).ret = s.ret := rfl
@[simp] theorem setHalted_halted (v : Bool) (s : State) : (setHalted v s).halted = v := rfl
@[simp] theorem setHalted_cancel (v : Bool) (s : State) : (setHalted v s).cancel = s.cancel := rfl
@[simp] theorem setHalted_jobs (v : Bool) (s : State) : (setHalted v s).jobs = s.jobs := rfl
@[simp] theorem setHalted_slots (v : Bool) (s : State) : (setHalted v s).slots = s.slots := rfl
@[simp] theorem setHalted_rx1 (v : Bool) (s : State) : (setHalted v s).rx1 = s.rx1 := rfl
@[simp] theorem setHalted_rx2 (v : Bool) (s : State) : (setHalted v s).rx2 = s.rx2 := rfl
@[simp] theorem setHalted_response (v : Bool) (s : State) : (setHalted v s).response = s.response := rfl
@[simp] theorem setHalted_pending (v : Bool) (s : State) : (setHalted v s).pending = s.pending := rfl

@[simp] theorem setCancel_pc (v : Bool) (s : State) : (setCancel v s).pc = s.pc := rfl
@[simp] theorem setCancel_ret (v : Bool) (s : State) : (setCancel v s).ret = s.ret := rfl
@[simp] theorem setCancel_halted (v : Bool) (s : State) : (setCancel v s).halted = s.halted := rfl
@[simp] theorem setCancel_cancel (v : Bool) (s : State) : (setCancel v s).cancel = v := rfl
@[simp] theorem setCancel_jobs (v : Bool) (s : State) : (setCancel v s).jobs = s.jobs := rfl
@[simp] theorem setCancel_slots (v : Bool) (s : State) : (setCancel v s).slots = s.slots := rfl
@[simp] theorem setCancel_rx1 (v : Bool) (s : State) : (setCancel v s).rx1 = s.rx1 := rfl
@[simp] theorem setCancel_rx2 (v : Bool) (s : State) : (setCancel v s).rx2 = s.rx2 := rfl
@[simp] theorem setCancel_response (v : Bool) (s : State) : (setCancel v s).response = s.response := rfl
@[simp] theorem setCancel_pending (v : Bool) (s : State) : (setCancel v s).pending = s.pending := rfl

@[simp] theorem setJobs_pc (v : Table Job) (s : State) : (setJobs v s).pc = s.pc := rfl
@[simp] theorem setJobs_ret (v : Table Job) (s : State) : (setJobs v s).ret = s.ret := rfl
@[simp] theorem setJobs_halted (v : Table Job) (s : State) : (setJobs v s).halted = s.halted := rfl
@[simp] theorem setJobs_cancel (v : Table Job) (s : State) : (setJobs v s).cancel = s.cancel := rfl
@[simp] theorem setJobs_jobs (v : Table Job) (s : State) : (setJobs v s).jobs = v := rfl
@[simp] theorem setJobs_slots (v : Table Job) (s : State) : (setJobs v s).slots = s.slots := rfl
@[simp] theorem setJobs_rx1 (v : Table Job) (s : State) : (setJobs v s).rx1 = s.rx1 := rfl
@[simp] theorem setJobs_rx2 (v : Table Job) (s : State) : (setJobs v s).rx2 = s.rx2 := rfl
@[simp] theorem setJobs_response (v : Table Job) (s : State) : (setJobs v s).response = s.response := rfl
@[simp] theorem setJobs_pending (v : Table Job) (s : State) : (setJobs v s).pending = s.pending := rfl

@[simp] theorem setSlots_pc (v : Table SlotEntry) (s : State) : (setSlots v s).pc = s.pc := rfl
@[simp] theorem setSlots_ret (v : Table SlotEntry) (s : State) : (setSlots v s).ret = s.ret := rfl
@[simp] theorem setSlots_halted (v : Table SlotEntry) (s : State) : (setSlots v s).halted = s.halted := rfl
@[simp] theorem setSlots_cancel (v : Table SlotEntry) (s : State) : (setSlots v s).cancel = s.cancel := rfl
@[simp] theorem setSlots_jobs (v : Table SlotEntry) (s : State) : (setSlots v s).jobs = s.jobs := rfl
@[simp] theorem setSlots_slots (v : Table SlotEntry) (s : State) : (setSlots v s).slots = v := rfl
@[simp] theorem setSlots_rx1 (v : Table SlotEntry) (s : State) : (setSlots v s).rx1 = s.rx1 := rfl
@[simp] theorem setSlots_rx2 (v : Table SlotEntry) (s : State) : (setSlots v s).rx2 = s.rx2 := rfl
@[simp] theorem setSlots_response (v : Table SlotEntry) (s : State) : (setSlots v s).response = s.response := rfl
@[simp] theorem setSlots_pending (v : Table SlotEntry) (s : State) : (setSlots v s).pending = s.pending := rfl

@[simp] theorem setRx1_pc (v : Table RxEntry) (s : State) : (setRx1 v s).pc = s.pc := rfl
@[simp] theorem setRx1_ret (v : Table RxEntry) (s : State) : (setRx1 v s).ret = s.ret := rfl
@[simp] theorem setRx1_halted (v : Table RxEntry) (s : State) : (setRx1 v s).halted = s.halted := rfl
@[simp] theorem setRx1_cancel (v : Table RxEntry) (s : State) : (setRx1 v s).cancel = s.cancel := rfl
@[simp] theorem setRx1_jobs (v : Table RxEntry) (s : State) : (setRx1 v s).jobs = s.jobs := rfl
@[simp] theorem setRx1_slots (v : Table RxEntry) (s : State) : (setRx1 v s).slots = s.slots := rfl
@[simp] theorem setRx1_rx1 (v : Table RxEntry) (s : State) : (setRx1 v s).rx1 = v := rfl
@[simp] theorem setRx1_rx2 (v : Table RxEntry) (s : State) : (setRx1 v s).rx2 = s.rx2 := rfl
@[simp] theorem setRx1_response (v : Table RxEntry) (s : State) : (setRx1 v s).response = s.response := rfl
@[simp] theorem setRx1_pending (v : Table RxEntry) (s : State) : (setRx1 v s).pending = s.pending := rfl

@[simp] theorem setRx2_pc (v : Table RxEntry) (s : State) : (setRx2 v s).pc = s.pc := rfl
@[simp] theorem setRx2_ret (v : Table RxEntry) (s : State) : (setRx2 v s).ret = s.ret := rfl
@[simp] theorem setRx2_halted (v : Table RxEntry) (s : State) : (setRx2 v s).halted = s.halted := rfl
@[simp] theorem setRx2_cancel (v : Table RxEntry) (s : State) : (setRx2 v s).cancel = s.cancel := rfl
@[simp] theorem setRx2_jobs (v : Table RxEntry) (s : State) : (setRx2 v s).jobs = s.jobs := rfl
@[simp] theorem setRx2_slots (v : Table RxEntry) (s : State) : (setRx2 v s).slots = s.slots := rfl
@[simp] theorem setRx2_rx1 (v : Table RxEntry) (s : State) : (setRx2 v s).rx1 = s.rx1 := rfl
@[simp] theorem setRx2_rx2 (v : Table RxEntry) (s : State) : (setRx2 v s).rx2 = v := rfl
@[simp] theorem setRx2_response (v : Table RxEntry) (s : State) : (setRx2 v s).response = s.response := rfl
@[simp] theorem setRx2_pending (v : Table RxEntry) (s : State) : (setRx2 v s).pending = s.pending := rfl

@[simp] theorem setPending_pc (v : List Request) (s : State) : (setPending v s).pc = s.pc := rfl
@[simp] theorem setPending_ret (v : List Request) (s : State) : (setPending v s).ret = s.ret := rfl
@[simp] theorem setPending_halted (v : List Request) (s : State) : (setPending v s).halted = s.halted := rfl
@[simp] theorem setPending_cancel (v : List Request) (s : State) : (setPending v s).cancel = s.cancel := rfl
@[simp] theorem setPending_jobs (v : List Request) (s : State) : (setPending v s).jobs = s.jobs := rfl
@[simp] theorem setPending_slots (v : List Request) (s : State) : (setPending v s).slots = s.slots := rfl
@[simp] theorem setPending_rx1 (v : List Request) (s : State) : (setPending v s).rx1 = s.rx1 := rfl
@[simp] theorem setPending_rx2 (v : List Request) (s : State) : (setPending v s).rx2 = s.rx2 := rfl
@[simp] theorem setPending_response (v : List Request) (s : State) : (setPending v s).response = s.response := rfl
@[simp] theorem setPending_pending (v : List Request) (s : State) : (setPending v s).pending = v := rfl

@[simp] theorem respond_pc (st : Status) (r : Result) (s : State) : (respond st r s).pc = s.pc := rfl
@[simp] theorem respond_ret (st : Status) (r : Result) (s : State) : (respond st r s).ret = s.ret := rfl
@[simp] theorem respond_halted (st : Status) (r : Result) (s : State) : (respond st r s).halted = s.halted := rfl
@[simp] theorem respond_cancel (st : Status) (r : Result) (s : State) : (respond st r s).cancel = s.cancel := rfl
@[simp] theorem respond_jobs (st : Status) (r : Result) (s : State) : (respond st r s).jobs = s.jobs := rfl
@[simp] theorem respond_slots (st : Status) (r : Result) (s : State) : (respond st r s).slots = s.slots := rfl
@[simp] theorem respond_rx1 (st : Status) (r : Result) (s : State) : (respond st r s).rx1 = s.rx1 := rfl
@[simp] theorem respond_rx2 (st : Status) (r : Result) (s : State) : (respond st r s).rx2 = s.rx2 := rfl
@[simp] theorem respond_response (st : Status) (r : Result) (s : State) : (respond st r s).response = ⟨st, r⟩ := rfl
@[simp] theorem respond_pending (st : Status) (r : Result) (s : State) : (respond st r s).pending = s.pending := rfl

@[simp] theorem respond_respond (st st' : Status) (r r' : Result) (s : State) :
    respond st r (respond st' r' s) = respond st r s := rfl

end Sys2Proof.Machine
end

