-- ==== Sys2Proof/Laws/Tables.lean ====
section
/-! SUPPORT. What a table reads after each table operation, and that each keeps the canonical form. -/

namespace Sys2Proof.Machine

variable {α : Type}

/-! ## Reads -/

@[simp] theorem tableFind_nil (i : Nat) : tableFind ([] : Table α) i = none := rfl

@[simp] theorem tableFind_insert_same (t : Table α) (i : Nat) (v : α) : tableFind (tableInsert t i v) i = some v := by
  induction t with
  | nil => simp [tableInsert, tableFind]
  | cons e t ih =>
    obtain ⟨k, w⟩ := e
    unfold tableInsert
    split
    · simp [tableFind]
    · split
      · simp [tableFind]
      · rename_i h; simp [tableFind, h, ih]

theorem tableFind_insert_other (t : Table α) (i j : Nat) (v : α) (h : j ≠ i) :
    tableFind (tableInsert t i v) j = tableFind t j := by
  induction t with
  | nil => simp [tableInsert, tableFind, h]
  | cons e t ih =>
    obtain ⟨k, w⟩ := e
    unfold tableInsert
    split
    · simp [tableFind, h]
    · split
      · rename_i hk; subst hk; simp [tableFind, h]
      · simp [tableFind, ih]

theorem tableFind_eraseRange (t : Table α) (first last i : Nat) :
    tableFind (tableEraseRange first last t) i = if first ≤ i ∧ i ≤ last then none else tableFind t i := by
  induction t with
  | nil => simp [tableEraseRange]
  | cons e t ih =>
    obtain ⟨k, w⟩ := e
    by_cases hk : first ≤ k ∧ k ≤ last <;> by_cases hi : i = k
    · subst hi; simp [tableEraseRange, hk, ih]
    · simp [tableEraseRange, hk, ih, tableFind, hi]
    · subst hi; simp [tableEraseRange, hk, tableFind]
    · simp [tableEraseRange, hk, ih, tableFind, hi]

variable [DecidableEq α]

@[simp] theorem tableFind_write_same (dflt : α) (t : Table α) (i : Nat) (v : α) :
    (tableFind (tableWrite dflt t i v) i).getD dflt = v := by
  unfold tableWrite
  split
  · rename_i h; simp [tableFind_eraseRange, h]
  · simp

theorem tableFind_write_other (dflt : α) (t : Table α) (i j : Nat) (v : α) (h : j ≠ i) :
    tableFind (tableWrite dflt t i v) j = tableFind t j := by
  unfold tableWrite
  split
  · rw [tableFind_eraseRange, if_neg (by omega)]
  · exact tableFind_insert_other t i j v h

omit [DecidableEq α]

/-! ## The canonical form -/

theorem tableRising_mono {lo lo' : Nat} (h : lo' ≤ lo) {t : Table α} (ht : tableRising lo t = true) :
    tableRising lo' t = true := by
  cases t with
  | nil => rfl
  | cons e t => simp only [tableRising, Bool.and_eq_true, decide_eq_true_eq] at ht ⊢; exact ⟨by omega, ht.2⟩

theorem tableRising_insert {lo i : Nat} (hi : lo ≤ i) {t : Table α} (v : α) (ht : tableRising lo t = true) :
    tableRising lo (tableInsert t i v) = true := by
  induction t generalizing lo with
  | nil => simp [tableInsert, tableRising, hi]
  | cons e t ih =>
    obtain ⟨k, w⟩ := e
    simp only [tableRising, Bool.and_eq_true, decide_eq_true_eq] at ht
    unfold tableInsert
    split
    · simp only [tableRising, Bool.and_eq_true, decide_eq_true_eq]; exact ⟨hi, by omega, ht.2⟩
    · split
      · rename_i h; subst h; simp only [tableRising, Bool.and_eq_true, decide_eq_true_eq]; exact ⟨hi, ht.2⟩
      · simp only [tableRising, Bool.and_eq_true, decide_eq_true_eq]; exact ⟨ht.1, ih (by omega) ht.2⟩

theorem tableRising_eraseRange {lo : Nat} (first last : Nat) {t : Table α} (ht : tableRising lo t = true) :
    tableRising lo (tableEraseRange first last t) = true := by
  induction t generalizing lo with
  | nil => rfl
  | cons e t ih =>
    obtain ⟨k, w⟩ := e
    simp only [tableRising, Bool.and_eq_true, decide_eq_true_eq] at ht
    unfold tableEraseRange
    split
    · exact ih (tableRising_mono (by omega) ht.2)
    · simp only [tableRising, Bool.and_eq_true, decide_eq_true_eq]; exact ⟨ht.1, ih ht.2⟩

theorem all_tableInsert {P : Nat × α → Bool} {t : Table α} {i : Nat} {v : α} (ht : t.all P = true)
    (hv : P (i, v) = true) : (tableInsert t i v).all P = true := by
  induction t with
  | nil => simp [tableInsert, hv]
  | cons e t ih =>
    obtain ⟨k, w⟩ := e
    simp only [List.all_cons, Bool.and_eq_true] at ht
    unfold tableInsert
    split
    · simp only [List.all_cons, hv, ht.1, ht.2, Bool.and_self]
    · split <;> simp only [List.all_cons, hv, ht.1, ht.2, ih ht.2, Bool.and_self]

theorem all_tableEraseRange {P : Nat × α → Bool} {t : Table α} (first last : Nat) (ht : t.all P = true) :
    (tableEraseRange first last t).all P = true := by
  induction t with
  | nil => rfl
  | cons e t ih =>
    obtain ⟨k, w⟩ := e
    simp only [List.all_cons, Bool.and_eq_true] at ht
    unfold tableEraseRange
    split
    · exact ih ht.2
    · simp only [List.all_cons, ht.1, ih ht.2, Bool.and_self]

@[simp] theorem tableWf_nil (bound : Nat) (ok : α → Bool) : tableWf bound ok ([] : Table α) = true := rfl

theorem tableWf_insert {bound i : Nat} {ok : α → Bool} {t : Table α} {v : α} (ht : tableWf bound ok t = true)
    (hi : i < bound) (hv : ok v = true) : tableWf bound ok (tableInsert t i v) = true := by
  simp only [tableWf, Bool.and_eq_true] at ht ⊢
  exact ⟨tableRising_insert (Nat.zero_le i) v ht.1, all_tableInsert ht.2 (by simp [hi, hv])⟩

theorem tableWf_eraseRange {bound : Nat} {ok : α → Bool} {t : Table α} (first last : Nat)
    (ht : tableWf bound ok t = true) : tableWf bound ok (tableEraseRange first last t) = true := by
  simp only [tableWf, Bool.and_eq_true] at ht ⊢
  exact ⟨tableRising_eraseRange first last ht.1, all_tableEraseRange first last ht.2⟩

theorem tableWf_write [DecidableEq α] {bound i : Nat} {dflt : α} {t : Table α} (v : α)
    (ht : tableWf bound (fun e => e != dflt) t = true) (hi : i < bound) :
    tableWf bound (fun e => e != dflt) (tableWrite dflt t i v) = true := by
  unfold tableWrite
  split
  · exact tableWf_eraseRange i i ht
  · rename_i h; exact tableWf_insert ht hi (by simp [h])

/-- A listed entry of a canonical table stands inside the bound and passes the test. -/
theorem tableWf_find {bound i : Nat} {ok : α → Bool} {t : Table α} {v : α} (ht : tableWf bound ok t = true)
    (hf : tableFind t i = some v) : i < bound ∧ ok v = true := by
  simp only [tableWf, Bool.and_eq_true] at ht
  have h := ht.2
  clear ht
  induction t with
  | nil => simp at hf
  | cons e t ih =>
    obtain ⟨k, w⟩ := e
    simp only [List.all_cons, Bool.and_eq_true, decide_eq_true_eq] at h
    simp only [tableFind] at hf
    split at hf
    · rename_i hk; cases hf; subst hk; exact h.1
    · exact ih hf h.2

end Sys2Proof.Machine
end

