-- ==== Sys2Proof/Laws/Memory.lean ====
section
/-! SUPPORT. The tables of the block: what each write leaves at each index, and that every memory operation keeps the
canonical form `Memory.wf`. -/

namespace Sys2Proof.Machine

/-! ## Read after write -/

@[simp] theorem jobAt_writeJobSlot_same (i : Index) (j : Job) (s : State) : jobAt (writeJobSlot i j s) i = some j := by
  simp [jobAt, writeJobSlot]

theorem jobAt_writeJobSlot_other {i k : Index} (h : k ≠ i) (j : Job) (s : State) :
    jobAt (writeJobSlot i j s) k = jobAt s k :=
  tableFind_insert_other _ _ _ _ fun e => h (BitVec.eq_of_toNat_eq e)

theorem jobAt_clearJobSlots (first last k : Index) (s : State) :
    jobAt (clearJobSlots first last s) k
      = if first.toNat ≤ k.toNat ∧ k.toNat ≤ last.toNat then none else jobAt s k :=
  tableFind_eraseRange _ _ _ _

@[simp] theorem slotAt_writeSlotEntry_same (i : Index) (e : SlotEntry) (s : State) :
    slotAt (writeSlotEntry i e s) i = e := by
  simp [slotAt, writeSlotEntry]

theorem slotAt_writeSlotEntry_other {i k : Index} (h : k ≠ i) (e : SlotEntry) (s : State) :
    slotAt (writeSlotEntry i e s) k = slotAt s k := by
  simp only [slotAt, writeSlotEntry, setSlots_slots]
  rw [tableFind_write_other _ _ _ _ _ fun e => h (BitVec.eq_of_toNat_eq e)]

@[simp] theorem rxAt_writeRxEntry_same (c : RxChannel) (e : Nat) (x : RxEntry) (s : State) :
    rxAt (writeRxEntry c e x s) c e = x := by
  cases c <;> simp [rxAt, writeRxEntry]

theorem rxAt_writeRxEntry_other {c c' : RxChannel} {e k : Nat} (h : (c', k) ≠ (c, e)) (x : RxEntry) (s : State) :
    rxAt (writeRxEntry c e x s) c' k = rxAt s c' k := by
  cases c <;> cases c' <;> simp only [rxAt, writeRxEntry, setRx1_rx1, setRx1_rx2, setRx2_rx1, setRx2_rx2]
  · rw [tableFind_write_other _ _ _ _ _ (by simpa using h)]
  · rw [tableFind_write_other _ _ _ _ _ (by simpa using h)]

/-! ## The canonical form is kept -/

theorem Memory.wf_iff (p : Params) (s : State) :
    Memory.wf p s = true ↔
      tableWf p.jobSlots (fun j => dwellOk j.dwellMs) s.jobs = true
        ∧ tableWf p.frameSlots (fun e => e != emptySlot) s.slots = true
        ∧ tableWf rxEntries (fun e => e != emptyRx) s.rx1 = true
        ∧ tableWf rxEntries (fun e => e != emptyRx) s.rx2 = true := by
  simp [Memory.wf, and_assoc]

/-- Only the four tables matter. -/
theorem Memory.wf_congr {p : Params} {s t : State} (hj : t.jobs = s.jobs) (hs : t.slots = s.slots) (h1 : t.rx1 = s.rx1)
    (h2 : t.rx2 = s.rx2) : Memory.wf p t = Memory.wf p s := by
  simp only [Memory.wf, hj, hs, h1, h2]

theorem Memory.wf_reset (p : Params) : Memory.wf p State.reset = true := rfl

theorem Memory.wf_writeJobSlot {p : Params} {s : State} {i : Index} {j : Job} (h : Memory.wf p s = true)
    (hi : i.toNat < p.jobSlots) (hj : dwellOk j.dwellMs = true) : Memory.wf p (writeJobSlot i j s) = true := by
  rw [Memory.wf_iff] at h ⊢
  exact ⟨tableWf_insert h.1 hi hj, h.2⟩

theorem Memory.wf_clearJobSlots {p : Params} {s : State} (first last : Index) (h : Memory.wf p s = true) :
    Memory.wf p (clearJobSlots first last s) = true := by
  rw [Memory.wf_iff] at h ⊢
  exact ⟨tableWf_eraseRange _ _ h.1, h.2⟩

theorem Memory.wf_writeSlotEntry {p : Params} {s : State} {i : Index} (e : SlotEntry) (h : Memory.wf p s = true)
    (hi : i.toNat < p.frameSlots) : Memory.wf p (writeSlotEntry i e s) = true := by
  rw [Memory.wf_iff] at h ⊢
  exact ⟨h.1, tableWf_write e h.2.1 hi, h.2.2⟩

theorem Memory.wf_writeRxEntry {p : Params} {s : State} (c : RxChannel) {e : Nat} (x : RxEntry)
    (h : Memory.wf p s = true) (he : e < rxEntries) : Memory.wf p (writeRxEntry c e x s) = true := by
  rw [Memory.wf_iff] at h ⊢
  cases c
  · exact ⟨h.1, h.2.1, tableWf_write x h.2.2.1 he, h.2.2.2⟩
  · exact ⟨h.1, h.2.1, h.2.2.1, tableWf_write x h.2.2.2 he⟩

/-- A job the fetch finds stands inside the table, and in a canonical table its dwell is legal. -/
theorem fetchJob_some {p : Params} {s : State} {i : Index} {j : Job} (h : fetchJob p s i = some j) :
    i.toNat < p.jobSlots ∧ jobAt s i = some j := by
  unfold fetchJob at h
  split at h
  · exact ⟨‹_›, h⟩
  · cases h

theorem fetchJob_dwellOk {p : Params} {s : State} {i : Index} {j : Job} (hs : Memory.wf p s = true)
    (h : fetchJob p s i = some j) : dwellOk j.dwellMs = true :=
  (tableWf_find ((Memory.wf_iff p s).1 hs).1 (fetchJob_some h).2).2

end Sys2Proof.Machine
end

