-- ==== Sys2Proof/Laws/Exec.lean ====
section
/-! SUPPORT. How operations end and what a tick comes to: one lemma per shared operation, for the provers to cite. -/

namespace Sys2Proof.Machine

/-! ## The ends of an operation -/

@[simp] theorem codecEnd_ok (v : Result) (s : State) : codecEnd (.ok v) s = .next (respond .ok v s) := rfl

@[simp] theorem codecEnd_error (e : Status) (s : State) : codecEnd (.error e) s = .next (respond e .none s) := rfl

/-- A codec operation always completes and touches the response alone. -/
theorem codecEnd_next (r : Except Status Result) : ∃ st v, ∀ s, codecEnd r s = .next (respond st v s) := by
  cases r with
  | ok v => exact ⟨.ok, v, fun _ => rfl⟩
  | error e => exact ⟨e, .none, fun _ => rfl⟩

theorem endTick_eq (st : Status) (l : List Action) (s : State) : endTick st l s = respond st (.actions l) s := rfl

theorem dwellStep_zero {d : BitVec 8} (h : d.toNat = 0) : dwellStep d = [] := by simp [dwellStep, h]

theorem dwellStep_pos {d : BitVec 8} (h : d.toNat ≠ 0) : dwellStep d = [.wait d] := by
  simp only [dwellStep]; rw [if_pos (by omega)]

theorem warnSkip_eq (s : State) :
    warnSkip s = { s with pc := s.pc + 1, response := ⟨.warnUnreachableIndex, .actions []⟩ } := rfl

theorem schedFail_eq (s : State) :
    schedFail s = { s with halted := true, response := ⟨.scheduleIndexConflict, .actions [.halted]⟩ } := rfl

theorem restartRegisters_eq (s : State) :
    restartRegisters s = { s with pc := 0, ret := none, halted := false, cancel := false } := rfl

/-! ## Reachability -/

theorem fetchJob_eq_some_iff (p : Params) (s : State) (i : Index) (j : Job) :
    fetchJob p s i = some j ↔ i.toNat < p.jobSlots ∧ jobAt s i = some j := by
  unfold fetchJob
  by_cases h : i.toNat < p.jobSlots <;> simp [h]

theorem fetchJob_eq_none_iff (p : Params) (s : State) (i : Index) :
    fetchJob p s i = none ↔ p.jobSlots ≤ i.toNat ∨ jobAt s i = none := by
  unfold fetchJob
  by_cases h : i.toNat < p.jobSlots
  · simp [h]
  · simp [h, Nat.not_lt.1 h]

theorem reachable_iff (p : Params) (s : State) (i : Index) :
    reachable p s i = true ↔ i.toNat < p.jobSlots ∧ jobAt s i ≠ none := by
  rw [reachable, Option.isSome_iff_ne_none, Ne, fetchJob_eq_none_iff]
  simp [not_or]

/-! ## The tick -/

theorem tickRule_halted (p : Params) {s : State} (h : s.halted = true) : tickRule p s = endTick .ok [.halted] s := by
  simp [tickRule, h]

theorem tickRule_cancelled (p : Params) {s : State} (h : s.halted = false) (hc : s.cancel = true) :
    tickRule p s = endTick .ok [.halted] (setHalted true s) := by
  simp [tickRule, h, hc]

theorem tickRule_unreachable {p : Params} {s : State} (h : s.halted = false) (hc : s.cancel = false)
    (hf : fetchJob p s s.pc = none) : tickRule p s = warnSkip s := by
  simp [tickRule, h, hc, hf]

theorem tickRule_job {p : Params} {s : State} {j : Job} (h : s.halted = false) (hc : s.cancel = false)
    (hf : fetchJob p s s.pc = some j) : tickRule p s = jobRule p j s := by
  simp [tickRule, h, hc, hf]

/-- A tick is one of four things, and this says which: halted, cancelled, unreachable, or the fetched job's rule. -/
theorem tickRule_cases (p : Params) (s : State) :
    (s.halted = true ∧ tickRule p s = endTick .ok [.halted] s)
      ∨ (s.halted = false ∧ s.cancel = true ∧ tickRule p s = endTick .ok [.halted] (setHalted true s))
      ∨ (s.halted = false ∧ s.cancel = false ∧ fetchJob p s s.pc = none ∧ tickRule p s = warnSkip s)
      ∨ ∃ j, s.halted = false ∧ s.cancel = false ∧ fetchJob p s s.pc = some j ∧ tickRule p s = jobRule p j s := by
  cases h : s.halted with
  | true => exact .inl ⟨rfl, tickRule_halted p h⟩
  | false =>
    cases hc : s.cancel with
    | true => exact .inr (.inl ⟨rfl, rfl, tickRule_cancelled p h hc⟩)
    | false =>
      cases hf : fetchJob p s s.pc with
      | none => exact .inr (.inr (.inl ⟨rfl, rfl, rfl, tickRule_unreachable h hc hf⟩))
      | some j => exact .inr (.inr (.inr ⟨j, rfl, rfl, rfl, tickRule_job h hc hf⟩))

/-- Executing a job's instruction is its kind's rule. -/
theorem exec_jobInstr (j : Job) (s : State) : exec (jobInstr j) s = .next (jobRule Config.params j s) := by
  obtain ⟨kind, r, d⟩ := j
  cases kind <;> rfl

theorem exec_tick (s : State) : exec .tick s = .next (tickRule Config.params s) := rfl

/-! ## The step -/

theorem step_nil {s : State} (h : s.pending = []) : step s = exec .tick s := by simp [step, h]

theorem step_cons_ok {s : State} {r : Request} {rest : List Request} {i : Instr} (h : s.pending = r :: rest)
    (hd : decodeRequest r = .ok i) : step s = exec i (setPending rest s) := by simp [step, h, hd]

theorem step_cons_error {s : State} {r : Request} {rest : List Request} {e : DecodeError} (h : s.pending = r :: rest)
    (hd : decodeRequest r = .error e) : step s = .next (rejectRequest (setPending rest s)) := by simp [step, h, hd]

/-- One more step of a run, on any machine. -/
theorem run_succ_of_step (M : Host.Core) (k : Nat) {s t : M.State} (h : M.step s = .next t) :
    M.run (k + 1) s = M.run k t := by simp only [Host.Core.run, h]

/-- One more step of a run of this machine. -/
theorem core_run_succ (k : Nat) {s t : State} (h : step s = .next t) :
    Host.Core.run Sys2Proof.core (k + 1) s = Host.Core.run Sys2Proof.core k t :=
  run_succ_of_step Sys2Proof.core k h

/-! ## A run -/

@[simp] theorem runPrefix_zero (s : State) : runPrefix 0 s = ⟨s, []⟩ := rfl

/-- A run that is over takes no step. -/
theorem runPrefix_of_halted (k : Nat) {s : State} (h : s.halted = true) : runPrefix k s = ⟨s, []⟩ := by
  cases k <;> simp [runPrefix, h]

/-- A run that is not over takes one step and returns its response first. -/
theorem runPrefix_succ_of_step (k : Nat) {s t : State} (h : s.halted = false) (ht : step s = .next t) :
    runPrefix (k + 1) s = ⟨(runPrefix k t).final, t.response :: (runPrefix k t).returned⟩ := by
  simp [runPrefix, h, ht]

/-- The trace, entry by entry. -/
theorem runTrace_getElem? (r : RunPrefix) (i : Nat) :
    (runTrace r)[i]? = r.returned[i]?.map fun x => (responseActions x, x.status) := by
  simp [runTrace]

end Sys2Proof.Machine
end

