-- ==== Sys2Proof/Laws/Fields.lean ====
section
/-! SUPPORT. Bit fields of a frame, bit by bit and as numbers. -/

namespace Sys2Proof.Machine

theorem fieldOk_iff (lsbPos size : BitVec 8) : fieldOk lsbPos size = true ↔ FieldLegal lsbPos size := by
  simp [fieldOk, FieldLegal, and_assoc]

theorem getLsbD_mask {n : Nat} (hn : n ≤ 32) (k : Nat) : (mask n).getLsbD k = decide (k < n) := by
  simp only [mask, BitVec.getLsbD_ofNat, Nat.testBit_two_pow_sub_one]
  by_cases h : k < n
  · simp [h]; omega
  · simp [h]

theorem getLsbD_getField {n : Nat} (hn : n ≤ 32) (w : Frame) (lo k : Nat) :
    (getField w lo n).getLsbD k = (decide (k < n) && w.getLsbD (lo + k)) := by
  simp only [getField, BitVec.getLsbD_and, BitVec.getLsbD_ushiftRight, getLsbD_mask hn, Bool.and_comm]

/-- The field replaced, every other bit kept. -/
theorem getLsbD_putField {lo n : Nat} (h : lo + n ≤ 32) (w : Frame) (v : BitVec 32) (k : Nat) :
    (putField w lo n v).getLsbD k = if lo ≤ k ∧ k < lo + n then v.getLsbD (k - lo) else w.getLsbD k := by
  simp only [putField, BitVec.getLsbD_or, BitVec.getLsbD_and, BitVec.getLsbD_not, BitVec.getLsbD_shiftLeft,
    getLsbD_mask (show n ≤ 32 by omega)]
  by_cases hk : k < 32
  · by_cases h1 : k < lo
    · have h1' : ¬ lo ≤ k := by omega
      simp [hk, h1, h1']
    · have h1' : lo ≤ k := by omega
      by_cases h2 : k < lo + n
      · have h3 : k - lo < n := by omega
        simp [hk, h1, h1', h2, h3]
      · have h3 : ¬ k - lo < n := by omega
        simp [hk, h1, h2, h3]
  · have h2 : ¬ k < lo + n := by omega
    simp [hk, h2, BitVec.getLsbD_of_ge w k (by omega)]

theorem getLsbD_fieldBits {lsbPos size : BitVec 8} (h : FieldLegal lsbPos size) (f : Frame) (k : Nat) :
    (fieldBits f lsbPos size).getLsbD k = (decide (k < size.toNat) && f.getLsbD (lsbPos.toNat - 1 + k)) :=
  getLsbD_getField (by have := h.2; omega) f _ k

theorem getLsbD_withField {lsbPos size : BitVec 8} (h : FieldLegal lsbPos size) (f : Frame) (v : BitVec 32) (k : Nat) :
    (withField f lsbPos size v).getLsbD k
      = if lsbPos.toNat - 1 ≤ k ∧ k < lsbPos.toNat - 1 + size.toNat then v.getLsbD (k - (lsbPos.toNat - 1))
        else f.getLsbD k :=
  getLsbD_putField (by have := h.2; omega) f v k

/-- The field as a number: a quotient and a remainder of the frame. -/
theorem toNat_getField {n : Nat} (hn : n ≤ 32) (w : Frame) (lo : Nat) :
    (getField w lo n).toNat = w.toNat / 2 ^ lo % 2 ^ n := by
  have hlt : 2 ^ n - 1 < 2 ^ 32 := by
    have := Nat.pow_le_pow_right (show 0 < 2 by omega) hn
    have := Nat.two_pow_pos n
    omega
  simp only [getField, mask, BitVec.toNat_and, BitVec.toNat_ushiftRight, BitVec.toNat_ofNat, Nat.shiftRight_eq_div_pow,
    Nat.mod_eq_of_lt hlt, Nat.and_two_pow_sub_one_eq_mod]

theorem toNat_fieldBits {lsbPos size : BitVec 8} (h : FieldLegal lsbPos size) (f : Frame) :
    (fieldBits f lsbPos size).toNat = f.toNat / 2 ^ (lsbPos.toNat - 1) % 2 ^ size.toNat :=
  toNat_getField (by have := h.2; omega) f _

theorem ssmUsedForData_iff (lsbPos size : BitVec 8) :
    ssmUsedForData lsbPos size = true ↔ 30 < lsbPos.toNat + size.toNat := by
  simp [ssmUsedForData]

theorem getLsbD_signWrite (f : Frame) (neg : Bool) (k : Nat) :
    (signWrite f neg).getLsbD k = if k = 28 then neg else f.getLsbD k := by
  rw [signWrite, getLsbD_putField (by omega)]
  by_cases h : k = 28
  · subst h; cases neg <;> rfl
  · rw [if_neg (by omega), if_neg h]

theorem toNat_ssmRawBits (f : Frame) : (ssmRawBits f).toNat = f.toNat / 2 ^ 29 % 4 := by
  simp [ssmRawBits, Nat.shiftRight_eq_div_pow]

/-- The SSM write touches indices 29 and 30 only, and only when a code is written. -/
theorem getLsbD_ssmWrite (fmt : Format) (m : SsmValue) (neg : Bool) (lsbPos size : BitVec 8) (f : Frame) (k : Nat) :
    (ssmWrite fmt m neg lsbPos size f).getLsbD k
      = match ssmRawOf fmt m neg with
        | some raw => if ¬ 30 < lsbPos.toNat + size.toNat ∧ 29 ≤ k ∧ k < 31 then raw.getLsbD (k - 29) else f.getLsbD k
        | none => f.getLsbD k := by
  unfold ssmWrite
  by_cases h : 30 < lsbPos.toNat + size.toNat
  · rw [if_pos ((ssmUsedForData_iff _ _).2 h)]; split <;> simp [h]
  · rw [if_neg (by rwa [ssmUsedForData_iff])]
    cases ssmRawOf fmt m neg with
    | none => rfl
    | some raw =>
      dsimp only
      rw [getLsbD_putField (by omega)]
      by_cases hk : 29 ≤ k ∧ k < 31
      · rw [if_pos (by omega), if_pos ⟨h, hk⟩, BitVec.zeroExtend_eq_setWidth, BitVec.getLsbD_setWidth]
        simp only [show k - 29 < 32 by omega, decide_true, Bool.true_and]
      · rw [if_neg (by omega), if_neg (by omega)]

end Sys2Proof.Machine
end

