-- ==== Sys2Proof/Laws/PerInstr.lean ====
section
/-! SUPPORT. Per instruction: the encoder's code for it carries the fixed bits of its row of spec/opcode_table.json
(30_encoding.md R75, R81, R82). -/

namespace Sys2Proof.Laws

/-- The bits of an encoded form that the opcode table numbers, and how many. -/
def codeBits : Encoded → Nat × Nat
  | .request (.codec sel _) => (8, sel.toNat)
  | .request (.command cmd _) => (3, cmd.toNat)
  | .job w => (32, w.toNat)

/-- The row of the opcode table: width, number of low bits the row fixes, and their value (`match`). -/
def tableRow : Instr → Nat × Nat × Nat
  | .getBits _ _ _ => (8, 8, 0x00)
  | .setBits _ _ _ _ => (8, 8, 0x01)
  | .bin2bcd _ => (8, 8, 0x02)
  | .bcd2bin _ => (8, 8, 0x03)
  | .encBcd _ _ _ _ _ _ _ => (8, 8, 0x04)
  | .encBnr _ _ _ _ _ _ _ => (8, 8, 0x14)
  | .encDisc _ _ _ _ _ _ _ => (8, 8, 0x24)
  | .decBcd _ _ _ _ _ _ => (8, 8, 0x05)
  | .decBnr _ _ _ _ _ _ => (8, 8, 0x15)
  | .decDisc _ _ _ _ _ _ => (8, 8, 0x25)
  | .createFrame _ _ => (8, 8, 0x06)
  | .readLabel _ => (8, 8, 0x07)
  | .readSdi _ => (8, 8, 0x08)
  | .readSsmRaw _ => (8, 8, 0x09)
  | .combineSsm _ _ => (8, 8, 0x0A)
  | .skip _ _ => (32, 8, 0x00)
  | .dwell _ _ => (32, 8, 0x01)
  | .single _ _ => (32, 8, 0x02)
  | .cyclic _ _ => (32, 8, 0x03)
  | .retx1 _ _ => (32, 8, 0x04)
  | .retx2 _ _ => (32, 8, 0x05)
  | .jump _ _ => (32, 8, 0x06)
  | .ret _ _ => (32, 8, 0x07)
  | .callback _ _ => (32, 8, 0x08)
  | .stop _ _ => (32, 8, 0x09)
  | .tick => (3, 3, 0)
  | .writeJob _ _ => (3, 3, 1)
  | .clearJobs _ _ => (3, 3, 2)
  | .writeSlot _ _ => (3, 3, 3)
  | .rxUpdate _ _ _ _ _ => (3, 3, 4)
  | .restart => (3, 3, 5)
  | .cancel => (3, 3, 6)

/-- The low byte of a job word is its kind's code: bits 7:4 are zero (R74). -/
theorem encodeJob_lowByte (j : Job) : (encodeJob j).toNat % 256 = (kindCode j.kind).toNat := by
  obtain ⟨kind, r, d⟩ := j
  have h : (encodeJob ⟨kind, r, d⟩).extractLsb' 0 8 = 0#4 ++ kindCode kind := by
    apply BitVec.eq_of_getLsbD_eq
    intro k hk
    simp only [encodeJob, BitVec.getLsbD_extractLsb', Nat.zero_add, BitVec.getLsbD_append]
    by_cases h4 : k < 4 <;> simp [hk, h4]
  have h' := congrArg BitVec.toNat h
  rw [BitVec.extractLsb'_toNat] at h'
  simp only [Nat.shiftRight_zero] at h'
  have h256 : (2 : Nat) ^ 8 = 256 := rfl
  rw [h256] at h'
  rw [h']
  cases kind <;> rfl

namespace TableRow

/-- The encoder's code has the row's width, and its low bits are the row's. -/
def Statement (i : Instr) : Prop :=
  (codeBits (encode i)).1 = (tableRow i).1
    ∧ (codeBits (encode i)).2 % 2 ^ (tableRow i).2.1 = (tableRow i).2.2

theorem getBits (f : Frame) (l z : BitVec 8) : Statement (.getBits f l z) := ⟨rfl, rfl⟩
theorem setBits (f : Frame) (l z : BitVec 8) (v : BitVec 32) : Statement (.setBits f l z v) := ⟨rfl, rfl⟩
theorem bin2bcd (n : BitVec 32) : Statement (.bin2bcd n) := ⟨rfl, rfl⟩
theorem bcd2bin (b : BitVec 32) : Statement (.bcd2bin b) := ⟨rfl, rfl⟩
theorem encBcd (f : Frame) (l z : BitVec 8) (lo hi v : F64) (m : BitVec 3) : Statement (.encBcd f l z lo hi v m) :=
  ⟨rfl, rfl⟩
theorem encBnr (f : Frame) (l z : BitVec 8) (lo hi v : F64) (m : BitVec 3) : Statement (.encBnr f l z lo hi v m) :=
  ⟨rfl, rfl⟩
theorem encDisc (f : Frame) (l z : BitVec 8) (lo hi v : F64) (m : BitVec 3) : Statement (.encDisc f l z lo hi v m) :=
  ⟨rfl, rfl⟩
theorem decBcd (f : Frame) (l z : BitVec 8) (lo hi : F64) (d : BitVec 8) : Statement (.decBcd f l z lo hi d) :=
  ⟨rfl, rfl⟩
theorem decBnr (f : Frame) (l z : BitVec 8) (lo hi : F64) (d : BitVec 8) : Statement (.decBnr f l z lo hi d) :=
  ⟨rfl, rfl⟩
theorem decDisc (f : Frame) (l z : BitVec 8) (lo hi : F64) (d : BitVec 8) : Statement (.decDisc f l z lo hi d) :=
  ⟨rfl, rfl⟩
theorem createFrame (l : BitVec 16) (m : BitVec 3) : Statement (.createFrame l m) := ⟨rfl, rfl⟩
theorem readLabel (f : Frame) : Statement (.readLabel f) := ⟨rfl, rfl⟩
theorem readSdi (f : Frame) : Statement (.readSdi f) := ⟨rfl, rfl⟩
theorem readSsmRaw (f : Frame) : Statement (.readSsmRaw f) := ⟨rfl, rfl⟩
theorem combineSsm (a b : BitVec 3) : Statement (.combineSsm a b) := ⟨rfl, rfl⟩
theorem skip (r : Index) (d : BitVec 8) : Statement (.skip r d) := ⟨rfl, encodeJob_lowByte _⟩
theorem dwell (r : Index) (d : BitVec 8) : Statement (.dwell r d) := ⟨rfl, encodeJob_lowByte _⟩
theorem single (r : Index) (d : BitVec 8) : Statement (.single r d) := ⟨rfl, encodeJob_lowByte _⟩
theorem cyclic (r : Index) (d : BitVec 8) : Statement (.cyclic r d) := ⟨rfl, encodeJob_lowByte _⟩
theorem retx1 (r : Index) (d : BitVec 8) : Statement (.retx1 r d) := ⟨rfl, encodeJob_lowByte _⟩
theorem retx2 (r : Index) (d : BitVec 8) : Statement (.retx2 r d) := ⟨rfl, encodeJob_lowByte _⟩
theorem jump (r : Index) (d : BitVec 8) : Statement (.jump r d) := ⟨rfl, encodeJob_lowByte _⟩
theorem ret (r : Index) (d : BitVec 8) : Statement (.ret r d) := ⟨rfl, encodeJob_lowByte _⟩
theorem callback (r : Index) (d : BitVec 8) : Statement (.callback r d) := ⟨rfl, encodeJob_lowByte _⟩
theorem stop (r : Index) (d : BitVec 8) : Statement (.stop r d) := ⟨rfl, encodeJob_lowByte _⟩
theorem tick : Statement .tick := ⟨rfl, rfl⟩
theorem writeJob (i : Index) (w : BitVec 32) : Statement (.writeJob i w) := ⟨rfl, rfl⟩
theorem clearJobs (a b : Index) : Statement (.clearJobs a b) := ⟨rfl, rfl⟩
theorem writeSlot (i : Index) (r : Frame) : Statement (.writeSlot i r) := ⟨rfl, rfl⟩
theorem rxUpdate (c : RxChannel) (e : BitVec 10) (n t : Bool) (r : Frame) : Statement (.rxUpdate c e n t r) :=
  ⟨rfl, rfl⟩
theorem restart : Statement .restart := ⟨rfl, rfl⟩
theorem cancel : Statement .cancel := ⟨rfl, rfl⟩

end TableRow

end Sys2Proof.Laws
end

