-- ==== Sys2Proof/Tests/Slice0.lean ====
section
/-! SUPPORT. Tests: the well-formedness smoke test, decoding of words written from the spec's tables, single operations
and single ticks against the vectors of 95_test_vectors.md (named in each comment), and for each obligation with
hypotheses a witness that meets them. -/

set_option Elab.async false

namespace Sys2Proof.Tests

open Sys2Proof Sys2Proof.Machine

/-! ## Helpers -/

/-- The parameters of 95_test_vectors.md sections 2.8 and 2.9: `JOB_SLOTS = 16`, `FRAME_SLOTS = 8`. -/
def vectorParams : Params := ⟨15, 7, 0, .halfToEven⟩

/-- The operation completes with these ports. -/
def gives (i : Instr) (st : Status) (r : Result) : Bool :=
  match exec i State.reset with
  | .next t => decide (t.response = ⟨st, r⟩)
  | _ => false

/-- The result of a codec rule, the tie rule given. -/
def ruleGives (x : Except Status Result) (r : Result) : Bool :=
  match x with
  | .ok v => decide (v = r)
  | .error _ => false

/-- A state with one job, at its index, and `PC` there. -/
def withJob (i : Index) (j : Job) : State := setPc i (writeJobSlot i j State.reset)

/-- The same with slot 2 holding a value and a mark. -/
def withJobAndSlot (j : Job) (raw : Frame) (armed : Bool) : State := writeSlotEntry 2 ⟨raw, armed⟩ (withJob 0 j)

/-- A tick ends in this state, its ports being these. -/
def tickEnds (s : State) (st : Status) (l : List Action) (t : State) : Bool :=
  decide (tickRule vectorParams s = { t with response := ⟨st, .actions l⟩ })

/-! ## Well-formed instructions -/

/-- R74: a dwell of 251 ms is refused, one check for each job kind. -/
theorem test_dwell_251_is_ill_formed :
    (Instr.skip 0 251).wellFormed = false ∧ (Instr.dwell 0 251).wellFormed = false
      ∧ (Instr.single 0 251).wellFormed = false ∧ (Instr.cyclic 0 251).wellFormed = false
      ∧ (Instr.retx1 0 251).wellFormed = false ∧ (Instr.retx2 0 251).wellFormed = false
      ∧ (Instr.jump 0 251).wellFormed = false ∧ (Instr.ret 0 251).wellFormed = false
      ∧ (Instr.callback 0 251).wellFormed = false ∧ (Instr.stop 0 255).wellFormed = false := by decide

/-- R74: 250 ms is the longest legal dwell. -/
theorem test_dwell_250_is_well_formed :
    (Instr.skip 0 250).wellFormed = true ∧ (Instr.stop 0xFFFF 250).wellFormed = true := by decide

/-! ## Decoding: each row of the opcode table, from a word written out from 30_encoding.md R74, R75, R81 and R82 -/

/-- Operand ports, all distinct, so that a port read from the wrong place shows. -/
def somePorts : Ports :=
  { frame := 1, frameIn := 2, lsbPos := 3, size := 4, value := 5, n := 6, bcd := 7, engMin := 8, engMax := 9,
    engValue := 10, ssmIntent := 1, decimals := 11, label := 12, sdi := 2, a := 3, b := 4, index := 13, word := 14,
    first := 15, last := 16, frameIndex := 17, raw := 18, channel := 1, ext := 19, seen := 1, timedOut := 0 }

/-- The bit-field and BCD selectors, `00 ff oooo`. -/
theorem test_decode_bit_field_and_bcd :
    (decode (.request (.codec 0b00000000 somePorts))).toOption = some (.getBits 1 3 4)
      ∧ (decode (.request (.codec 0b00000001 somePorts))).toOption = some (.setBits 1 3 4 5)
      ∧ (decode (.request (.codec 0b00000010 somePorts))).toOption = some (.bin2bcd 6)
      ∧ (decode (.request (.codec 0b00000011 somePorts))).toOption = some (.bcd2bin 7) := by decide

/-- The encoders and decoders in their three formats. -/
theorem test_decode_encoders_and_decoders :
    (decode (.request (.codec 0b00000100 somePorts))).toOption = some (.encBcd 2 3 4 8 9 10 1)
      ∧ (decode (.request (.codec 0b00010100 somePorts))).toOption = some (.encBnr 2 3 4 8 9 10 1)
      ∧ (decode (.request (.codec 0b00100100 somePorts))).toOption = some (.encDisc 2 3 4 8 9 10 1)
      ∧ (decode (.request (.codec 0b00000101 somePorts))).toOption = some (.decBcd 1 3 4 8 9 11)
      ∧ (decode (.request (.codec 0b00010101 somePorts))).toOption = some (.decBnr 1 3 4 8 9 11)
      ∧ (decode (.request (.codec 0b00100101 somePorts))).toOption = some (.decDisc 1 3 4 8 9 11) := by decide

/-- The frame builder, the readers and the SSM reducer. -/
theorem test_decode_frame_operations :
    (decode (.request (.codec 0b00000110 somePorts))).toOption = some (.createFrame 12 2)
      ∧ (decode (.request (.codec 0b00000111 somePorts))).toOption = some (.readLabel 1)
      ∧ (decode (.request (.codec 0b00001000 somePorts))).toOption = some (.readSdi 1)
      ∧ (decode (.request (.codec 0b00001001 somePorts))).toOption = some (.readSsmRaw 1)
      ∧ (decode (.request (.codec 0b00001010 somePorts))).toOption = some (.combineSsm 3 4) := by decide

/-- Job words, `frame_ref dwell_ms 0000 kind`, the fields not symmetric. -/
theorem test_decode_jobs :
    (decode (.job 0b0000000000000110_00001001_0000_0000)).toOption = some (.skip 6 9)
      ∧ (decode (.job 0b0000000000000000_00010100_0000_0001)).toOption = some (.dwell 0 20)
      ∧ (decode (.job 0b0000000000000010_00000011_0000_0010)).toOption = some (.single 2 3)
      ∧ (decode (.job 0b1000000000000001_00000000_0000_0011)).toOption = some (.cyclic 0x8001 0)
      ∧ (decode (.job 0b0000000101010011_00000010_0000_0100)).toOption = some (.retx1 0x153 2) := by decide

theorem test_decode_more_jobs :
    (decode (.job 0b0000010000000000_00000000_0000_0101)).toOption = some (.retx2 0x400 0)
      ∧ (decode (.job 0b0000000000001100_00000101_0000_0110)).toOption = some (.jump 12 5)
      ∧ (decode (.job 0b0000000000000000_11111010_0000_0111)).toOption = some (.ret 0 250)
      ∧ (decode (.job 0b0000000000000000_00000001_0000_1000)).toOption = some (.callback 0 1)
      ∧ (decode (.job 0b0000000000000000_00000111_0000_1001)).toOption = some (.stop 0 7) := by decide

/-- The seven command codes. -/
theorem test_decode_commands :
    (decode (.request (.command 0b000 somePorts))).toOption = some .tick
      ∧ (decode (.request (.command 0b001 somePorts))).toOption = some (.writeJob 13 14)
      ∧ (decode (.request (.command 0b010 somePorts))).toOption = some (.clearJobs 15 16)
      ∧ (decode (.request (.command 0b011 somePorts))).toOption = some (.writeSlot 17 18)
      ∧ (decode (.request (.command 0b100 somePorts))).toOption = some (.rxUpdate .rx2 19 true false 18)
      ∧ (decode (.request (.command 0b101 somePorts))).toOption = some .restart
      ∧ (decode (.request (.command 0b110 somePorts))).toOption = some .cancel := by decide

/-- R86, V-CM-2, V-CM-3, V-CM-5, V-CM-12: the reserved encodings are refused. -/
theorem test_decode_refuses_reserved :
    (decode (.request (.codec 0b00001011 {}))).toOption = none ∧ (decode (.request (.codec 0b01000000 {}))).toOption = none
      ∧ (decode (.request (.codec 0b00010000 {}))).toOption = none
      ∧ (decode (.request (.codec 0b00110100 {}))).toOption = none ∧ (decode (.request (.command 7 {}))).toOption = none
      ∧ (decode (.job 0x0000000A)).toOption = none ∧ (decode (.job 0x0000FB01)).toOption = none
      ∧ (decode (.job 0x00000013)).toOption = none := by decide

/-! ## Codec operations -/

/-- V-BF-5 and V-BF-11. -/
theorem test_get_bits :
    gives (.getBits 0xC0000000 30 2) .ok (.value 2) = true
      ∧ gives (.getBits 0 255 255) .invalidFieldSpec .none = true := by decide +kernel

/-- V-BF-14 and V-BF-13. -/
theorem test_set_bits :
    gives (.setBits 0x00000153 11 14 0x7999) .ok (.frameOut 0x00E66553) = true
      ∧ gives (.setBits 0xFFFFFFFF 9 23 0) .ok (.frameOut 0x800000FF) = true := by decide +kernel

/-- V-BC-6 and V-BC-5. -/
theorem test_bin2bcd :
    gives (.bin2bcd 4294967295) .ok (.bcd 0x94967295) = true ∧ gives (.bin2bcd 100000000) .ok (.bcd 0) = true := by
  decide +kernel

/-- V-BC-9 and V-BC-10. -/
theorem test_bcd2bin :
    gives (.bcd2bin 0x0000001A) .ok (.n 20) = true ∧ gives (.bcd2bin 0xFFFFFFFF) .ok (.n 166666665) = true := by
  decide +kernel

/-- E1, V-BCD-11: -1234 in -7999..7999, intents NormalOperation and FailureWarning. -/
theorem test_enc_bcd :
    gives (.encBcd 0x00000153 11 14 0xC0BF3F0000000000 0x40BF3F0000000000 0xC093480000000000 1) .ok
        (.frameOut 0x6048D153) = true
      ∧ gives (.encBcd 0x00000153 11 15 0xC0BF3F0000000000 0x40BF3F0000000000 0x4093480000000000 4) .invalidFieldSpec
        .none = true := by decide +kernel

/-- V-BCD-6: the tie 2.5 under each tie rule. -/
theorem test_enc_bcd_ties :
    ruleGives (encBcdResult .halfAwayFromZero
        ⟨0x00000153, 11, 15, 0xC0BF3F0000000000, 0x40BF3F0000000000, 0x4004000000000000, 1⟩) (.frameOut 0x00000D53) = true
      ∧ ruleGives (encBcdResult .halfToEven
        ⟨0x00000153, 11, 15, 0xC0BF3F0000000000, 0x40BF3F0000000000, 0x4004000000000000, 1⟩) (.frameOut 0x00000953)
        = true := by decide +kernel

/-- E3: -1234.5678 in -2000..2000. -/
theorem test_enc_bnr :
    gives (.encBnr 0x00000153 11 18 0xC09F400000000000 0x409F400000000000 0xC0934A456D5CFAAD 1) .ok
        (.frameOut 0x761F9D53) = true := by decide +kernel

/-- V-BNR-4: full negative scale, and V-BNR-17: a range of magnitude 0. -/
theorem test_enc_bnr_corners :
    gives (.encBnr 0x00000153 11 18 0xC09F400000000000 0x409F400000000000 0xC09F400000000000 1) .ok
        (.frameOut 0x70000553) = true
      ∧ gives (.encBnr 0x00000153 11 18 0 0 0 1) .invalidFieldSpec .none = true := by decide +kernel

/-- V-DIS-8 and V-DIS-5. -/
theorem test_enc_disc :
    gives (.encDisc 0x00000153 11 4 0 0x406FE00000000000 0x4064A00000000000 1) .ok (.frameOut 0x00001553) = true
      ∧ gives (.encDisc 0x00000153 11 8 0 0x406FE00000000000 0x4064A00000000000 4) .ok (.frameOut 0x60029553) = true := by
  decide +kernel

/-- V-DIS-3 and V-DIS-10: the sign of the value supplied is tested last. -/
theorem test_enc_disc_negative :
    gives (.encDisc 0x00000153 11 8 0xC014000000000000 0x406FE00000000000 0xBFF0000000000000 1) .negativeNotAllowed .none
        = true
      ∧ gives (.encDisc 0x00000153 8 8 0 0x406FE00000000000 0xBFF0000000000000 1) .invalidFieldSpec .none = true := by
  decide +kernel

/-- V-DEC-4 and V-DEC-14. -/
theorem test_dec_bcd :
    gives (.decBcd 0x6048D153 11 14 0xC0BF3F0000000000 0x40BF3F0000000000 2) .ok
        (.decoded (-1234) 0xC093480000000000 .normalOperation) = true
      ∧ gives (.decBcd 0x0002A953 11 8 0 0x4058C00000000000 0) .ok (.decoded 110 0x405B800000000000 .normalOperation)
        = true := by decide +kernel

/-- E3 and V-DEC-17. -/
theorem test_dec_bnr :
    gives (.decBnr 0x761F9D53 11 18 0xC09F400000000000 0x409F400000000000 2) .ok
        (.decoded (-123457 / 100) 0xC0934A47AE147AE1 .normalOperation) = true
      ∧ gives (.decBnr 0x69E06553 11 18 0xC09F400000000000 0x409F400000000000 20) .ok
        (.decoded (20227125 / 16384) 0x40934A4350000000 .normalOperation) = true := by decide +kernel

/-- V-DEC-20: 2.5 to no decimals, under each tie rule. -/
theorem test_dec_bnr_ties :
    ruleGives (decBnrResult .halfAwayFromZero ⟨0x00000553, 11, 1, 0xC014000000000000, 0x4014000000000000, 0⟩)
        (.decoded 3 0x4008000000000000 .failureWarning) = true
      ∧ ruleGives (decBnrResult .halfToEven ⟨0x00000553, 11, 1, 0xC014000000000000, 0x4014000000000000, 0⟩)
        (.decoded 2 0x4000000000000000 .failureWarning) = true := by decide +kernel

/-- V-DEC-12 and V-DIS-13. -/
theorem test_dec_disc :
    gives (.decDisc 0x60029553 11 8 0 0x406FE00000000000 0) .ok (.decoded 165 0x4064A00000000000 .failureWarning) = true
      ∧ gives (.decDisc 0x7FFFFD53 11 21 0 0x413FFFFF00000000 0) .ok (.decoded 2097151 0x413FFFFF00000000 .data)
        = true := by decide +kernel

/-- V-FR-1, V-FR-2; V-FR-4, V-FR-5. -/
theorem test_create_frame :
    gives (.createFrame 255 3) .ok (.frameOut 0x000003FF) = true
      ∧ gives (.createFrame 83 4) .ok (.frameOut 0x00000053) = true
      ∧ gives (.createFrame 256 0) .invalidLabelOrSdi .none = true
      ∧ gives (.createFrame 83 5) .invalidLabelOrSdi .none = true := by decide +kernel

/-- V-FR-6 to V-FR-10. -/
theorem test_readers :
    gives (.readLabel 0x6048D153) .ok (.label 0x53) = true ∧ gives (.readSdi 0x6048D153) .ok (.sdi 1) = true
      ∧ gives (.readSsmRaw 0xE0000000) .ok (.ssmRaw 3) = true
      ∧ gives (.readSsmRaw 0x9FFFFFFF) .ok (.ssmRaw 0) = true := by decide +kernel

/-- The table of V-FR-11: row NCD against FT and FW, and the reserved code. -/
theorem test_combine_ssm :
    gives (.combineSsm 2 3) .ok (.ssm .noComputedData) = true ∧ gives (.combineSsm 2 4) .ok (.ssm .failureWarning) = true
      ∧ gives (.combineSsm 1 3) .ok (.ssm .functionalTest) = true
      ∧ gives (.combineSsm 5 1) .invalidFieldSpec .none = true := by decide +kernel

/-! ## Single ticks, section 2.8 -/

/-- V-SC-1 and V-SC-2: an empty table warns, and `PC` wraps. -/
theorem test_tick_unreachable :
    tickEnds State.reset .warnUnreachableIndex [] (setPc 1 State.reset) = true
      ∧ tickEnds (setPc 65535 State.reset) .warnUnreachableIndex [] (setPc 0 State.reset) = true := by decide +kernel

/-- V-SC-21 and V-SC-22: halted, and cancelled over a Cyclic(0) at `PC = 1`. -/
theorem test_tick_halted_or_cancelled :
    tickEnds (setHalted true (setPc 9 State.reset)) .ok [.halted] (setHalted true (setPc 9 State.reset)) = true
      ∧ tickEnds (setCancel true (withJob 1 ⟨.cyclic, 0, 0⟩)) .ok [.halted]
        (setHalted true (setCancel true (withJob 1 ⟨.cyclic, 0, 0⟩))) = true := by decide +kernel

/-- V-SC-3. -/
theorem test_skip :
    tickEnds (withJob 4 ⟨.skip, 0, 9⟩) .ok [] (setPc 5 (withJob 4 ⟨.skip, 0, 9⟩)) = true := by decide +kernel

/-- V-SC-4 and V-SC-5. -/
theorem test_dwell :
    tickEnds (withJob 3 ⟨.dwell, 0, 20⟩) .ok [.wait 20] (setPc 4 (withJob 3 ⟨.dwell, 0, 20⟩)) = true
      ∧ tickEnds (withJob 3 ⟨.dwell, 0, 0⟩) .ok [] (setPc 4 (withJob 3 ⟨.dwell, 0, 0⟩)) = true := by decide +kernel

/-- V-SC-6. -/
theorem test_single_sends :
    tickEnds (withJobAndSlot ⟨.single, 2, 3⟩ 0x00029553 true) .ok [.transmit 0x00029553, .wait 3]
      (setPc 1 (withJobAndSlot ⟨.single, 2, 3⟩ 0x00029553 false)) = true := by decide +kernel

/-- V-SC-7 and V-SC-8. -/
theorem test_single_skips :
    tickEnds (withJobAndSlot ⟨.single, 2, 3⟩ 0x00029553 false) .ok [.wait 3]
        (setPc 1 (withJobAndSlot ⟨.single, 2, 3⟩ 0x00029553 false)) = true
      ∧ tickEnds (withJobAndSlot ⟨.single, 2, 3⟩ 0 true) .ok [.wait 3]
        (setPc 1 (withJobAndSlot ⟨.single, 2, 3⟩ 0 true)) = true := by decide +kernel

/-- V-SC-9 and V-SC-10: a slot never written is transmitted, a reference past the table is not. -/
theorem test_cyclic :
    tickEnds (withJob 0 ⟨.cyclic, 1, 0⟩) .ok [.transmit 0] (setPc 1 (withJob 0 ⟨.cyclic, 1, 0⟩)) = true
      ∧ tickEnds (withJob 0 ⟨.cyclic, 9, 0⟩) .warnUnreachableIndex [] (setPc 1 (withJob 0 ⟨.cyclic, 9, 0⟩)) = true := by
  decide +kernel

/-- V-SC-11 to V-SC-13. -/
theorem test_retx1 :
    let s := withJob 0 ⟨.retransmitRx1, 0x153, 2⟩
    let sent := writeRxEntry .rx1 0x153 ⟨true, false, 0x6048D153⟩ s
    let late := writeRxEntry .rx1 0x153 ⟨true, true, 0x6048D153⟩ s
    let other := writeRxEntry .rx2 0x153 ⟨true, false, 0x6048D153⟩ s
    tickEnds sent .ok [.transmit 0x6048D153, .wait 2] (setPc 1 sent) = true
      ∧ tickEnds late .ok [.wait 2] (setPc 1 late) = true ∧ tickEnds other .ok [.wait 2] (setPc 1 other) = true := by
  decide +kernel

/-- R179 (V-SC-11 with the other channel) and V-SC-14. -/
theorem test_retx2 :
    let sent := writeRxEntry .rx2 0x153 ⟨true, false, 0x6048D153⟩ (withJob 0 ⟨.retransmitRx2, 0x153, 2⟩)
    tickEnds sent .ok [.transmit 0x6048D153, .wait 2] (setPc 1 sent) = true
      ∧ tickEnds (withJob 0 ⟨.retransmitRx2, 0x400, 0⟩) .warnUnreachableIndex []
        (setPc 1 (withJob 0 ⟨.retransmitRx2, 0x400, 0⟩)) = true := by decide +kernel

/-- V-SC-15 and V-SC-16. -/
theorem test_jump :
    let good := writeJobSlot 0 ⟨.skip, 0, 0⟩ (withJob 2 ⟨.jump, 0, 5⟩)
    let bad := setRet (some 1) (withJob 4 ⟨.jump, 12, 0⟩)
    tickEnds good .ok [.wait 5] (setPc 0 (setRet (some 3) good)) = true
      ∧ tickEnds bad .scheduleIndexConflict [.halted] (setHalted true bad) = true := by decide +kernel

/-- V-SC-17 and V-SC-18; V-SC-24: the return target is not checked. -/
theorem test_return :
    tickEnds (setRet (some 3) (withJob 9 ⟨.ret, 0, 0⟩)) .ok [] (setPc 3 (withJob 9 ⟨.ret, 0, 0⟩)) = true
      ∧ tickEnds (withJob 9 ⟨.ret, 0, 0⟩) .scheduleIndexConflict [.halted] (setHalted true (withJob 9 ⟨.ret, 0, 0⟩))
        = true
      ∧ tickEnds (setRet (some 16) (withJob 15 ⟨.ret, 0, 0⟩)) .ok [] (setPc 16 (withJob 15 ⟨.ret, 0, 0⟩)) = true := by
  decide +kernel

/-- V-SC-19. -/
theorem test_callback :
    tickEnds (withJob 4 ⟨.callback, 0, 1⟩) .ok [.notifyCycleComplete, .wait 1] (setPc 5 (withJob 4 ⟨.callback, 0, 1⟩))
      = true := by decide +kernel

/-- V-SC-20: no wait although the dwell is 7. -/
theorem test_stop :
    tickEnds (withJob 1 ⟨.stop, 0, 7⟩) .ok [.halted] (setHalted true (withJob 1 ⟨.stop, 0, 7⟩)) = true := by
  decide +kernel

/-! ## Commands, section 2.9 -/

/-- V-CM-1 and V-CM-4. -/
theorem test_write_job :
    (writeJobRule vectorParams 16 0x00000003 State.reset).response.status = .invalidFieldSpec
      ∧ jobAt (writeJobRule vectorParams 0 0x0000FA01 State.reset) 0 = some ⟨.dwell, 0, 250⟩ := by decide +kernel

/-- R202, V-CM-7 and V-CM-8. -/
theorem test_clear_jobs :
    (clearJobsRule vectorParams 3 5 (withJob 5 ⟨.skip, 0, 0⟩)).jobs = []
      ∧ (clearJobsRule vectorParams 3 2 State.reset).response.status = .invalidFieldSpec
      ∧ (clearJobsRule vectorParams 0 16 State.reset).response.status = .invalidFieldSpec := by decide +kernel

/-- V-CM-9; V-CM-10 after a first write. -/
theorem test_write_slot :
    (writeSlotRule vectorParams 8 1 State.reset).response.status = .invalidFieldSpec
      ∧ (slotAt (writeSlotRule vectorParams 2 0x00029553 (writeSlotEntry 2 ⟨0x00029553, true⟩ State.reset)) 2).armed
        = true := by decide +kernel

/-- R208: the entry of the other channel stays. -/
theorem test_rx_update :
    let s := writeRxEntry .rx1 0x153 ⟨true, true, 7⟩ State.reset
    rxAt (rxUpdateRule .rx2 0x153 true false 0x6048D153 s) .rx2 0x153 = ⟨true, false, 0x6048D153⟩
      ∧ rxAt (rxUpdateRule .rx2 0x153 true false 0x6048D153 s) .rx1 0x153 = ⟨true, true, 7⟩ := by decide +kernel

/-- V-CM-11. -/
theorem test_restart :
    let s := setPc 7 (setRet (some 3) (setHalted true (setCancel true (withJob 1 ⟨.stop, 0, 0⟩))))
    restartRule s = respond .ok .none (setPc 0 (withJob 1 ⟨.stop, 0, 0⟩)) := by decide +kernel

/-- R207: the request is only marked. -/
theorem test_cancel : cancelRule State.reset = respond .ok .none (setCancel true State.reset) := by decide +kernel

/-- V-CM-13. -/
theorem test_load_jobs :
    let r := loadJobs vectorParams [(0, 0x00000003), (1, 0x0000000A), (2, 0x00000009)] (withJob 1 ⟨.skip, 0, 0⟩)
    r.1 = .invalidFieldSpec ∧ r.2.jobs = [(0, ⟨.cyclic, 0, 0⟩), (2, ⟨.stop, 0, 0⟩)] ∧ r.2.pc = 0 := by decide +kernel

/-- The loop of program P1 as written syntax (R88): its three words. -/
theorem test_assemble :
    assemble [.label "group_A", .job .cyclic (.at 0), .job .cyclic (.at 1), .job .jump (.label "group_A") 5]
      = some [(0, 0x00000003), (1, 0x00010003), (2, 0x00000506)] := by decide +kernel

/-! ## The step -/

/-- What `step` leaves, as a test of it. -/
def stepSat (s : State) (p : State → Bool) : Bool :=
  match step s with
  | .next t => p t
  | _ => false

/-- A selector, a command and a job word placed at reset each run at the very next step. -/
theorem test_placed_words_run :
    stepSat (State.reset.withFetchWord 8 0x0A) (fun t => t.response = ⟨.ok, .ssm .data⟩) = true
      ∧ stepSat (State.reset.withFetchWord 3 6) (fun t => t.cancel) = true
      ∧ stepSat (State.reset.withFetchWord 32 0x00000709) (fun t => t.halted) = true := by decide +kernel

/-- A job word placed in a halted state with another move pending runs first all the same. -/
theorem test_placed_job_runs_first :
    stepSat ((setPending [.command 5 {}] (setHalted true State.reset)).withFetchWord 32 0x00001401)
      (fun t => t.response = ⟨.ok, .actions [.wait 20]⟩ && t.pending = [.command 5 {}]) = true := by decide +kernel

/-! ## Witnesses: concrete values that meet the hypotheses of each obligation, together, clause by clause

Index 0 is inside every table (`JOB_SLOTS` and `FRAME_SLOTS` are at least 1), so a witness stands there. -/

theorem zero_lt_jobSlots (p : Params) : (0 : Index).toNat < p.jobSlots := Nat.succ_pos _

theorem zero_lt_frameSlots (p : Params) : (0 : Index).toNat < p.frameSlots := Nat.succ_pos _

/-- A state whose next tick executes the job at index 0. -/
theorem ticks_withJob (j : Job) : Ticks (withJob 0 j) j :=
  ⟨rfl, rfl, (fetchJob_eq_some_iff _ _ _ _).2 ⟨zero_lt_jobSlots _, jobAt_writeJobSlot_same 0 j State.reset⟩⟩

/-- EncodedInstructionDecodes. -/
theorem witness_encoded : (Instr.single 0xFFFF 250).wellFormed = true := by decide

/-- JobWordLayout. -/
theorem witness_job_word : decodeJobWord 0xFFFFFA09 = .ok ⟨.stop, 0xFFFF, 250⟩ := by rfl

/-- ReservedRequestsAreRefused, third clause: a reserved selector and the reserved command. -/
theorem witness_reserved :
    (setPending [.codec 0x0B {}] State.reset).pending = [.codec 0x0B {}] ∧ (∀ i, decodeRequest (.codec 0x0B {}) ≠ .ok i)
      ∧ (setPending [.command 7 {}] State.reset).pending = [.command 7 {}]
      ∧ ∀ i, decodeRequest (.command 7 {}) ≠ .ok i :=
  ⟨rfl, fun _ h => (by cases h), rfl, fun _ h => (by cases h)⟩

/-- StepRunsTheDecodedInstruction: a pending request, by decoding and by encoding; nothing pending; a job that ticks. -/
theorem witness_step :
    ((setPending [.command 5 {}] State.reset).pending = [.command 5 {}] ∧ decodeRequest (.command 5 {}) = .ok .restart
        ∧ Instr.restart.wellFormed = true ∧ encode .restart = .request (.command 5 {}))
      ∧ State.reset.pending = []
      ∧ (withJob 0 ⟨.dwell, 0, 20⟩).pending = [] ∧ decode (.job 0x00001401) = .ok (.dwell 0 20)
      ∧ decodeJobWord 0x00001401 = .ok ⟨.dwell, 0, 20⟩ ∧ Ticks (withJob 0 ⟨.dwell, 0, 20⟩) ⟨.dwell, 0, 20⟩ :=
  ⟨⟨rfl, rfl, rfl, rfl⟩, rfl, rfl, rfl, rfl, ticks_withJob _⟩

/-- PlacedWordRunsFirst: a selector, a command and a job word. -/
theorem witness_placed :
    decodeTableWord 8 0x0A = some (.combineSsm 0 0) ∧ decodeTableWord 3 6 = some .cancel
      ∧ decodeTableWord 32 0x00000709 = some (.stop 0 7) := by decide

/-- CodecIsAFunctionOfItsOperands. -/
theorem witness_codec : family (.getBits 0 9 1) = .codec := rfl

/-- GetBitsReadsTheField, SetBitsReplacesTheField, BitFieldLaws: the widest fields, the highest position, and on the
other side of each bound. -/
theorem witness_fields :
    FieldLegal 9 23 ∧ FieldLegal 31 1 ∧ FieldLegal 9 1 ∧ ¬ FieldLegal 8 1 ∧ ¬ FieldLegal 9 0 ∧ ¬ FieldLegal 9 24
      ∧ ¬ FieldLegal 32 1 := by unfold FieldLegal; decide

/-- BitFieldLaws: two fields that touch and share no index, in both orders. -/
theorem witness_disjoint_fields :
    FieldLegal 9 2 ∧ FieldLegal 11 14 ∧ (9 : BitVec 8).toNat + (2 : BitVec 8).toNat ≤ (11 : BitVec 8).toNat := by
  unfold FieldLegal; decide

/-- BcdOperationsRoundTrip: the largest number and word of each clause. -/
theorem witness_bcd :
    (99999999 : BitVec 32).toNat < 10 ^ 8 ∧ (∀ i, i < 8 → (0x99999999 : BitVec 32).toNat / 16 ^ i % 16 ≤ 9)
      ∧ FieldLegal 9 23 := by unfold FieldLegal; decide

/-- RoundIsNearestWithTies: a tie of each sign under each rule. -/
theorem witness_tie :
    |(roundRat .halfAwayFromZero (-5 / 2) : Rat) - (-5 / 2)| = 1 / 2
      ∧ |(roundRat .halfToEven (5 / 2) : Rat) - 5 / 2| = 1 / 2 := by
  have h1 : roundRat .halfAwayFromZero (-5 / 2) = -3 := by decide +kernel
  have h2 : roundRat .halfToEven (5 / 2) = 2 := by decide +kernel
  rw [h1, h2]; norm_num

/-- EngineeringOperandIsExact: 1, negative zero, the smallest positive number and an infinity. -/
theorem witness_operand :
    f64Rat 0x3FF0000000000000 = some 1 ∧ f64Rat 0x8000000000000000 = some 0
      ∧ f64Rat 0x0000000000000001 = some (1 / 2 ^ 1074) ∧ f64Rat 0x7FF0000000000000 = none := by
  refine ⟨by decide +kernel, by decide +kernel, by decide +kernel, by decide +kernel⟩

/-- ResultPortIsNearestBinary64: a tie between 1 and its successor, and the two neighbours. -/
theorem witness_result_port :
    f64Rat (f64Of (1 + 1 / 2 ^ 53)) = some 1 ∧ f64Rat 0x3FF0000000000001 = some (1 + 1 / 2 ^ 52)
      ∧ |(1 + 1 / 2 ^ 53 : Rat) - 1| = |(1 + 1 / 2 ^ 53 : Rat) - (1 + 1 / 2 ^ 52)| ∧ (1 : Rat) ≠ 1 + 1 / 2 ^ 52 := by
  refine ⟨by decide +kernel, by decide +kernel, ?_, by norm_num⟩
  rw [abs_of_pos (by norm_num), abs_of_neg (by norm_num)]; norm_num

/-- ResultPortIsNearestBinary64, finite ports: a rational between two binary64, and the largest finite one itself, each
not above a finite binary64. -/
theorem witness_finite_port :
    (f64Rat 0x3FF0000000000000 = some 1 ∧ |(1 / 3 : Rat)| ≤ |1|)
      ∧ f64Rat 0x7FEFFFFFFFFFFFFF = some ((2 ^ 53 - 1) * 2 ^ 971) ∧ f64Of ((2 ^ 53 - 1) * 2 ^ 971) = 0x7FEFFFFFFFFFFFFF :=
  ⟨⟨by decide +kernel, by rw [abs_of_pos (by norm_num), abs_one]; norm_num⟩, by decide +kernel, by decide +kernel⟩

/-- The checks of `ENC.*` pass on E1: a negative value, SSM written. -/
theorem witness_enc_checked :
    EncChecked 11 14 0xC0BF3F0000000000 0x40BF3F0000000000 0xC093480000000000 1 (-7999) 7999 (-1234) .normalOperation := by
  refine ⟨by unfold FieldLegal; decide, rfl, by decide +kernel, by decide +kernel, by decide +kernel, by norm_num⟩

/-- The same on the range 0 to 255, the value being 165, at the last position where the SSM is written, for a given
intent. -/
theorem witness_enc_checked_positive (code : BitVec 3) (m : SsmValue) (h : ssmOfCode code = some m) :
    EncChecked 15 15 0 0x406FE00000000000 0x4064A00000000000 code 0 255 165 m := by
  refine ⟨by unfold FieldLegal; decide, h, by decide +kernel, by decide +kernel, by decide +kernel, by norm_num⟩

/-- EncBcdEncodes, EncBnrEncodes and EncDiscEncodes: intents with and without an SSM write, at the boundary 15 + 15 = 30;
a range of magnitude other than 0; a value of 0 or more. -/
theorem witness_encodes :
    EncChecked 15 15 0 0x406FE00000000000 0x4064A00000000000 1 0 255 165 .normalOperation
      ∧ EncChecked 15 15 0 0x406FE00000000000 0x4064A00000000000 0 0 255 165 .data
      ∧ EncChecked 15 15 0 0x406FE00000000000 0x4064A00000000000 4 0 255 165 .failureWarning
      ∧ (15 : BitVec 8).toNat + (15 : BitVec 8).toNat ≤ 30 ∧ max |(0 : Rat)| |255| ≠ 0 ∧ (0 : Rat) ≤ 165 :=
  ⟨witness_enc_checked_positive 1 _ rfl, witness_enc_checked_positive 0 _ rfl, witness_enc_checked_positive 4 _ rfl,
    by decide, by norm_num, by norm_num⟩

/-- EncRefusesInOrder: format code 3 pending; a geometry, an intent and a range each illegal; a range of magnitude 0; the
FailureWarning intent (above); a negative value. -/
theorem witness_enc_refuses :
    (setPending [.codec 0x34 {}] State.reset).pending = [.codec 0x34 {}]
      ∧ (¬ ∃ lo hi v m, EncChecked 8 8 0 0 0 1 lo hi v m)
      ∧ (¬ ∃ lo hi v m, EncChecked 9 8 0 0 0 5 lo hi v m)
      ∧ (¬ ∃ lo hi v m, EncChecked 9 8 0 0 0x7FF8000000000000 1 lo hi v m)
      ∧ EncChecked 9 8 0 0 0xBFF0000000000000 1 0 0 (-1) .normalOperation ∧ max |(0 : Rat)| |0| = 0 ∧ (-1 : Rat) < 0 := by
  refine ⟨rfl, ?_, ?_, ?_, ⟨by unfold FieldLegal; decide, rfl, by decide +kernel, by decide +kernel, by decide +kernel,
    le_refl _⟩, by norm_num, by norm_num⟩
  · rintro ⟨lo, hi, v, m, h, -⟩; revert h; unfold FieldLegal; decide
  · rintro ⟨lo, hi, v, m, -, h, -⟩; cases h
  · rintro ⟨lo, hi, v, m, -, -, -, -, h, -⟩
    rw [show f64Rat 0x7FF8000000000000 = none by decide +kernel] at h; cases h

/-- DecBcdDecodes, DecBnrDecodes, DecDiscDecodes: a field below the SSM bits and one that covers them. -/
theorem witness_decodes :
    DecChecked 11 18 0xC09F400000000000 0x409F400000000000 (-2000) 2000
      ∧ DecChecked 16 15 0xC09F400000000000 0x409F400000000000 (-2000) 2000 ∧ max |(-2000 : Rat)| |2000| ≠ 0 := by
  refine ⟨⟨by unfold FieldLegal; decide, by decide +kernel, by decide +kernel, by norm_num⟩,
    ⟨by unfold FieldLegal; decide, by decide +kernel, by decide +kernel, by norm_num⟩, by norm_num⟩

/-- DecRefuses: format code 3 pending; an illegal geometry and a reversed range; a range of magnitude 0. -/
theorem witness_dec_refuses :
    (setPending [.codec 0x35 {}] State.reset).pending = [.codec 0x35 {}]
      ∧ (¬ ∃ lo hi, DecChecked 9 24 0 0 lo hi)
      ∧ (¬ ∃ lo hi, DecChecked 9 8 0x409F400000000000 0 lo hi)
      ∧ DecChecked 9 8 0 0 0 0 ∧ max |(0 : Rat)| |0| = 0 := by
  refine ⟨rfl, ?_, ?_, ⟨by unfold FieldLegal; decide, by decide +kernel, by decide +kernel, le_refl _⟩, by norm_num⟩
  · rintro ⟨lo, hi, h, -⟩; revert h; unfold FieldLegal; decide
  · rintro ⟨lo, hi, -, h1, h2, h3⟩
    rw [show f64Rat 0x409F400000000000 = some 2000 by decide +kernel] at h1
    rw [show f64Rat 0 = some 0 by decide +kernel] at h2
    cases h1; cases h2; revert h3; norm_num

/-- BcdRoundTrip, on E1: the rounded magnitude is 1234 under either tie rule and its digits fit in 14 bits. -/
theorem witness_bcd_round_trip (ties : RoundTies) :
    EncChecked 11 14 0xC0BF3F0000000000 0x40BF3F0000000000 0xC093480000000000 1 (-7999) 7999 (-1234) .normalOperation
      ∧ SsmValue.normalOperation ≠ .failureWarning ∧ SsmValue.normalOperation ≠ .data
      ∧ (11 : BitVec 8).toNat + (14 : BitVec 8).toNat ≤ 30
      ∧ bcdPack (roundRat ties |min (max (-1234) (-7999)) 7999|).toNat < 2 ^ (14 : BitVec 8).toNat := by
  have hc : |min (max (-1234 : Rat) (-7999)) 7999| = 1234 := by norm_num
  refine ⟨witness_enc_checked, by decide, by decide, by decide, ?_⟩
  rw [hc]
  cases ties <;> decide +kernel

/-- BnrRoundTrip: E3's geometry at the boundary 11 + 18 = 29, the value at half scale and at full scale. -/
theorem witness_bnr_round_trip :
    EncChecked 11 18 0xC09F400000000000 0x409F400000000000 0x408F400000000000 1 (-2000) 2000 1000 .normalOperation
      ∧ EncChecked 11 18 0xC09F400000000000 0x409F400000000000 0xC09F400000000000 1 (-2000) 2000 (-2000) .normalOperation
      ∧ max |(-2000 : Rat)| |2000| ≠ 0 ∧ (11 : BitVec 8).toNat + (18 : BitVec 8).toNat ≤ 29
      ∧ |min (max (1000 : Rat) (-2000)) 2000| / (max |(-2000 : Rat)| |2000| / 2 ^ (18 : BitVec 8).toNat)
        < 2 ^ (18 : BitVec 8).toNat - 1 / 2 := by
  refine ⟨⟨by unfold FieldLegal; decide, rfl, by decide +kernel, by decide +kernel, by decide +kernel, by norm_num⟩,
    ⟨by unfold FieldLegal; decide, rfl, by decide +kernel, by decide +kernel, by decide +kernel, by norm_num⟩,
    by norm_num, by decide, ?_⟩
  rw [show (18 : BitVec 8).toNat = 18 from rfl]; norm_num

/-- DiscreteRoundTrip: 165 in 15 bits, for every intent that is written, under either tie rule. -/
theorem witness_discrete_round_trip (ties : RoundTies) :
    EncChecked 15 15 0 0x406FE00000000000 0x4064A00000000000 4 0 255 165 .failureWarning ∧ (0 : Rat) ≤ 165
      ∧ SsmValue.failureWarning ≠ .data ∧ (15 : BitVec 8).toNat + (15 : BitVec 8).toNat ≤ 30
      ∧ (roundRat ties |min (max 165 0) 255|).toNat < 2 ^ (15 : BitVec 8).toNat := by
  have hc : |min (max (165 : Rat) 0) 255| = 165 := by norm_num
  refine ⟨witness_enc_checked_positive 4 _ rfl, by norm_num, by decide, by decide, ?_⟩
  rw [hc]
  cases ties <;> decide +kernel

/-- CreateFrameBuilds, CombineSsmTakesThePriority, FrameAndCombineLaws: the last legal and the first illegal codes, and
fields at the bounds of the third law. -/
theorem witness_frame_operations :
    ((255 : BitVec 16).toNat ≤ 255 ∧ (4 : BitVec 3).toNat ≤ 4) ∧ 255 < (256 : BitVec 16).toNat ∧ 4 < (5 : BitVec 3).toNat
      ∧ FieldLegal 11 19 ∧ (11 : BitVec 8).toNat + (19 : BitVec 8).toNat ≤ 30 := by unfold FieldLegal; decide

/-- Every job statement: a state whose next tick executes the job, for each kind; references and targets of 0 are inside
the tables. -/
theorem witness_job_ticks (kind : JobKind) :
    Ticks (withJob 0 ⟨kind, 0, 250⟩) ⟨kind, 0, 250⟩ ∧ Ticks (withJob 0 ⟨kind, 0, 0⟩) ⟨kind, 0, 0⟩
      ∧ (0 : Index).toNat < Config.params.frameSlots ∧ (0 : Index).toNat < Config.params.jobSlots :=
  ⟨ticks_withJob _, ticks_withJob _, zero_lt_frameSlots _, zero_lt_jobSlots _⟩

/-- SingleSendsAnArmedSlotOnce: an armed non-zero slot, and one that does not send. -/
theorem witness_single :
    (slotAt (writeSlotEntry 0 ⟨7, true⟩ (withJob 0 ⟨.single, 0, 3⟩)) 0).armed = true
      ∧ (slotAt (writeSlotEntry 0 ⟨7, true⟩ (withJob 0 ⟨.single, 0, 3⟩)) 0).raw ≠ 0
      ∧ Ticks (writeSlotEntry 0 ⟨7, true⟩ (withJob 0 ⟨.single, 0, 3⟩)) ⟨.single, 0, 3⟩
      ∧ (slotAt (withJob 0 ⟨.single, 0, 3⟩) 0).armed = false :=
  ⟨by decide, by decide, ticks_withJob ⟨.single, 0, 3⟩, by decide⟩

/-- RetransmitSendsTheReceivedFrame, UnreachableReferenceWarns: the last legal extended label, and the first illegal. -/
theorem witness_retransmit :
    (0x3FF : Index).toNat ≤ 1023 ∧ Ticks (withJob 0 ⟨.retransmitRx1, 0x3FF, 2⟩) ⟨.retransmitRx1, 0x3FF, 2⟩
      ∧ Ticks (withJob 0 ⟨.retransmitRx2, 0x3FF, 2⟩) ⟨.retransmitRx2, 0x3FF, 2⟩
      ∧ 1023 < (0x400 : Index).toNat ∧ Ticks (withJob 0 ⟨.retransmitRx2, 0x400, 2⟩) ⟨.retransmitRx2, 0x400, 2⟩ :=
  ⟨by decide, ticks_withJob _, ticks_withJob _, by decide, ticks_withJob _⟩

/-- UnreachableReferenceWarns and WriteSlotStoresAndArms: the first index past a table of 8 slots; and past the machine's
own table, whenever that has fewer than 65536 slots. -/
theorem witness_past_the_frame_table :
    vectorParams.frameSlots ≤ (8 : Index).toNat
      ∧ (Config.params.frameSlots < 65536 → ∃ r : Index, Config.params.frameSlots ≤ r.toNat
        ∧ Ticks (withJob 0 ⟨.cyclic, r, 0⟩) ⟨.cyclic, r, 0⟩) := by
  refine ⟨by decide, fun h => ⟨BitVec.ofNat 16 Config.params.frameSlots, ?_, ticks_withJob _⟩⟩
  rw [BitVec.toNat_ofNat, Nat.mod_eq_of_lt h]

/-- JumpSavesTheSuccessor and the first clause of MisuseHalts: a JUMP to itself, and one to an empty slot. -/
theorem witness_jump :
    (0 : Index).toNat < Config.params.jobSlots ∧ jobAt (withJob 0 ⟨.jump, 0, 5⟩) 0 ≠ none
      ∧ Ticks (withJob 0 ⟨.jump, 0, 5⟩) ⟨.jump, 0, 5⟩
      ∧ jobAt (withJob 0 ⟨.jump, 12, 5⟩) 12 = none ∧ Ticks (withJob 0 ⟨.jump, 12, 5⟩) ⟨.jump, 12, 5⟩ :=
  ⟨zero_lt_jobSlots _, by decide, ticks_withJob _, by decide, ticks_withJob _⟩

/-- ReturnConsumesTheReturnPoint and the second clause of MisuseHalts. -/
theorem witness_return :
    (setRet (some 3) (withJob 0 ⟨.ret, 0, 5⟩)).ret = some 3
      ∧ Ticks (setRet (some 3) (withJob 0 ⟨.ret, 0, 5⟩)) ⟨.ret, 0, 5⟩
      ∧ (withJob 0 ⟨.ret, 0, 5⟩).ret = none ∧ Ticks (withJob 0 ⟨.ret, 0, 5⟩) ⟨.ret, 0, 5⟩ :=
  ⟨rfl, ticks_withJob ⟨.ret, 0, 5⟩, rfl, ticks_withJob _⟩

/-- TickTestsInOrder: halted; cancelled; an empty slot at `PC`; a job at `PC`. -/
theorem witness_tick :
    (setHalted true State.reset).halted = true
      ∧ ((setCancel true State.reset).halted = false ∧ (setCancel true State.reset).cancel = true)
      ∧ (State.reset.halted = false ∧ State.reset.cancel = false ∧ jobAt State.reset State.reset.pc = none)
      ∧ (withJob 0 ⟨.stop, 0, 7⟩).pc.toNat < Config.params.jobSlots
      ∧ jobAt (withJob 0 ⟨.stop, 0, 7⟩) (withJob 0 ⟨.stop, 0, 7⟩).pc = some ⟨.stop, 0, 7⟩ :=
  ⟨rfl, ⟨rfl, rfl⟩, ⟨rfl, rfl, rfl⟩, zero_lt_jobSlots _, by decide⟩

/-- WriteJobStoresTheRecord: the word with every field at its largest legal value, and one illegal in each field. -/
theorem witness_write_job :
    let ok (w : BitVec 32) := w.toNat % 16 ≤ 9 ∧ w.toNat / 16 % 16 = 0 ∧ w.toNat / 256 % 256 ≤ 250
    ok 0xFFFFFA09 ∧ ¬ ok 0x0000000A ∧ ¬ ok 0x00000019 ∧ ¬ ok 0x0000FB09
      ∧ (0 : Index).toNat < Config.params.jobSlots :=
  ⟨by decide, by decide, by decide, by decide, zero_lt_jobSlots _⟩

/-- ClearJobsEmptiesTheRange: a range of one slot, and an empty range. -/
theorem witness_clear_jobs :
    (0 : Index).toNat ≤ (0 : Index).toNat ∧ (0 : Index).toNat < Config.params.jobSlots
      ∧ (2 : Index).toNat < (3 : Index).toNat :=
  ⟨by decide, zero_lt_jobSlots _, by decide⟩

/-- LoadJobsBuildsTheTable: a good word and a bad one, with a further move behind them. -/
theorem witness_load_jobs :
    let l : List (Index × BitVec 32) := [(0, 0x00000003), (0, 0x0000000A)]
    (setPending (loadJobsRequests Config.params l ++ [.command 0 {}]) State.reset).pending
      = loadJobsRequests Config.params l ++ [.command 0 {}] := rfl

/-- StepKeepsTheInvariant, ResponseAndPendingAreNotRead, TickActionLists: a state that meets the invariant, and the state
a tick leads to. -/
theorem witness_invariant :
    Inv State.reset ∧ (∃ t, step State.reset = .next t) ∧ Memory.wf Config.params State.reset = true
      ∧ ∃ t, exec .tick State.reset = .next t :=
  ⟨⟨rfl, rfl⟩, ⟨_, rfl⟩, rfl, ⟨_, rfl⟩⟩

/-- CanonicalTablesAreEqualData: a table with its first and last entry. -/
theorem witness_canonical :
    tableWf 16 (fun j : Job => dwellOk j.dwellMs) [(0, ⟨.skip, 0, 250⟩), (15, ⟨.stop, 0, 0⟩)] = true
      ∧ tableWf 8 (fun e => e != emptySlot) [(0, ⟨1, true⟩), (7, ⟨0, true⟩)] = true := by decide

/-- OnlyTheseHaltAndWake: an instruction that halts, and the one that wakes. -/
theorem witness_halt_and_wake :
    (∃ t, exec (.stop 0 0) State.reset = .next t ∧ State.reset.halted = false ∧ t.halted = true)
      ∧ ∃ t, exec .restart (setHalted true State.reset) = .next t ∧ t.halted = false :=
  ⟨⟨_, rfl, rfl, rfl⟩, ⟨_, rfl, rfl⟩⟩

/-- OnlyTheOwnersWrite: each piece of state changed by an instruction that owns it. -/
theorem witness_owners :
    (∃ t, exec (.writeJob 0 0x00000003) State.reset = .next t ∧ t.jobs ≠ State.reset.jobs)
      ∧ (∃ t, exec (.writeSlot 0 7) State.reset = .next t ∧ (slotAt t 0).raw ≠ (slotAt State.reset 0).raw
        ∧ (slotAt t 0).armed ≠ (slotAt State.reset 0).armed)
      ∧ (∃ t, exec (.rxUpdate .rx1 3 true false 7) State.reset = .next t ∧ rxAt t .rx1 3 ≠ rxAt State.reset .rx1 3)
      ∧ (∃ t, exec (.skip 0 0) State.reset = .next t ∧ t.pc ≠ State.reset.pc)
      ∧ (∃ t, exec (.ret 0 0) (setRet (some 3) State.reset) = .next t ∧ t.ret ≠ some 3)
      ∧ ∃ t, exec .cancel State.reset = .next t ∧ t.cancel ≠ State.reset.cancel := by
  refine ⟨⟨_, rfl, ?_⟩, ⟨_, rfl, ?_, ?_⟩, ⟨_, rfl, by decide⟩, ⟨_, rfl, by decide⟩, ⟨_, rfl, by decide⟩,
    ⟨_, rfl, by decide⟩⟩
  · rw [writeJobRule, if_pos (zero_lt_jobSlots _)]; decide
  · rw [writeSlotRule, if_pos (zero_lt_frameSlots _)]; decide
  · rw [writeSlotRule, if_pos (zero_lt_frameSlots _)]; decide

/-- HaltedIsStableUnderTicks, the prefix of a run: R207's worked example, CANCEL and then a tick. The run is over after
two of the three steps asked for, and the trace holds what each returned. -/
theorem test_cancelled_run :
    let r := runPrefix 3 (setPending [.command 6 {}] State.reset)
    r.final.halted = true ∧ r.final.pc = 0 ∧ runTrace r = [([], .ok), ([.halted], .ok)] := by decide +kernel

/-- HaltedIsStableUnderTicks, the end of a run: a STOP ends it (R185), and a run still going has not ended. -/
theorem witness_run_ends :
    RunEnds (withJob 0 ⟨.stop, 0, 7⟩) (endTick .ok [.halted] (setHalted true (withJob 0 ⟨.stop, 0, 7⟩)))
        [⟨.ok, .actions [.halted]⟩]
      ∧ ¬ runOver (runPrefix 1 State.reset).final := by
  refine ⟨⟨⟨1, by decide +kernel⟩, rfl⟩, ?_⟩
  have h : (runPrefix 1 State.reset).final.halted = false := by decide +kernel
  rw [runOver, h]; exact Bool.false_ne_true

/-- HaltedIsStableUnderTicks, WrittenSlotIsSentOnce. -/
theorem witness_halted_and_written :
    (setHalted true State.reset).halted = true ∧ (setHalted true State.reset).pending = []
      ∧ (0 : Index).toNat < Config.params.frameSlots ∧ (7 : Frame) ≠ 0 :=
  ⟨rfl, rfl, zero_lt_frameSlots _, by decide⟩

end Sys2Proof.Tests
end

section
/-! The codec operations have one shape, a result computed from the operands and then `codecEnd` (10_state.md R20). -/

namespace Sys2Proof.Machine

/-- R20 at the level of `exec`: the result `r` is chosen before the state `s` is given. -/
theorem exec_eq_codecEnd {i : Instr} (h : family i = .codec) :
    ∃ r : Except Status Result, ∀ s : State, exec i s = codecEnd r s := by
  cases i with
  | getBits | setBits => exact ⟨_, fun _ => rfl⟩
  | bin2bcd n => exact ⟨.ok (.bcd (bin2bcdWord n)), fun _ => rfl⟩
  | bcd2bin b => exact ⟨.ok (.n (bcd2binWord b)), fun _ => rfl⟩
  | encBcd | encBnr | encDisc => exact ⟨_, fun _ => rfl⟩
  | decBcd | decBnr | decDisc => exact ⟨_, fun _ => rfl⟩
  | createFrame | combineSsm => exact ⟨_, fun _ => rfl⟩
  | readLabel f => exact ⟨.ok (.label (f.extractLsb' 0 8)), fun _ => rfl⟩
  | readSdi f => exact ⟨.ok (.sdi (f.extractLsb' 8 2)), fun _ => rfl⟩
  | readSsmRaw f => exact ⟨.ok (.ssmRaw (ssmRawBits f)), fun _ => rfl⟩
  | skip | dwell | single | cyclic | retx1 | retx2 | jump | ret | callback | stop => cases h
  | tick | writeJob | clearJobs | writeSlot | rxUpdate | restart | cancel => cases h

/-- Settles O8: every codec operation is `codecEnd` of a result that no state enters, and `codecEnd` only responds. -/
theorem codecIsAFunctionOfItsOperands : Obligations.CodecIsAFunctionOfItsOperands := by
  intro i hi
  obtain ⟨r, hexec⟩ := exec_eq_codecEnd hi
  obtain ⟨st, v, hend⟩ := codecEnd_next r
  exact ⟨st, v, fun s => (hexec s).trans (hend s)⟩

end Sys2Proof.Machine
end

section
/-! GET_BITS and SET_BITS on either side of the geometry check (40_bitfield.md R100 to R102). -/

namespace Sys2Proof.Machine

/-- R101, a legal geometry. -/
theorem getBits_answers_value {lsbPos size : BitVec 8} (h : FieldLegal lsbPos size) (frame : Frame) (s : State) :
    Answers (.getBits frame lsbPos size) s .ok (.value (fieldBits frame lsbPos size)) :=
  congrArg (codecEnd · s) (if_pos ((fieldOk_iff lsbPos size).2 h))

/-- R101, an illegal geometry. -/
theorem getBits_answers_error {lsbPos size : BitVec 8} (h : ¬ FieldLegal lsbPos size) (frame : Frame) (s : State) :
    Answers (.getBits frame lsbPos size) s .invalidFieldSpec .none :=
  congrArg (codecEnd · s) (if_neg (mt (fieldOk_iff lsbPos size).1 h))

/-- R102, a legal geometry. -/
theorem setBits_answers_frame {lsbPos size : BitVec 8} (h : FieldLegal lsbPos size) (frame : Frame) (value : BitVec 32)
    (s : State) :
    Answers (.setBits frame lsbPos size value) s .ok (.frameOut (withField frame lsbPos size value)) :=
  congrArg (codecEnd · s) (if_pos ((fieldOk_iff lsbPos size).2 h))

/-- R102, an illegal geometry. -/
theorem setBits_answers_error {lsbPos size : BitVec 8} (h : ¬ FieldLegal lsbPos size) (frame : Frame)
    (value : BitVec 32) (s : State) : Answers (.setBits frame lsbPos size value) s .invalidFieldSpec .none :=
  congrArg (codecEnd · s) (if_neg (mt (fieldOk_iff lsbPos size).1 h))

/-- Inside the field, R102 writes the low bits of the value. -/
theorem getLsbD_withField_inside {lsbPos size : BitVec 8} (h : FieldLegal lsbPos size) (f : Frame) (v : BitVec 32)
    {k : Nat} (hk : k < size.toNat) :
    (withField f lsbPos size v).getLsbD (lsbPos.toNat - 1 + k) = v.getLsbD k := by
  rw [getLsbD_withField h, if_pos (by omega), Nat.add_sub_cancel_left]

/-- Outside the field, R102 keeps the frame. -/
theorem getLsbD_withField_outside {lsbPos size : BitVec 8} (h : FieldLegal lsbPos size) (f : Frame) (v : BitVec 32)
    {k : Nat} (hk : ¬ (lsbPos.toNat - 1 ≤ k ∧ k < lsbPos.toNat - 1 + size.toNat)) :
    (withField f lsbPos size v).getLsbD k = f.getLsbD k := by
  rw [getLsbD_withField h, if_neg hk]

/-- Settles O9: on a legal geometry the value is `fieldBits`, known bit by bit; on any other the check fails. -/
theorem getBitsReadsTheField : Obligations.GetBitsReadsTheField := by
  intro frame lsbPos size s
  constructor
  · intro h
    exact ⟨_, getBits_answers_value h frame s, getLsbD_fieldBits h frame⟩
  · intro h
    exact getBits_answers_error h frame s

/-- Settles O10: on a legal geometry the frame is `withField`, known inside and outside the field; on any other the
check fails. -/
theorem setBitsReplacesTheField : Obligations.SetBitsReplacesTheField := by
  intro frame lsbPos size value s
  constructor
  · intro h
    refine ⟨_, setBits_answers_frame h frame value s, ?_, ?_⟩
    · intro k hk
      exact getLsbD_withField_inside h frame value hk
    · intro k hk
      exact getLsbD_withField_outside h frame value hk
  · intro h
    exact setBits_answers_error h frame value s

end Sys2Proof.Machine
end

section
/-! The port `F64(q)` rounds the magnitude of `q`, counted in units of `2^-1074`, to a whole number of places of `2^s`
units, and no finite binary64 lies closer (00_scope.md R12, 43_value_decode.md R143, R148). -/

namespace Sys2Proof.Machine

/-! ## The places and the mantissa that `f64Magnitude` lays out -/

/-- How many places the mantissa of `n / d` lies above the unit `2^-1074`. -/
def f64Places (n d : Nat) : Nat := (n * 2 ^ 1074 / d).log2 - 52

/-- `n / d` rounded to a whole number of places, ties to even. -/
def f64Mantissa (n d : Nat) : Nat := divRoundEven (n * 2 ^ 1074) (d * 2 ^ f64Places n d)

theorem f64Magnitude_eq (n d : Nat) :
    f64Magnitude n d = min (f64Places n d * 2 ^ 52 + f64Mantissa n d) 0x7FF0000000000000 := rfl

/-- The quotient has at most 53 bits above the last place. -/
theorem units_lt_two_pow_f64Places {d : Nat} (hd : 0 < d) (n : Nat) :
    n * 2 ^ 1074 < 2 ^ 53 * (d * 2 ^ f64Places n d) := by
  have hexp : 2 ^ ((n * 2 ^ 1074 / d).log2 + 1) ≤ 2 ^ (53 + f64Places n d) :=
    Nat.pow_le_pow_right (by omega) (by unfold f64Places; omega)
  have h := (Nat.div_lt_iff_lt_mul hd).1 (lt_of_lt_of_le Nat.lt_log2_self hexp)
  rwa [Nat.pow_add, Nat.mul_assoc, Nat.mul_comm _ d] at h

/-- The quotient has 53 bits above the last place, unless the last place is the unit itself. -/
theorem two_pow_f64Places_le_units {n d : Nat} (hd : 0 < d) (hs : f64Places n d ≠ 0) :
    2 ^ 52 * (d * 2 ^ f64Places n d) ≤ n * 2 ^ 1074 := by
  have hlog : 52 + f64Places n d = (n * 2 ^ 1074 / d).log2 := by unfold f64Places at hs ⊢; omega
  have hpos : n * 2 ^ 1074 / d ≠ 0 := by
    intro h0
    rw [h0, Nat.log2_zero] at hlog
    omega
  have h : 2 ^ (52 + f64Places n d) ≤ n * 2 ^ 1074 / d := hlog ▸ Nat.log2_self_le hpos
  rwa [Nat.le_div_iff_mul_le hd, Nat.pow_add, Nat.mul_assoc, Nat.mul_comm _ d] at h

/-- What a finite pattern of `f64Magnitude` is worth. -/
theorem f64Units_f64Magnitude {n d : Nat} (hd : 0 < d) (h : f64Magnitude n d < 0x7FF0000000000000) :
    f64Units (f64Magnitude n d) = f64Mantissa n d * 2 ^ f64Places n d := by
  have hds : 0 < d * 2 ^ f64Places n d := Nat.mul_pos hd (Nat.two_pow_pos _)
  have hle : f64Mantissa n d ≤ 2 ^ 53 := divRoundEven_le hds (units_lt_two_pow_f64Places hd n).le
  have hge : 2 ^ 52 ≤ f64Mantissa n d ∨ f64Places n d = 0 :=
    or_iff_not_imp_right.2 fun hs => le_divRoundEven hds (two_pow_f64Places_le_units hd hs)
  rw [f64Magnitude_eq] at h ⊢
  rw [min_eq_left (by omega), f64Units_layout hle hge]

/-- The last bit of a finite pattern is that of its mantissa. -/
theorem f64Magnitude_mod_two {n d : Nat} (h : f64Magnitude n d < 0x7FF0000000000000) :
    f64Magnitude n d % 2 = f64Mantissa n d % 2 := by
  rw [f64Magnitude_eq] at h ⊢
  omega

/-! ## The sign -/

/-- The sign that a sign bit stands for. -/
def f64Sign (negative : Bool) : Rat := if negative then -1 else 1

theorem f64Sign_mul_self (b : Bool) : f64Sign b * f64Sign b = 1 := by cases b <;> simp [f64Sign]

theorem abs_f64Sign (b : Bool) : |f64Sign b| = 1 := by cases b <;> simp [f64Sign]

/-- The sign bit of the port, that of zero being positive (R143), and the magnitude give back the rational. -/
theorem f64Sign_msb_mul_abs (q : Rat) : f64Sign (f64Of q).msb * |q| = q := by
  rw [f64Of_msb, f64Sign]
  rcases lt_or_ge q 0 with h | h
  · rw [if_pos (decide_eq_true h), abs_of_neg h, neg_mul_neg, one_mul]
  · rw [if_neg (by simpa using h), abs_of_nonneg h, one_mul]

/-- A distance does not change when the sign moves to the other side. -/
theorem abs_f64Sign_mul_sub (b : Bool) (a z : Rat) : |f64Sign b * a - z| = |a - f64Sign b * z| := by
  calc |f64Sign b * a - z| = |f64Sign b * (a - f64Sign b * z)| := by
        rw [mul_sub, ← mul_assoc, f64Sign_mul_self, one_mul]
    _ = |a - f64Sign b * z| := by rw [abs_mul, abs_f64Sign, one_mul]

/-! ## The grid of the finite binary64 -/

/-- `z`, in units of `2^-1074`, is whole, and where it reaches the bit 52 places above a place it is a whole number of
such places: what every finite binary64 satisfies. -/
def OnF64Grid (z : Rat) : Prop := ∀ s : Nat, s = 0 ∨ 2 ^ (52 + s) ≤ |z| → ∃ c : Int, z = c * 2 ^ s

theorem onF64Grid_f64Units (m : Nat) : OnF64Grid (f64Units m) := by
  rintro s (rfl | hs)
  · exact ⟨f64Units m, by rw [pow_zero, mul_one, Int.cast_natCast]⟩
  · rw [Nat.abs_cast] at hs
    obtain ⟨c, hc⟩ := f64Units_multiple (m := m) (s := s) (by exact_mod_cast hs)
    exact ⟨c, by rw [hc]; push_cast; rfl⟩

theorem OnF64Grid.sign_mul {z : Rat} (h : OnF64Grid z) (b : Bool) : OnF64Grid (f64Sign b * z) := by
  intro s hs
  obtain ⟨c, rfl⟩ := h s (by rwa [abs_mul, abs_f64Sign, one_mul] at hs)
  cases b
  · exact ⟨c, one_mul _⟩
  · exact ⟨-c, by rw [Int.cast_neg, neg_mul]; exact neg_one_mul _⟩

/-- A finite operand is its sign and the worth of its magnitude. -/
theorem f64Rat_some {g : F64} {y : Rat} (h : f64Rat g = some y) :
    g.toNat % 2 ^ 63 < 0x7FF0000000000000 ∧ y * 2 ^ 1074 = f64Sign g.msb * f64Units (g.toNat % 2 ^ 63) := by
  rw [f64Rat_eq] at h
  split at h
  · cases h
  · cases h
    exact ⟨by omega, div_mul_cancel₀ _ (by positivity)⟩

theorem onF64Grid_f64Rat {g : F64} {y : Rat} (h : f64Rat g = some y) : OnF64Grid (y * 2 ^ 1074) := by
  rw [(f64Rat_some h).2]
  exact (onF64Grid_f64Units _).sign_mul _

theorem abs_f64Rat {g : F64} {y : Rat} (h : f64Rat g = some y) :
    |y| * 2 ^ 1074 = (f64Units (g.toNat % 2 ^ 63) : Rat) := by
  have habs := congrArg abs (f64Rat_some h).2
  rwa [abs_mul, abs_mul, abs_f64Sign, one_mul, Nat.abs_cast, abs_of_pos (a := 2 ^ 1074) (by positivity)] at habs

/-! ## No point of the grid lies closer -/

/-- A distance scales with its unit. -/
theorem abs_mul_sub_mul_of_pos {k : Rat} (hk : 0 < k) (a b : Rat) : |a * k - b * k| = |a - b| * k := by
  rw [← sub_mul, abs_mul, abs_of_pos hk]

/-- A whole number of places within half a place of `a` is a nearest one, and another is as near only where `a` lies
half way between two. -/
theorem nearest_of_le_half_place {a p : Rat} (hp : 0 < p) {r : Nat} (h : |a - r * p| ≤ p / 2) (c : Int) :
    |a - r * p| ≤ |a - c * p| ∧ (|a - r * p| = |a - c * p| → r * p ≠ c * p → |a - r * p| = p / 2) := by
  rcases eq_or_ne (r : Int) c with rfl | hne
  · rw [Int.cast_natCast]
    exact ⟨le_rfl, fun _ hne => absurd rfl hne⟩
  · have hplace : p ≤ |r * p - c * p| := by
      rw [abs_mul_sub_mul_of_pos hp]
      exact le_mul_of_one_le_left hp.le (by exact_mod_cast Int.one_le_abs (sub_ne_zero.2 hne))
    have htri := abs_sub_le (r * p) a (c * p)
    rw [abs_sub_comm (r * p) a] at htri
    exact ⟨by linarith, fun heq _ => by linarith⟩

/-- The exact magnitude, in units of `2^-1074`. -/
def exactUnits (n d : Nat) : Rat := n * 2 ^ 1074 / d

/-- The magnitude `f64Magnitude` lays out, in units of `2^-1074`. -/
def portUnits (n d : Nat) : Rat := f64Mantissa n d * 2 ^ f64Places n d

/-- The port is within half a place of the exact magnitude, and its mantissa is even at just half a place. -/
theorem portUnits_spec (n : Nat) {d : Nat} (hd : 0 < d) :
    |exactUnits n d - portUnits n d| ≤ 2 ^ f64Places n d / 2
      ∧ (|exactUnits n d - portUnits n d| = 2 ^ f64Places n d / 2 → f64Mantissa n d % 2 = 0) := by
  have hp : (0 : Rat) < 2 ^ f64Places n d := by positivity
  have hspec := divRoundEven_spec (n * 2 ^ 1074) (Nat.mul_pos hd (Nat.two_pow_pos (f64Places n d)))
  have hscale : |exactUnits n d - portUnits n d|
      = |(f64Mantissa n d : Rat) - (n * 2 ^ 1074 : Nat) / (d * 2 ^ f64Places n d : Nat)| * 2 ^ f64Places n d := by
    rw [abs_sub_comm, ← abs_mul_sub_mul_of_pos hp, Nat.cast_mul d, ← div_div, Nat.cast_pow 2 (f64Places n d),
      Nat.cast_ofNat, div_mul_cancel₀ _ hp.ne', Nat.cast_mul n, Nat.cast_pow, Nat.cast_ofNat, portUnits,
      exactUnits]
  rw [hscale]
  refine ⟨?_, fun h => hspec.2 ?_⟩
  · calc _ ≤ 1 / 2 * 2 ^ f64Places n d := mul_le_mul_of_nonneg_right hspec.1 hp.le
      _ = _ := one_div_mul_eq_div _ _
  · exact mul_right_cancel₀ hp.ne' (h.trans (one_div_mul_eq_div _ _).symm)

/-- Where the last place is above the unit, the exact magnitude has 53 bits above it. -/
theorem le_exactUnits {n d : Nat} (hd : 0 < d) (hs : f64Places n d ≠ 0) :
    2 ^ (52 + f64Places n d) ≤ exactUnits n d := by
  have h := two_pow_f64Places_le_units hd hs
  rw [Nat.mul_left_comm, ← Nat.pow_add, Nat.mul_comm] at h
  exact (le_div_iff₀ (by exact_mod_cast hd)).2 (by exact_mod_cast h)

/-- No point of the grid is closer to the exact magnitude than the port, and where another is as close the mantissa is
even. A point is a whole number of the port's places, or lies below the least one of 53 bits. -/
theorem portUnits_nearest (n : Nat) {d : Nat} (hd : 0 < d) {z : Rat} (hz : OnF64Grid z) :
    |exactUnits n d - portUnits n d| ≤ |exactUnits n d - z|
      ∧ (|exactUnits n d - portUnits n d| = |exactUnits n d - z| → portUnits n d ≠ z → f64Mantissa n d % 2 = 0) := by
  obtain ⟨hhalf, heven⟩ := portUnits_spec n hd
  have hplace := nearest_of_le_half_place (by positivity) hhalf
  by_cases hs : f64Places n d = 0 ∨ 2 ^ (52 + f64Places n d) ≤ |z|
  · obtain ⟨c, rfl⟩ := hz _ hs
    exact ⟨(hplace c).1, fun heq hne => heven ((hplace c).2 heq hne)⟩
  · obtain ⟨hs0, hlt⟩ := not_or.1 hs
    have hbelow := le_exactUnits hd hs0
    have hz' : z < 2 ^ (52 + f64Places n d) := (le_abs_self z).trans_lt (not_le.1 hlt)
    have hbound : |exactUnits n d - portUnits n d| ≤ exactUnits n d - 2 ^ (52 + f64Places n d) := by
      have h := (hplace (2 ^ 52)).1
      rwa [Int.cast_pow, Int.cast_ofNat, ← pow_add, abs_of_nonneg (sub_nonneg.2 hbelow)] at h
    have hcloser : |exactUnits n d - portUnits n d| < |exactUnits n d - z| :=
      lt_of_lt_of_le (by linarith) (le_abs_self _)
    exact ⟨hcloser.le, fun heq => absurd heq hcloser.ne⟩

/-! ## The port -/

/-- R143. -/
theorem f64Of_zero : f64Of 0 = 0 := by decide +kernel

theorem abs_eq_natAbs_div_den (q : Rat) : |q| = (q.num.natAbs : Rat) / q.den := by
  rw [Nat.cast_natAbs, Int.cast_abs, ← Nat.abs_cast q.den, ← abs_div, Rat.num_div_den]

/-- A rational in units of `2^-1074`. -/
theorem rat_units (q : Rat) : q * 2 ^ 1074 = f64Sign (f64Of q).msb * exactUnits q.num.natAbs q.den := by
  rw [exactUnits, mul_div_right_comm, ← mul_assoc, ← abs_eq_natAbs_div_den, f64Sign_msb_mul_abs]

/-- A finite port in units of `2^-1074`. -/
theorem f64Of_units {q x : Rat} (h : f64Rat (f64Of q) = some x) :
    x * 2 ^ 1074 = f64Sign (f64Of q).msb * portUnits q.num.natAbs q.den := by
  obtain ⟨hfin, hx⟩ := f64Rat_some h
  rw [f64Of_magnitude] at hfin hx
  rw [hx, f64Units_f64Magnitude q.den_pos hfin, portUnits, Nat.cast_mul, Nat.cast_pow, Nat.cast_ofNat]

/-- A rational that a finite binary64 equals or exceeds in magnitude has a finite port. -/
theorem f64Of_finite {q y : Rat} {g : F64} (hy : f64Rat g = some y) (hle : |q| ≤ |y|) : f64Rat (f64Of q) ≠ none := by
  have hbound : q.num.natAbs * 2 ^ 1074 ≤ f64Units (g.toNat % 2 ^ 63) * q.den := by
    have h := mul_le_mul_of_nonneg_right hle (show (0 : Rat) ≤ 2 ^ 1074 by positivity)
    rw [abs_f64Rat hy, abs_eq_natAbs_div_den, ← mul_div_right_comm, div_le_iff₀ (by exact_mod_cast q.den_pos)] at h
    exact_mod_cast h
  have hfin : f64Magnitude q.num.natAbs q.den < 0x7FF0000000000000 :=
    f64Magnitude_lt q.den_pos (hbound.trans (Nat.mul_le_mul_right _ (f64Units_le (f64Rat_some hy).1)))
  rw [f64Rat_eq, f64Of_magnitude, if_neg (by omega)]
  exact Option.some_ne_none _

/-- A finite port carries a nearest binary64, and its mantissa is even where another is as near. -/
theorem f64Of_nearest {q x y : Rat} {g : F64} (hx : f64Rat (f64Of q) = some x) (hy : f64Rat g = some y) :
    |q - x| ≤ |q - y| ∧ (|q - x| = |q - y| → x ≠ y → f64Mantissa q.num.natAbs q.den % 2 = 0) := by
  have hK : (0 : Rat) < 2 ^ 1074 := by positivity
  obtain ⟨hle, htie⟩ := portUnits_nearest q.num.natAbs q.den_pos ((onF64Grid_f64Rat hy).sign_mul (f64Of q).msb)
  have hqx : |exactUnits q.num.natAbs q.den - portUnits q.num.natAbs q.den| = |q - x| * 2 ^ 1074 := by
    rw [← abs_mul_sub_mul_of_pos hK, rat_units q, f64Of_units hx, abs_f64Sign_mul_sub, ← mul_assoc,
      f64Sign_mul_self, one_mul]
  have hqy : |exactUnits q.num.natAbs q.den - f64Sign (f64Of q).msb * (y * 2 ^ 1074)| = |q - y| * 2 ^ 1074 := by
    rw [← abs_mul_sub_mul_of_pos hK, rat_units q, abs_f64Sign_mul_sub]
  rw [hqx, hqy] at hle htie
  refine ⟨le_of_mul_le_mul_right hle hK, fun heq hne => htie (by rw [heq]) fun h => hne ?_⟩
  apply mul_right_cancel₀ hK.ne'
  rw [f64Of_units hx, h, ← mul_assoc, f64Sign_mul_self, one_mul]

/-- A finite port with an even mantissa has 0 in its last bit. -/
theorem getLsbD_zero_f64Of {q x : Rat} (hx : f64Rat (f64Of q) = some x)
    (heven : f64Mantissa q.num.natAbs q.den % 2 = 0) : (f64Of q).getLsbD 0 = false := by
  have hfin := (f64Rat_some hx).1
  have hmod := f64Of_magnitude q
  rw [hmod] at hfin
  have h2 := f64Magnitude_mod_two hfin
  rw [BitVec.getLsbD, Nat.testBit_zero, decide_eq_false]
  omega

/-- Settles O18: the port of 0 is computed; a bound in magnitude keeps the port finite; a finite port is nearest, and
on a tie its mantissa, whose last bit is the port's, is even. -/
theorem resultPortIsNearestBinary64 : Obligations.ResultPortIsNearestBinary64 := by
  refine ⟨f64Of_zero, fun q y g hy hle => f64Of_finite hy hle, fun q x y g hx hy => ?_⟩
  obtain ⟨hle, htie⟩ := f64Of_nearest hx hy
  exact ⟨hle, fun heq hne => getLsbD_zero_f64Of hx (htie heq hne)⟩

end Sys2Proof.Machine
end

section
/-! CREATE_FRAME on either side of its one check, and the three readers (44_frame_builder_reader.md R160 to R163). -/

namespace Sys2Proof.Machine

/-! ## The SDI mode codes (30_encoding.md R73) -/

/-- A mode is read back from its code. -/
@[simp] theorem sdiModeOfCode_sdiModeCode (m : SdiMode) : sdiModeOfCode (sdiModeCode m) = some m := by
  cases m <;> rfl

/-- A code is that of the mode it is read as. -/
theorem sdiModeCode_of_sdiModeOfCode {c : BitVec 3} {m : SdiMode} (h : sdiModeOfCode c = some m) :
    sdiModeCode m = c := by
  revert c; cases m <;> decide

/-- The codes 5 to 7, and only they, are those of no mode. -/
theorem sdiModeOfCode_eq_none_iff (c : BitVec 3) : sdiModeOfCode c = none ↔ 4 < c.toNat := by
  revert c; decide

theorem exists_sdiModeCode_eq {c : BitVec 3} (h : c.toNat ≤ 4) : ∃ m, sdiModeCode m = c := by
  have hread : sdiModeOfCode c ≠ none := mt (sdiModeOfCode_eq_none_iff c).1 (Nat.not_lt.2 h)
  obtain ⟨m, hm⟩ := Option.ne_none_iff_exists'.1 hread
  exact ⟨m, sdiModeCode_of_sdiModeOfCode hm⟩

/-! ## The frame of a label and a mode (R160) -/

/-- A code above an 8-bit label is added to it: the two share no bit. -/
theorem toNat_label_or_code {label : BitVec 16} (h : label.toNat ≤ 255) (code : BitVec 3) :
    (label.zeroExtend 32 ||| (code.zeroExtend 32 <<< 8)).toNat = label.toNat + code.toNat * 256 := by
  have hlabel : (label.zeroExtend 32).toNat = label.toNat := BitVec.toNat_setWidth_of_le (by omega)
  have hcode : (code.zeroExtend 32 <<< 8).toNat = code.toNat <<< 8 := by
    rw [BitVec.toNat_shiftLeft, BitVec.toNat_setWidth_of_le (by omega), Nat.shiftLeft_eq]; omega
  have hlt : label.toNat < 2 ^ 8 := by omega
  rw [BitVec.toNat_or, hlabel, hcode, Nat.or_comm, ← Nat.shiftLeft_add_eq_or_of_lt hlt, Nat.shiftLeft_eq, Nat.add_comm]

/-- `Data` leaves 9:8 at 0; any other mode puts its code there. -/
theorem toNat_newFrame {label : BitVec 16} (h : label.toNat ≤ 255) (m : SdiMode) :
    (newFrame label m).toNat
      = label.toNat + if (sdiModeCode m).toNat = 4 then 0 else (sdiModeCode m).toNat * 256 := by
  cases m with
  | data => exact BitVec.toNat_setWidth_of_le (by omega)
  | sdi0 | sdi1 | sdi2 | sdi3 => exact toNat_label_or_code h _

/-! ## The answers -/

/-- R160, a legal label and mode. -/
theorem createFrame_answers_frame {label : BitVec 16} (h : label.toNat ≤ 255) (m : SdiMode) (s : State) :
    Answers (.createFrame label (sdiModeCode m)) s .ok (.frameOut (newFrame label m)) := by
  have hres : createFrameResult label (sdiModeCode m) = .ok (.frameOut (newFrame label m)) := by
    rw [createFrameResult, sdiModeOfCode_sdiModeCode]
    exact if_neg (Nat.not_lt.2 h)
  exact congrArg (codecEnd · s) hres

/-- R160, an illegal label or mode. -/
theorem createFrame_answers_error {label : BitVec 16} {sdi : BitVec 3} (h : 255 < label.toNat ∨ 4 < sdi.toNat)
    (s : State) : Answers (.createFrame label sdi) s .invalidLabelOrSdi .none := by
  have hres : createFrameResult label sdi = .error .invalidLabelOrSdi := by
    rw [createFrameResult]
    rcases h with hlabel | hsdi
    · cases sdiModeOfCode sdi with
      | none => rfl
      | some m => exact if_pos hlabel
    · rw [(sdiModeOfCode_eq_none_iff sdi).2 hsdi]
  exact congrArg (codecEnd · s) hres

/-- R161. -/
theorem readLabel_answers (f : Frame) (s : State) : Answers (.readLabel f) s .ok (.label (f.extractLsb' 0 8)) := rfl

/-- R162: there is no other case. -/
theorem readSdi_answers (f : Frame) (s : State) : Answers (.readSdi f) s .ok (.sdi (f.extractLsb' 8 2)) := rfl

/-- R163. -/
theorem readSsmRaw_answers (f : Frame) (s : State) : Answers (.readSsmRaw f) s .ok (.ssmRaw (ssmRawBits f)) := rfl

/-- Settles O30: a code of at most 4 is that of a mode, and the frame of label and mode is known as a number; any other
operands fail the check. -/
theorem createFrameBuilds : Obligations.CreateFrameBuilds := by
  intro label sdi s
  constructor
  · intro hlabel hsdi
    obtain ⟨m, rfl⟩ := exists_sdiModeCode_eq hsdi
    exact ⟨_, createFrame_answers_frame hlabel m s, toNat_newFrame hlabel m⟩
  · intro h
    exact createFrame_answers_error h s

/-- Settles O31: each reader answers an extract of the frame, which is a quotient and a remainder of it. -/
theorem readersReadTheirBits : Obligations.ReadersReadTheirBits := by
  intro f s
  refine ⟨⟨_, readLabel_answers f s, ?_⟩, ⟨_, readSdi_answers f s, ?_⟩, ⟨_, readSsmRaw_answers f s, ?_⟩⟩
  · rw [BitVec.extractLsb'_toNat, Nat.shiftRight_zero]
  · rw [BitVec.extractLsb'_toNat, Nat.shiftRight_eq_div_pow]
  · exact toNat_ssmRawBits f

end Sys2Proof.Machine
end

section
/-! Encodings: the codes of the job kinds, the layout of a job word as a number (30_encoding.md R74, R75), and what the
decoder accepts (R81, R82, R86). -/

namespace Sys2Proof.Machine

/-! ## Job kinds and job words -/

@[simp] theorem kindOfCode_kindCode (k : JobKind) : kindOfCode (kindCode k) = some k := by
  cases k <;> rfl

/-- A code is that of the kind it is read as. -/
theorem kindCode_of_kindOfCode {c : BitVec 4} {k : JobKind} (h : kindOfCode c = some k) : kindCode k = c := by
  revert c; cases k <;> decide

/-- The codes 10 to 15, and only they, are those of no kind. -/
theorem kindOfCode_eq_none_iff (c : BitVec 4) : kindOfCode c = none ↔ 9 < c.toNat := by
  revert c; decide

theorem kindCode_le (k : JobKind) : (kindCode k).toNat ≤ 9 := by cases k <;> decide

theorem dwellOk_iff (d : BitVec 8) : dwellOk d = true ↔ d.toNat ≤ 250 := decide_eq_true_iff

/-- The record of a job word, field by field. -/
theorem decodeJobWord_eq_ok (w : BitVec 32) (j : Job) :
    decodeJobWord w = .ok j ↔ kindOfCode (w.extractLsb' 0 4) = some j.kind ∧ w.extractLsb' 4 4 = 0
      ∧ dwellOk j.dwellMs = true ∧ j.frameRef = w.extractLsb' 16 16 ∧ j.dwellMs = w.extractLsb' 8 8 := by
  obtain ⟨kind, r, d⟩ := j
  unfold decodeJobWord
  cases kindOfCode (w.extractLsb' 0 4) with
  | none => simp
  | some k =>
    by_cases h0 : w.extractLsb' 4 4 = 0
    · by_cases hd : dwellOk (w.extractLsb' 8 8) = true
      · simp only [h0, hd, if_true, Except.ok.injEq, Job.mk.injEq, Option.some.injEq, true_and]
        constructor
        · rintro ⟨rfl, rfl, rfl⟩; exact ⟨rfl, hd, rfl, rfl⟩
        · rintro ⟨rfl, -, rfl, rfl⟩; exact ⟨rfl, rfl, rfl⟩
      · simp only [h0, hd, if_true, reduceCtorEq, false_iff, Bool.false_eq_true, if_false]
        rintro ⟨-, -, hok, -, rfl⟩
        exact hd hok
    · simp only [h0, if_false, reduceCtorEq, false_and, and_false]

/-- The layout of R74, on the word as a number. -/
theorem decodeJobWord_eq_ok_iff (w : BitVec 32) (j : Job) :
    decodeJobWord w = .ok j ↔ (kindCode j.kind).toNat = w.toNat % 16 ∧ w.toNat / 16 % 16 = 0
      ∧ j.dwellMs.toNat ≤ 250 ∧ j.frameRef.toNat = w.toNat / 65536 ∧ j.dwellMs.toNat = w.toNat / 256 % 256 := by
  have hkind : kindOfCode (w.extractLsb' 0 4) = some j.kind ↔ (kindCode j.kind).toNat = w.toNat % 16 := by
    have hcode : kindOfCode (w.extractLsb' 0 4) = some j.kind ↔ kindCode j.kind = w.extractLsb' 0 4 :=
      ⟨kindCode_of_kindOfCode, fun h => h ▸ kindOfCode_kindCode j.kind⟩
    rw [hcode, ← BitVec.toNat_inj, BitVec.extractLsb'_toNat, Nat.shiftRight_zero]
  have hframe : (w.toNat >>> 16) % 2 ^ 16 = w.toNat / 65536 := by
    rw [Nat.shiftRight_eq_div_pow]; omega
  rw [decodeJobWord_eq_ok, hkind, dwellOk_iff]
  simp only [← BitVec.toNat_inj, BitVec.extractLsb'_toNat, hframe]
  simp only [Nat.shiftRight_eq_div_pow]
  rfl

/-- A job word as a number: the kind's code, the dwell from bit 8 up, the reference from bit 16 up. -/
theorem toNat_encodeJob (j : Job) :
    (encodeJob j).toNat = j.frameRef.toNat * 65536 + j.dwellMs.toNat * 256 + (kindCode j.kind).toNat := by
  have hlow : (kindCode j.kind).toNat < 2 ^ 8 := by have := kindCode_le j.kind; omega
  have hmid : j.dwellMs.toNat < 2 ^ 8 := j.dwellMs.isLt
  simp only [encodeJob, BitVec.toNat_append, BitVec.toNat_ofNat, Nat.zero_mod, Nat.zero_shiftLeft, Nat.zero_or]
  rw [← Nat.shiftLeft_add_eq_or_of_lt hmid, ← Nat.shiftLeft_add_eq_or_of_lt hlow, Nat.shiftLeft_eq, Nat.shiftLeft_eq]
  omega

/-- A record with a legal dwell is read back from its word. -/
theorem decodeJobWord_encodeJob {j : Job} (h : dwellOk j.dwellMs = true) : decodeJobWord (encodeJob j) = .ok j := by
  have hk := kindCode_le j.kind
  have hd := (dwellOk_iff j.dwellMs).1 h
  rw [decodeJobWord_eq_ok_iff, toNat_encodeJob]
  omega

/-- A word is the word of the record it is read as. -/
theorem encodeJob_of_decodeJobWord {w : BitVec 32} {j : Job} (h : decodeJobWord w = .ok j) : encodeJob j = w := by
  obtain ⟨hkind, hzero, -, hframe, hdwell⟩ := (decodeJobWord_eq_ok_iff w j).1 h
  apply BitVec.eq_of_toNat_eq
  rw [toNat_encodeJob]
  omega

/-- The encoder's word of a job's instruction is the record's. -/
theorem encode_jobInstr (j : Job) : encode (jobInstr j) = .job (encodeJob j) := by
  obtain ⟨kind, r, d⟩ := j
  cases kind <;> rfl

theorem wellFormed_jobInstr (j : Job) : (jobInstr j).wellFormed = dwellOk j.dwellMs := by
  obtain ⟨kind, r, d⟩ := j
  cases kind <;> rfl

theorem family_jobInstr (j : Job) : family (jobInstr j) = .job := by
  obtain ⟨kind, r, d⟩ := j
  cases kind <;> rfl

/-- An instruction of the job space is that of a record. -/
theorem exists_jobInstr_eq {i : Instr} (h : family i = .job) : ∃ j, jobInstr j = i := by
  cases i with
  | skip r d => exact ⟨⟨.skip, r, d⟩, rfl⟩
  | dwell r d => exact ⟨⟨.dwell, r, d⟩, rfl⟩
  | single r d => exact ⟨⟨.single, r, d⟩, rfl⟩
  | cyclic r d => exact ⟨⟨.cyclic, r, d⟩, rfl⟩
  | retx1 r d => exact ⟨⟨.retransmitRx1, r, d⟩, rfl⟩
  | retx2 r d => exact ⟨⟨.retransmitRx2, r, d⟩, rfl⟩
  | jump r d => exact ⟨⟨.jump, r, d⟩, rfl⟩
  | ret r d => exact ⟨⟨.ret, r, d⟩, rfl⟩
  | callback r d => exact ⟨⟨.callback, r, d⟩, rfl⟩
  | stop r d => exact ⟨⟨.stop, r, d⟩, rfl⟩
  | getBits | setBits | bin2bcd | bcd2bin | encBcd | encBnr | encDisc | decBcd | decBnr | decDisc | createFrame
  | readLabel | readSdi | readSsmRaw | combineSsm => cases h
  | tick | writeJob | clearJobs | writeSlot | rxUpdate | restart | cancel => cases h

theorem decode_job_eq_ok {w : BitVec 32} {i : Instr} (h : decode (.job w) = .ok i) :
    ∃ j, decodeJobWord w = .ok j ∧ jobInstr j = i := by
  simp only [decode] at h
  cases hj : decodeJobWord w with
  | ok j => rw [hj] at h; exact ⟨j, rfl, Except.ok.inj h⟩
  | error e => rw [hj] at h; cases h

@[simp] theorem flagOfBit_bitOfFlag (b : Bool) : flagOfBit (bitOfFlag b) = b := by cases b <;> rfl

@[simp] theorem channelOfBit_channelBit (c : RxChannel) : channelOfBit (channelBit c) = c := by cases c <;> rfl

/-! ## The statements on job words -/

/-- Settles O1: a codec operation or a command by its row, a job by the layout of its word. -/
theorem encodedInstructionDecodes : Obligations.EncodedInstructionDecodes := by
  intro i hi
  by_cases hjob : family i = .job
  · obtain ⟨j, rfl⟩ := exists_jobInstr_eq hjob
    rw [encode_jobInstr, decode, decodeJobWord_encodeJob (wellFormed_jobInstr j ▸ hi)]
  · cases i with
    | getBits | setBits | bin2bcd | bcd2bin | encBcd | encBnr | encDisc | decBcd | decBnr | decDisc => rfl
    | createFrame | readLabel | readSdi | readSsmRaw | combineSsm => rfl
    | tick | writeJob | clearJobs | writeSlot | restart | cancel => rfl
    | rxUpdate c e seen timedOut raw =>
      have hread : decode (encode (.rxUpdate c e seen timedOut raw)) = .ok (.rxUpdate (channelOfBit (channelBit c)) e
        (flagOfBit (bitOfFlag seen)) (flagOfBit (bitOfFlag timedOut)) raw) := rfl
      rw [hread, channelOfBit_channelBit, flagOfBit_bitOfFlag, flagOfBit_bitOfFlag]
    | skip | dwell | single | cyclic | retx1 | retx2 | jump | ret | callback | stop => exact absurd rfl hjob

/-- Settles O2: each word evaluated. -/
theorem specWordsDecode : Obligations.SpecWordsDecode := by
  unfold Obligations.SpecWordsDecode
  decide

/-- Settles O3: the layout gives the three conditions; a kind with the code, and the two other fields, give a record. -/
theorem jobWordDecodesExactlyWhenOk : Obligations.JobWordDecodesExactlyWhenOk := by
  intro w
  constructor
  · rintro ⟨j, h⟩
    obtain ⟨hkind, hzero, hle, -, hdwell⟩ := (decodeJobWord_eq_ok_iff w j).1 h
    exact ⟨hkind ▸ kindCode_le j.kind, hzero, hdwell ▸ hle⟩
  · rintro ⟨hkind, hzero, hdwell⟩
    have hcode : kindOfCode (BitVec.ofNat 4 (w.toNat % 16)) ≠ none := by
      rw [Ne, kindOfCode_eq_none_iff, BitVec.toNat_ofNat]; omega
    obtain ⟨kind, hk⟩ := Option.ne_none_iff_exists'.1 hcode
    have hk' := kindCode_of_kindOfCode hk
    refine ⟨⟨kind, BitVec.ofNat 16 (w.toNat / 65536), BitVec.ofNat 8 (w.toNat / 256 % 256)⟩,
      (decodeJobWord_eq_ok_iff w _).2 ?_⟩
    simp only [hk', BitVec.toNat_ofNat]
    omega

/-- Settles O4: the layout, and that the word is the record's. -/
theorem jobWordLayout : Obligations.JobWordLayout := by
  intro w j h
  obtain ⟨hkind, -, -, hframe, hdwell⟩ := (decodeJobWord_eq_ok_iff w j).1 h
  have hword := encodeJob_of_decodeJobWord h
  exact ⟨hframe, hdwell, hkind, hword, by rw [encode_jobInstr, hword]⟩

end Sys2Proof.Machine
end

section
/-! Which requests the decoder accepts (30_encoding.md R81, R82, R86), what the step makes of a request and of a job
that ticks (46_scheduler_commands.md R200), and what placing a word changes. -/

namespace Sys2Proof.Machine

/-! ## Requests -/

/-- Whether a selector is accepted does not depend on the operand ports. -/
theorem decodeSelector_isOk_congr (sel : BitVec 8) (p q : Ports) :
    (decodeSelector sel p).isOk = (decodeSelector sel q).isOk := by
  unfold decodeSelector
  split
  · split
    · cases formatOfCode (sel.extractLsb' 4 2) with
      | none => rfl
      | some fmt => cases fmt <;> rfl
    · cases formatOfCode (sel.extractLsb' 4 2) with
      | none => rfl
      | some fmt => cases fmt <;> rfl
    · split
      · split <;> rfl
      · rfl
  · rfl

theorem exists_eq_ok_iff_isOk {ε α : Type} (x : Except ε α) : (∃ a, x = .ok a) ↔ x.isOk = true := by
  cases x <;> simp [Except.isOk, Except.toBool]

/-- R81: the accepted selectors. -/
theorem decodeSelector_isOk_iff (sel : BitVec 8) (p : Ports) : (decodeSelector sel p).isOk = true ↔
    sel.toNat ∈ [0x00, 0x01, 0x02, 0x03, 0x04, 0x14, 0x24, 0x05, 0x15, 0x25, 0x06, 0x07, 0x08, 0x09, 0x0A] := by
  rw [decodeSelector_isOk_congr sel p {}]
  revert sel
  decide

/-- R82: the accepted command codes. -/
theorem decodeCommand_isOk_iff (cmd : BitVec 3) (p : Ports) : (decodeCommand cmd p).isOk = true ↔ cmd.toNat ≠ 7 := by
  have hports : (decodeCommand cmd p).isOk = (decodeCommand cmd {}).isOk := by
    unfold decodeCommand
    split <;> rfl
  rw [hports]
  clear hports
  revert cmd
  decide

/-- A request stands for a codec operation or a command: its instruction is well-formed and no job. -/
theorem decodeRequest_wellFormed {r : Request} {i : Instr} (h : decodeRequest r = .ok i) :
    i.wellFormed = true ∧ family i ≠ .job := by
  cases r with
  | codec sel p =>
    simp only [decodeRequest, decodeSelector] at h
    split at h
    · split at h
      · split at h <;> cases h <;> exact ⟨rfl, nofun⟩
      · split at h <;> cases h <;> exact ⟨rfl, nofun⟩
      · split at h
        · split at h <;> cases h <;> exact ⟨rfl, nofun⟩
        · cases h
    · cases h
  | command cmd p =>
    simp only [decodeRequest, decodeCommand] at h
    split at h <;> cases h <;> exact ⟨rfl, nofun⟩

/-- Settles O5: the accepted codes, and the step's answer to a request that has none of them. -/
theorem reservedRequestsAreRefused : Obligations.ReservedRequestsAreRefused := by
  refine ⟨fun sel p => ?_, fun cmd p => ?_, fun s r rest hpending hno => ?_⟩
  · exact (exists_eq_ok_iff_isOk _).trans (decodeSelector_isOk_iff sel p)
  · exact (exists_eq_ok_iff_isOk _).trans (decodeCommand_isOk_iff cmd p)
  · cases hr : decodeRequest r with
    | ok i => exact absurd hr (hno i)
    | error e => exact step_cons_error hpending hr

/-! ## The step and a job that ticks -/

/-- The tick of a job that is fetched is the job's instruction (R200). -/
theorem exec_tick_of_ticks {s : State} {j : Job} (h : Ticks s j) : exec .tick s = exec (jobInstr j) s := by
  obtain ⟨hhalted, hcancel, hfetch⟩ := h
  rw [exec_tick, exec_jobInstr, tickRule_job hhalted hcancel hfetch]

/-- Settles O6: a request runs by its decoding, which undoes encoding; with none pending the tick runs the job. -/
theorem stepRunsTheDecodedInstruction : Obligations.StepRunsTheDecodedInstruction := by
  refine ⟨fun s i r rest hpending hi => ?_, fun s hpending => step_nil hpending,
    fun s w i j hpending hi hj hticks => ?_⟩
  · have hdecode : decodeRequest r = .ok i := by
      rcases hi with hr | ⟨hwf, henc⟩
      · exact hr
      · have hback := encodedInstructionDecodes i hwf
        rwa [henc] at hback
    exact step_cons_ok hpending hdecode
  · obtain ⟨j', hj', rfl⟩ := decode_job_eq_ok hi
    obtain rfl : j' = j := Except.ok.inj (hj'.symm.trans hj)
    have htick := exec_tick_of_ticks hticks
    exact ⟨(step_nil hpending).trans htick, htick⟩

/-! ## Placing a word -/

/-- Where a placed job stands: at `PC`, or at 0 when `PC` points outside the table. -/
def placePc (p : Params) (s : State) : Index := if s.pc.toNat < p.jobSlots then s.pc else 0

theorem placePc_lt (p : Params) (s : State) : (placePc p s).toNat < p.jobSlots := by
  unfold placePc
  split
  · assumption
  · exact Nat.succ_pos _

/-- The state that ticks a placed job, before any request is put in front of the pending moves. -/
def placedState (p : Params) (j : Job) (s : State) : State :=
  { s with halted := false, cancel := false, pc := placePc p s, jobs := tableInsert s.jobs (placePc p s).toNat j }

theorem ticks_placedState (j : Job) (s : State) : Ticks (placedState Config.params j s) j :=
  ⟨rfl, rfl, (fetchJob_eq_some_iff _ _ _ _).2 ⟨placePc_lt _ s, tableFind_insert_same _ _ _⟩⟩

theorem jobAt_placedState_other {p : Params} {s : State} {k : Index} (h : k ≠ placePc p s) (j : Job) :
    jobAt (placedState p j s) k = jobAt s k :=
  jobAt_writeJobSlot_other h j s

/-- A placed job is ticked by request when other moves are pending, and otherwise by the scheduler itself. -/
theorem placeJob_eq (p : Params) (j : Job) (s : State) :
    placeJob p j s = if s.pending.isEmpty then placedState p j s
      else pushRequest (.command 0 {}) (placedState p j s) := by
  unfold placeJob placedState placePc
  by_cases h : s.pc.toNat < p.jobSlots
  · simp only [setHalted_pc, setCancel_pc, h, if_true]; rfl
  · simp only [setHalted_pc, setCancel_pc, h, if_false]; rfl

/-- A request put in front of the pending moves is the next to run. -/
theorem step_pushRequest {r : Request} {i : Instr} (h : decodeRequest r = .ok i) (s : State) :
    step (pushRequest r s) = exec i s := step_cons_ok rfl h

theorem step_placeJob (p : Params) (j : Job) (s : State) : step (placeJob p j s) = exec .tick (placedState p j s) := by
  rw [placeJob_eq]
  cases hpending : s.pending with
  | nil => exact step_nil hpending
  | cons r rest => exact step_pushRequest rfl _

theorem decodeTableWord_eq_some {nbits w : Nat} {i : Instr} (h : decodeTableWord nbits w = some i) :
    decode (tableEncoding nbits w) = .ok i := by
  unfold decodeTableWord at h
  cases hd : decode (tableEncoding nbits w) with
  | ok i' => rw [hd] at h; rw [Option.some.inj h]
  | error e => rw [hd] at h; cases h

/-- Settles O7: a placed request runs on the state as it was; a placed job ticks in `placedState`. -/
theorem placedWordRunsFirst : Obligations.PlacedWordRunsFirst := by
  intro s nbits w i hi
  have hdecode := decodeTableWord_eq_some hi
  unfold State.withFetchWord
  cases henc : tableEncoding nbits w with
  | request r =>
    rw [henc] at hdecode
    exact ⟨s, step_pushRequest hdecode s, rfl, rfl, rfl, rfl, rfl, rfl, fun _ _ => rfl, fun _ => rfl,
      fun hjob => absurd hjob (decodeRequest_wellFormed hdecode).2⟩
  | job word =>
    rw [henc] at hdecode
    obtain ⟨j, hj, rfl⟩ := decode_job_eq_ok hdecode
    have hplace : placeEncoded Config.params (.job word) s = placeJob Config.params j s := by
      simp only [placeEncoded, hj]
    have hticks := ticks_placedState j s
    refine ⟨placedState Config.params j s, ?_, rfl, rfl, rfl, rfl, rfl, rfl,
      fun k hk => jobAt_placedState_other hk j, fun hno => absurd (family_jobInstr j) hno,
      fun _ => ⟨j, rfl, hticks⟩⟩
    rw [hplace, step_placeJob, exec_tick_of_ticks hticks]

end Sys2Proof.Machine
end

section
/-! What each kind of instruction can do, said once: a codec operation, a job, a command (30_encoding.md R85). -/

namespace Sys2Proof.Machine

/-! ## Codec operations -/

/-- The response that ends a codec operation. -/
def codecResponse : Except Status Result → Response
  | .ok v => ⟨.ok, v⟩
  | .error e => ⟨e, .none⟩

theorem codecEnd_eq (r : Except Status Result) (s : State) :
    codecEnd r s = .next { s with response := codecResponse r } := by
  cases r <;> rfl

theorem codecResponse_getBits_ok (f : Frame) (l z : BitVec 8) :
    responseOk (codecResponse (getBitsResult f l z)) = true := by
  unfold getBitsResult
  split <;> rfl

theorem codecResponse_setBits_ok (f : Frame) (l z : BitVec 8) (v : BitVec 32) :
    responseOk (codecResponse (setBitsResult f l z v)) = true := by
  unfold setBitsResult
  split <;> rfl

theorem codecResponse_createFrame_ok (l : BitVec 16) (m : BitVec 3) :
    responseOk (codecResponse (createFrameResult l m)) = true := by
  unfold createFrameResult
  split
  · rfl
  · split <;> rfl

theorem codecResponse_combineSsm_ok (a b : BitVec 3) : responseOk (codecResponse (combineSsmResult a b)) = true := by
  unfold combineSsmResult
  split <;> rfl

/-- The checks the encoders share end in one error (R121), and each has one of its own. -/
theorem codecResponse_enc_ok (ties : RoundTies) (o : EncOperands) :
    responseOk (codecResponse (encBcdResult ties o)) = true ∧ responseOk (codecResponse (encBnrResult ties o)) = true
      ∧ responseOk (codecResponse (encDiscResult ties o)) = true := by
  unfold encBcdResult encBnrResult encDiscResult
  cases hin : encInput o with
  | error e =>
    rw [encInput_eq_error o e hin]
    exact ⟨rfl, rfl, rfl⟩
  | ok x =>
    dsimp only
    refine ⟨?_, ?_, ?_⟩ <;> split <;> rfl

/-- The checks the decoders share end in one error (R141), and BNR has one of its own. -/
theorem codecResponse_dec_ok (ties : RoundTies) (o : DecOperands) :
    responseOk (codecResponse (decBcdResult o)) = true ∧ responseOk (codecResponse (decBnrResult ties o)) = true
      ∧ responseOk (codecResponse (decDiscResult o)) = true := by
  unfold decBcdResult decBnrResult decDiscResult
  cases hin : decRange o with
  | error e =>
    rw [decRange_eq_error o e hin]
    exact ⟨rfl, rfl, rfl⟩
  | ok x =>
    refine ⟨rfl, ?_, rfl⟩
    dsimp only
    split <;> rfl

/-- A codec operation gives a legal response, the same in every state, and changes nothing else (R20). -/
theorem exec_codec {i : Instr} (h : family i = .codec) :
    ∃ r : Response, responseOk r = true ∧ ∀ s, exec i s = .next { s with response := r } := by
  cases i with
  | getBits => exact ⟨_, codecResponse_getBits_ok _ _ _, codecEnd_eq _⟩
  | setBits => exact ⟨_, codecResponse_setBits_ok _ _ _ _, codecEnd_eq _⟩
  | bin2bcd n => exact ⟨⟨.ok, .bcd (bin2bcdWord n)⟩, rfl, fun _ => rfl⟩
  | bcd2bin b => exact ⟨⟨.ok, .n (bcd2binWord b)⟩, rfl, fun _ => rfl⟩
  | encBcd => exact ⟨_, (codecResponse_enc_ok _ _).1, codecEnd_eq _⟩
  | encBnr => exact ⟨_, (codecResponse_enc_ok _ _).2.1, codecEnd_eq _⟩
  | encDisc => exact ⟨_, (codecResponse_enc_ok _ _).2.2, codecEnd_eq _⟩
  | decBcd => exact ⟨_, (codecResponse_dec_ok Config.params.roundTies _).1, codecEnd_eq _⟩
  | decBnr => exact ⟨_, (codecResponse_dec_ok Config.params.roundTies _).2.1, codecEnd_eq _⟩
  | decDisc => exact ⟨_, (codecResponse_dec_ok Config.params.roundTies _).2.2, codecEnd_eq _⟩
  | createFrame => exact ⟨_, codecResponse_createFrame_ok _ _, codecEnd_eq _⟩
  | readLabel f => exact ⟨⟨.ok, .label (f.extractLsb' 0 8)⟩, rfl, fun _ => rfl⟩
  | readSdi f => exact ⟨⟨.ok, .sdi (f.extractLsb' 8 2)⟩, rfl, fun _ => rfl⟩
  | readSsmRaw f => exact ⟨⟨.ok, .ssmRaw (ssmRawBits f)⟩, rfl, fun _ => rfl⟩
  | combineSsm => exact ⟨_, codecResponse_combineSsm_ok _ _, codecEnd_eq _⟩
  | skip | dwell | single | cyclic | retx1 | retx2 | jump | ret | callback | stop => cases h
  | tick | writeJob | clearJobs | writeSlot | rxUpdate | restart | cancel => cases h

/-! ## Jobs -/

/-- The wait of R173 as the statements write it. -/
theorem dwellStep_eq (d : BitVec 8) : dwellStep d = if d.toNat = 0 then [] else [.wait d] := by
  split
  · exact dwellStep_zero ‹_›
  · exact dwellStep_pos ‹_›

theorem singleRule_of_sends {p : Params} {s : State} {r : Index} (hr : r.toNat < p.frameSlots)
    (harmed : (slotAt s r).armed = true) (hraw : (slotAt s r).raw ≠ 0) (d : BitVec 8) :
    singleRule p r d s = endTick .ok (.transmit (slotAt s r).raw :: dwellStep d)
      (advancePc (writeSlotEntry r ⟨(slotAt s r).raw, false⟩ s)) := by
  simp only [singleRule, hr, harmed, if_true, Bool.true_and, bne_iff_ne, ne_eq, hraw, not_false_eq_true]

theorem singleRule_of_not_sends {p : Params} {s : State} {r : Index} (hr : r.toNat < p.frameSlots)
    (h : ¬ ((slotAt s r).armed = true ∧ (slotAt s r).raw ≠ 0)) (d : BitVec 8) :
    singleRule p r d s = endTick .ok (dwellStep d) (advancePc s) := by
  simp only [singleRule, hr, if_true, Bool.and_eq_true, bne_iff_ne, if_neg h]

theorem retransmitRule_of_reachable {e : Index} (he : e.toNat < rxEntries) (c : RxChannel) (d : BitVec 8) (s : State) :
    retransmitRule c e d s
      = endTick .ok (if (rxAt s c e.toNat).seen = true ∧ (rxAt s c e.toNat).timedOut = false
          then .transmit (rxAt s c e.toNat).raw :: dwellStep d else dwellStep d) (advancePc s) := by
  simp only [retransmitRule, he, if_true, Bool.and_eq_true, Bool.not_eq_true']
  split <;> rfl

theorem actionsOk_dwellStep {d : BitVec 8} (h : dwellOk d = true) :
    actionsOk (dwellStep d) = true ∧ (∀ f, actionsOk (.transmit f :: dwellStep d) = true)
      ∧ actionsOk (.notifyCycleComplete :: dwellStep d) = true := by
  by_cases hd : d.toNat = 0
  · rw [dwellStep_zero hd]
    exact ⟨rfl, fun _ => rfl, rfl⟩
  · have hwait : waitOk d = true := by
      have hle := (dwellOk_iff d).1 h
      simp only [waitOk, Bool.and_eq_true, decide_eq_true_eq]
      omega
    rw [dwellStep_pos hd]
    exact ⟨hwait, fun _ => hwait, hwait⟩

/-- What the rule of a fetched job can come to (45_scheduler_jobs.md R172 to R185). -/
inductive JobEnd (p : Params) (j : Job) (s : State) : State → Prop
  | advance (acts : List Action) (hacts : dwellOk j.dwellMs = true → actionsOk acts = true) :
    JobEnd p j s (endTick .ok acts (advancePc s))
  | send (hkind : j.kind = .single) (href : j.frameRef.toNat < p.frameSlots) :
    JobEnd p j s (endTick .ok (.transmit (slotAt s j.frameRef).raw :: dwellStep j.dwellMs)
      (advancePc (writeSlotEntry j.frameRef ⟨(slotAt s j.frameRef).raw, false⟩ s)))
  | warn : JobEnd p j s (warnSkip s)
  | jump (hkind : j.kind = .jump) :
    JobEnd p j s (endTick .ok (dwellStep j.dwellMs) (setPc j.frameRef (setRet (some (nextPc s)) s)))
  | ret (hkind : j.kind = .ret) (i : Index) :
    JobEnd p j s (endTick .ok (dwellStep j.dwellMs) (setPc i (setRet none s)))
  | fail (h : misuse p s j) : JobEnd p j s (schedFail s)
  | stop (hkind : j.kind = .stop) : JobEnd p j s (endTick .ok [.halted] (setHalted true s))

theorem jobEnd_jobRule (p : Params) (j : Job) (s : State) : JobEnd p j s (jobRule p j s) := by
  obtain ⟨kind, r, d⟩ := j
  have hretransmit (k : JobKind) (c : RxChannel) : JobEnd p ⟨k, r, d⟩ s (retransmitRule c r d s) := by
    by_cases hr : r.toNat < rxEntries
    · rw [retransmitRule_of_reachable hr]
      refine .advance _ fun hd => ?_
      split
      · exact (actionsOk_dwellStep hd).2.1 _
      · exact (actionsOk_dwellStep hd).1
    · rw [retransmitRule, if_neg hr]
      exact .warn
  cases kind with
  | skip => exact .advance [] fun _ => rfl
  | dwell => exact .advance (dwellStep d) fun hd => (actionsOk_dwellStep hd).1
  | callback => exact .advance (.notifyCycleComplete :: dwellStep d) fun hd => (actionsOk_dwellStep hd).2.2
  | single =>
    change JobEnd p _ s (singleRule p r d s)
    by_cases hr : r.toNat < p.frameSlots
    · by_cases hsend : (slotAt s r).armed = true ∧ (slotAt s r).raw ≠ 0
      · rw [singleRule_of_sends hr hsend.1 hsend.2]
        exact .send rfl hr
      · rw [singleRule_of_not_sends hr hsend]
        exact .advance _ fun hd => (actionsOk_dwellStep hd).1
    · rw [singleRule, if_neg hr]
      exact .warn
  | cyclic =>
    change JobEnd p _ s (cyclicRule p r d s)
    by_cases hr : r.toNat < p.frameSlots
    · rw [cyclicRule, if_pos hr]
      exact .advance _ fun hd => (actionsOk_dwellStep hd).2.1 _
    · rw [cyclicRule, if_neg hr]
      exact .warn
  | retransmitRx1 => exact hretransmit _ .rx1
  | retransmitRx2 => exact hretransmit _ .rx2
  | jump =>
    change JobEnd p _ s (jumpRule p r d s)
    by_cases hr : reachable p s r = true
    · rw [jumpRule, if_pos hr]
      exact .jump rfl
    · rw [jumpRule, if_neg hr]
      exact .fail (.inl ⟨rfl, Bool.eq_false_iff.2 hr⟩)
  | ret =>
    change JobEnd p _ s (returnRule r d s)
    cases hret : s.ret with
    | some i => rw [returnRule, hret]; exact .ret rfl i
    | none => rw [returnRule, hret]; exact .fail (.inr ⟨rfl, hret⟩)
  | stop => exact .stop rfl

/-! ## Commands -/

/-- The commands (46_scheduler_commands.md). -/
theorem command_cases {i : Instr} (h : family i = .command) :
    i = .tick ∨ (∃ k w, i = .writeJob k w) ∨ (∃ a b, i = .clearJobs a b) ∨ (∃ k v, i = .writeSlot k v)
      ∨ (∃ c e n o v, i = .rxUpdate c e n o v) ∨ i = .restart ∨ i = .cancel := by
  cases i with
  | getBits | setBits | bin2bcd | bcd2bin | encBcd | encBnr | encDisc | decBcd | decBnr | decDisc | createFrame
  | readLabel | readSdi | readSsmRaw | combineSsm => cases h
  | skip | dwell | single | cyclic | retx1 | retx2 | jump | ret | callback | stop => cases h
  | tick | writeJob | clearJobs | writeSlot | rxUpdate | restart | cancel => simp

theorem writeJobRule_ok {p : Params} {i : Index} {w : BitVec 32} {j : Job} (hi : i.toNat < p.jobSlots)
    (hj : decodeJobWord w = .ok j) (s : State) : writeJobRule p i w s = respond .ok .none (writeJobSlot i j s) := by
  simp only [writeJobRule, hi, if_true, hj]

theorem writeJobRule_error {p : Params} {i : Index} {w : BitVec 32}
    (h : p.jobSlots ≤ i.toNat ∨ ∀ j, decodeJobWord w ≠ .ok j) (s : State) :
    writeJobRule p i w s = respond .invalidFieldSpec .none s := by
  unfold writeJobRule
  split
  · cases hw : decodeJobWord w with
    | ok j => exact absurd hw (h.resolve_left (by omega) j)
    | error e => rfl
  · rfl

theorem clearJobsRule_ok {p : Params} {a b : Index} (hab : a.toNat ≤ b.toNat) (hb : b.toNat < p.jobSlots) (s : State) :
    clearJobsRule p a b s = respond .ok .none (clearJobSlots a b s) := by
  simp only [clearJobsRule, hab, hb, decide_true, Bool.and_self, if_true]

theorem clearJobsRule_error {p : Params} {a b : Index} (h : b.toNat < a.toNat ∨ p.jobSlots ≤ b.toNat) (s : State) :
    clearJobsRule p a b s = respond .invalidFieldSpec .none s := by
  refine if_neg ?_
  simp only [Bool.and_eq_true, decide_eq_true_eq]
  omega

theorem writeSlotRule_ok {p : Params} {i : Index} (hi : i.toNat < p.frameSlots) (v : Frame) (s : State) :
    writeSlotRule p i v s = respond .ok .none (writeSlotEntry i ⟨v, true⟩ s) := if_pos hi

theorem writeSlotRule_error {p : Params} {i : Index} (hi : p.frameSlots ≤ i.toNat) (v : Frame) (s : State) :
    writeSlotRule p i v s = respond .invalidFieldSpec .none s := if_neg (Nat.not_lt.2 hi)

/-- `RX_UPDATE` replaces the receive tables alone (R208). -/
theorem rxUpdateRule_eq (c : RxChannel) (e : BitVec 10) (n o : Bool) (v : Frame) (s : State) :
    ∃ a b, rxUpdateRule c e n o v s = { s with rx1 := a, rx2 := b, response := ⟨.ok, .none⟩ } := by
  cases c with
  | rx1 => exact ⟨_, s.rx2, rfl⟩
  | rx2 => exact ⟨s.rx1, _, rfl⟩

/-- What `WRITE_JOB` can come to (R201). -/
theorem writeJobRule_cases (p : Params) (i : Index) (w : BitVec 32) (s : State) :
    (∃ j, i.toNat < p.jobSlots ∧ decodeJobWord w = .ok j
        ∧ writeJobRule p i w s = respond .ok .none (writeJobSlot i j s))
      ∨ writeJobRule p i w s = respond .invalidFieldSpec .none s := by
  by_cases hi : i.toNat < p.jobSlots
  · cases hw : decodeJobWord w with
    | ok j => exact .inl ⟨j, hi, rfl, writeJobRule_ok hi hw s⟩
    | error e => exact .inr (writeJobRule_error (.inr fun j hj => by rw [hw] at hj; cases hj) s)
  · exact .inr (writeJobRule_error (.inl (Nat.not_lt.1 hi)) s)

/-- What `CLEAR_JOBS` can come to (R202). -/
theorem clearJobsRule_cases (p : Params) (a b : Index) (s : State) :
    clearJobsRule p a b s = respond .ok .none (clearJobSlots a b s)
      ∨ clearJobsRule p a b s = respond .invalidFieldSpec .none s := by
  unfold clearJobsRule
  split
  · exact .inl rfl
  · exact .inr rfl

/-- What `WRITE_SLOT` can come to (R206). -/
theorem writeSlotRule_cases (p : Params) (i : Index) (v : Frame) (s : State) :
    (i.toNat < p.frameSlots ∧ writeSlotRule p i v s = respond .ok .none (writeSlotEntry i ⟨v, true⟩ s))
      ∨ writeSlotRule p i v s = respond .invalidFieldSpec .none s := by
  by_cases hi : i.toNat < p.frameSlots
  · exact .inl ⟨hi, writeSlotRule_ok hi v s⟩
  · exact .inr (writeSlotRule_error (Nat.not_lt.1 hi) v s)

end Sys2Proof.Machine
end

section
/-! The effect of any instruction, and what follows for every step: the invariant, the legal responses, who halts and
who writes what (10_state.md section 6, 45_scheduler_jobs.md R186, 60_exceptions.md R220). -/

namespace Sys2Proof.Machine

/-! ## The effect of an instruction -/

/-- What executing an instruction can come to, by its encoding space, a tick and the commands one by one. -/
inductive Effect : Instr → State → State → Prop
  | codec {i s} (hi : family i = .codec) (r : Response) (hr : responseOk r = true) :
    Effect i s { s with response := r }
  | job {s t} (j : Job) (h : JobEnd Config.params j s t) : Effect (jobInstr j) s t
  | tickHalted {s} (h : s.halted = true) : Effect .tick s (endTick .ok [.halted] s)
  | tickCancelled {s} (hc : s.cancel = true) : Effect .tick s (endTick .ok [.halted] (setHalted true s))
  | tickUnreachable {s} : Effect .tick s (warnSkip s)
  | tickJob {s t} (j : Job) (hrun : s.halted = false) (hfetch : fetchJob Config.params s s.pc = some j)
    (h : JobEnd Config.params j s t) : Effect .tick s t
  | writeJob {s k w} (j : Job) (hk : k.toNat < Config.params.jobSlots) (hw : decodeJobWord w = .ok j) :
    Effect (.writeJob k w) s (respond .ok .none (writeJobSlot k j s))
  | clearJobs {s a b} : Effect (.clearJobs a b) s (respond .ok .none (clearJobSlots a b s))
  | writeSlot {s k v} (hk : k.toNat < Config.params.frameSlots) :
    Effect (.writeSlot k v) s (respond .ok .none (writeSlotEntry k ⟨v, true⟩ s))
  | rxUpdate {s c e n o v} (a b : Table RxEntry)
    (h : rxUpdateRule c e n o v s = { s with rx1 := a, rx2 := b, response := ⟨.ok, .none⟩ }) :
    Effect (.rxUpdate c e n o v) s { s with rx1 := a, rx2 := b, response := ⟨.ok, .none⟩ }
  | restart {s} : Effect .restart s (restartRule s)
  | cancel {s} : Effect .cancel s (cancelRule s)
  | refused {i s} (hi : family i = .command) : Effect i s (respond .invalidFieldSpec .none s)

theorem effect_tickRule (s : State) : Effect .tick s (tickRule Config.params s) := by
  rcases tickRule_cases Config.params s with ⟨hh, heq⟩ | ⟨-, hc, heq⟩ | ⟨-, -, -, heq⟩ | ⟨j, hrun, -, hfetch, heq⟩
  · rw [heq]; exact .tickHalted hh
  · rw [heq]; exact .tickCancelled hc
  · rw [heq]; exact .tickUnreachable
  · rw [heq]; exact .tickJob j hrun hfetch (jobEnd_jobRule _ j s)

/-- Every instruction completes, with an effect of the list. -/
theorem exists_exec_eq_next (i : Instr) (s : State) : ∃ t, exec i s = .next t ∧ Effect i s t := by
  cases hfam : family i with
  | codec =>
    obtain ⟨r, hr, hexec⟩ := exec_codec hfam
    exact ⟨_, hexec s, .codec hfam r hr⟩
  | job =>
    obtain ⟨j, rfl⟩ := exists_jobInstr_eq hfam
    exact ⟨_, exec_jobInstr j s, .job j (jobEnd_jobRule _ j s)⟩
  | command =>
    rcases command_cases hfam with
      rfl | ⟨k, w, rfl⟩ | ⟨a, b, rfl⟩ | ⟨k, v, rfl⟩ | ⟨c, e, n, o, v, rfl⟩ | rfl | rfl
    · exact ⟨_, rfl, effect_tickRule s⟩
    · refine ⟨_, rfl, ?_⟩
      rcases writeJobRule_cases Config.params k w s with ⟨j, hk, hw, heq⟩ | heq
      · rw [heq]; exact .writeJob j hk hw
      · rw [heq]; exact .refused hfam
    · refine ⟨_, rfl, ?_⟩
      rcases clearJobsRule_cases Config.params a b s with heq | heq
      · rw [heq]; exact .clearJobs
      · rw [heq]; exact .refused hfam
    · refine ⟨_, rfl, ?_⟩
      rcases writeSlotRule_cases Config.params k v s with ⟨hk, heq⟩ | heq
      · rw [heq]; exact .writeSlot hk
      · rw [heq]; exact .refused hfam
    · obtain ⟨a, b, h⟩ := rxUpdateRule_eq c e n o v s
      exact ⟨_, congrArg Host.Outcome.next h, .rxUpdate a b h⟩
    · exact ⟨_, rfl, .restart⟩
    · exact ⟨_, rfl, .cancel⟩

theorem effect_of_exec {i : Instr} {s t : State} (h : exec i s = .next t) : Effect i s t := by
  obtain ⟨t', ht', heffect⟩ := exists_exec_eq_next i s
  obtain rfl : t' = t := by rw [h] at ht'; cases ht'; rfl
  exact heffect

/-- A step is an instruction on the state without its oldest move, or the refusal of that move. -/
theorem step_cases (s : State) :
    (∃ (i : Instr) (l : List Request), i.wellFormed = true ∧ step s = exec i (setPending l s))
      ∨ ∃ l, step s = .next (rejectRequest (setPending l s)) := by
  cases hpending : s.pending with
  | nil => exact .inl ⟨.tick, s.pending, rfl, step_nil hpending⟩
  | cons r rest =>
    cases hr : decodeRequest r with
    | ok i => exact .inl ⟨i, rest, (decodeRequest_wellFormed hr).1, step_cons_ok hpending hr⟩
    | error e => exact .inr ⟨rest, step_cons_error hpending hr⟩

/-- Settles O54: an instruction completes with its effect, and a step is an instruction or a refusal. -/
theorem everyStepCompletes : Obligations.EveryStepCompletes := by
  have hexec (i : Instr) (s : State) : ∃ t, exec i s = .next t :=
    (exists_exec_eq_next i s).imp fun _ h => h.1
  refine ⟨hexec, fun s => ?_⟩
  rcases step_cases s with ⟨i, l, -, hstep⟩ | ⟨l, hstep⟩
  · rw [hstep]; exact hexec i _
  · exact ⟨_, hstep⟩

/-! ## The invariant -/

/-- A response reaches no table. -/
theorem inv_respond {s : State} {st : Status} {r : Result} (hwf : Memory.wf Config.params s = true)
    (hr : responseOk ⟨st, r⟩ = true) : Inv (respond st r s) :=
  ⟨(Memory.wf_congr rfl rfl rfl rfl).trans hwf, hr⟩

theorem JobEnd.keeps_inv {j : Job} {s t : State} (h : JobEnd Config.params j s t) (hd : dwellOk j.dwellMs = true)
    (hs : Inv s) : Inv t := by
  obtain ⟨hwf, -⟩ := hs
  cases h with
  | advance acts hacts => exact ⟨hwf, hacts hd⟩
  | send hkind href =>
    have hsent := Memory.wf_writeSlotEntry ⟨(slotAt s j.frameRef).raw, false⟩ hwf href
    exact ⟨(Memory.wf_congr rfl rfl rfl rfl).trans hsent, (actionsOk_dwellStep hd).2.1 _⟩
  | warn => exact ⟨hwf, rfl⟩
  | jump | ret => exact ⟨hwf, (actionsOk_dwellStep hd).1⟩
  | fail | stop => exact ⟨hwf, rfl⟩

/-- A well-formed instruction keeps the invariant: the effects one by one. -/
theorem Effect.keeps_inv {i : Instr} {s t : State} (h : Effect i s t) (hi : i.wellFormed = true) (hs : Inv s) :
    Inv t := by
  obtain ⟨hwf, -⟩ := id hs
  cases h with
  | codec hfam r hr => exact ⟨hwf, hr⟩
  | job j hj => exact hj.keeps_inv (wellFormed_jobInstr j ▸ hi) hs
  | tickHalted | tickCancelled | tickUnreachable => exact ⟨hwf, rfl⟩
  | tickJob j hrun hfetch hj => exact hj.keeps_inv (fetchJob_dwellOk hwf hfetch) hs
  | writeJob j hk hw =>
    obtain ⟨-, -, hd, -, -⟩ := (decodeJobWord_eq_ok _ j).1 hw
    exact inv_respond (Memory.wf_writeJobSlot hwf hk hd) rfl
  | clearJobs => exact inv_respond (Memory.wf_clearJobSlots _ _ hwf) rfl
  | writeSlot hk => exact inv_respond (Memory.wf_writeSlotEntry _ hwf hk) rfl
  | rxUpdate a b h =>
    rw [← h]
    exact inv_respond (Memory.wf_writeRxEntry _ _ hwf (BitVec.isLt _)) rfl
  | restart | cancel | refused => exact ⟨hwf, rfl⟩

/-- Settles O50: the instruction of a step is well-formed and keeps the invariant, as does a refusal. -/
theorem stepKeepsTheInvariant : Obligations.StepKeepsTheInvariant := by
  intro s t hs ht
  rcases step_cases s with ⟨i, l, hi, hstep⟩ | ⟨l, hstep⟩
  · exact (effect_of_exec (hstep.symm.trans ht)).keeps_inv hi hs
  · cases hstep.symm.trans ht
    exact ⟨hs.1, rfl⟩

/-- Settles O51: the tables are empty and the response carries no result. -/
theorem resetMeetsTheInvariant : Obligations.ResetMeetsTheInvariant := ⟨Memory.wf_reset _, rfl⟩

/-- Settles O52: the values are those of `State.reset`; its first step is the tick of an empty slot. -/
theorem resetValues : Obligations.ResetValues := by
  refine ⟨rfl, rfl, rfl, rfl, fun _ => rfl, fun _ => rfl, fun c _ => by cases c <;> rfl, ?_⟩
  have hempty : fetchJob Config.params State.reset State.reset.pc = none :=
    (fetchJob_eq_none_iff _ _ _).2 (.inr rfl)
  rw [step_nil rfl, exec_tick, tickRule_unreachable rfl rfl hempty]
  rfl

/-! ## The responses of a tick -/

/-- The seven lists of R186, written out. -/
theorem actionsOk_cases {l : List Action} (h : actionsOk l = true) :
    (∃ f ms, 1 ≤ ms.toNat ∧ ms.toNat ≤ 250 ∧ (l = [.transmit f] ∨ l = [.transmit f, .wait ms] ∨ l = [.wait ms]
        ∨ l = [.notifyCycleComplete, .wait ms]))
      ∨ l = [] ∨ l = [.notifyCycleComplete] ∨ l = [.halted] := by
  have hwait {ms : BitVec 8} (hms : waitOk ms = true) : 1 ≤ ms.toNat ∧ ms.toNat ≤ 250 := by
    simpa [waitOk, Nat.succ_le_iff] using hms
  rcases l with _ | ⟨a, l⟩
  · exact .inr (.inl rfl)
  · cases a with
    | halted =>
      cases l with
      | nil => exact .inr (.inr (.inr rfl))
      | cons => cases h
    | wait ms =>
      cases l with
      | nil => exact .inl ⟨0, ms, (hwait h).1, (hwait h).2, .inr (.inr (.inl rfl))⟩
      | cons => cases h
    | transmit f =>
      rcases l with _ | ⟨_ | ms, _ | _⟩
      · exact .inl ⟨f, 1, le_refl _, by decide, .inl rfl⟩
      · cases h
      · cases h
      · exact .inl ⟨f, ms, (hwait h).1, (hwait h).2, .inr (.inl rfl)⟩
      all_goals cases h
    | notifyCycleComplete =>
      rcases l with _ | ⟨_ | ms, _ | _⟩
      · exact .inr (.inr (.inl rfl))
      · cases h
      · cases h
      · exact .inl ⟨0, ms, (hwait h).1, (hwait h).2, .inr (.inr (.inr rfl))⟩
      all_goals cases h

theorem JobEnd.actions {p : Params} {j : Job} {s t : State} (h : JobEnd p j s t) (hd : dwellOk j.dwellMs = true) :
    ∃ l, t.response.result = .actions l ∧ actionsOk l = true := by
  cases h with
  | advance acts hacts => exact ⟨acts, rfl, hacts hd⟩
  | send => exact ⟨_, rfl, (actionsOk_dwellStep hd).2.1 _⟩
  | warn | fail | stop => exact ⟨_, rfl, rfl⟩
  | jump | ret => exact ⟨_, rfl, (actionsOk_dwellStep hd).1⟩

theorem tickRule_actions {s : State} (hwf : Memory.wf Config.params s = true) :
    ∃ l, (tickRule Config.params s).response.result = .actions l ∧ actionsOk l = true := by
  rcases tickRule_cases Config.params s with ⟨-, heq⟩ | ⟨-, -, heq⟩ | ⟨-, -, -, heq⟩ | ⟨j, -, -, hfetch, heq⟩
  · exact ⟨[.halted], by rw [heq]; rfl, rfl⟩
  · exact ⟨[.halted], by rw [heq]; rfl, rfl⟩
  · exact ⟨[], by rw [heq]; rfl, rfl⟩
  · rw [heq]
    exact (jobEnd_jobRule _ j s).actions (fetchJob_dwellOk hwf hfetch)

/-- Settles O56: a tick's list is legal, since the dwell of a fetched job is. -/
theorem tickActionLists : Obligations.TickActionLists := by
  intro s t hwf ht
  obtain rfl : tickRule Config.params s = t := by cases ht; rfl
  obtain ⟨l, hl, hok⟩ := tickRule_actions hwf
  exact ⟨l, hl, actionsOk_cases hok⟩

/-! ## Who halts and who wakes -/

theorem JobEnd.halted {p : Params} {j : Job} {s t : State} (h : JobEnd p j s t) :
    t.halted = s.halted ∨ (t.halted = true ∧ (j.kind = .stop ∨ misuse p s j)) := by
  cases h with
  | advance | send | warn | jump | ret => exact .inl rfl
  | fail hm => exact .inr ⟨rfl, .inr hm⟩
  | stop hkind => exact .inr ⟨rfl, .inl hkind⟩

/-- A job that halts is a STOP or a misuse. -/
theorem JobEnd.stop_or_misuse {p : Params} {j : Job} {s t : State} (h : JobEnd p j s t) (hs : s.halted = false)
    (ht : t.halted = true) : j.kind = .stop ∨ misuse p s j := by
  rcases h.halted with heq | ⟨-, hwhy⟩
  · rw [ht, hs] at heq; cases heq
  · exact hwhy

/-- A job does not wake the scheduler. -/
theorem JobEnd.halted_of_halted {p : Params} {j : Job} {s t : State} (h : JobEnd p j s t) (hs : s.halted = true) :
    t.halted = true := by
  rcases h.halted with heq | ⟨ht, -⟩
  · rw [heq, hs]
  · exact ht

theorem Effect.halts {i : Instr} {s t : State} (h : Effect i s t) (hs : s.halted = false) (ht : t.halted = true) :
    (i = .tick ∧ (s.cancel = true
        ∨ ∃ j, fetchJob Config.params s s.pc = some j ∧ (j.kind = .stop ∨ misuse Config.params s j)))
      ∨ ∃ j, i = jobInstr j ∧ (j.kind = .stop ∨ misuse Config.params s j) := by
  have hkept (hsame : t.halted = s.halted) : False := by rw [ht, hs] at hsame; cases hsame
  cases h with
  | job j hj => exact .inr ⟨j, rfl, hj.stop_or_misuse hs ht⟩
  | tickCancelled hc => exact .inl ⟨rfl, .inl hc⟩
  | tickJob j hrun hfetch hj => exact .inl ⟨rfl, .inr ⟨j, hfetch, hj.stop_or_misuse hs ht⟩⟩
  | restart => cases ht
  | codec | tickHalted | tickUnreachable | writeJob | clearJobs | writeSlot | rxUpdate | cancel | refused =>
    exact (hkept rfl).elim

theorem Effect.wakes {i : Instr} {s t : State} (h : Effect i s t) (hs : s.halted = true) (ht : t.halted = false) :
    i = .restart := by
  have hkept (hstill : t.halted = true) : False := by rw [ht] at hstill; cases hstill
  cases h with
  | restart => rfl
  | job j hj | tickJob j _ _ hj => exact (hkept (hj.halted_of_halted hs)).elim
  | tickCancelled => exact (hkept rfl).elim
  | codec | tickHalted | tickUnreachable | writeJob | clearJobs | writeSlot | rxUpdate | cancel | refused =>
    exact (hkept hs).elim

/-- Settles O57: the effects that change `HALTED`. -/
theorem onlyTheseHaltAndWake : Obligations.OnlyTheseHaltAndWake := by
  intro i s t h
  exact ⟨fun hs ht => (effect_of_exec h).halts hs ht, fun hs ht => (effect_of_exec h).wakes hs ht⟩

end Sys2Proof.Machine
end

section
/-! The job kinds, each by its own meaning and by the tick that executes it (45_scheduler_jobs.md), and the scheduler
commands (46_scheduler_commands.md). -/

namespace Sys2Proof.Machine

/-! ## Job kinds -/

/-- What a job's instruction leads to, the tick that executes the job leads to as well (R200). -/
theorem exec_and_tick {j : Job} {s t : State} (h : exec (jobInstr j) s = .next t) :
    exec (jobInstr j) s = .next t ∧ (Ticks s j → exec .tick s = .next t) :=
  ⟨h, fun hticks => (exec_tick_of_ticks hticks).trans h⟩

/-- Settles O34: the three rules end a tick on the advanced `PC`, each with its list. -/
theorem skipDwellCallbackAdvance : Obligations.SkipDwellCallbackAdvance := by
  intro s r d waits after
  have hwaits : dwellStep d = waits := dwellStep_eq d
  refine ⟨exec_and_tick (j := ⟨.skip, r, d⟩) rfl, exec_and_tick (j := ⟨.dwell, r, d⟩) ?_,
    exec_and_tick (j := ⟨.callback, r, d⟩) ?_⟩
  · rw [← hwaits]; rfl
  · rw [← hwaits]; rfl

/-- Settles O35: whether the slot sends decides between the two ends of the rule. -/
theorem singleSendsAnArmedSlotOnce : Obligations.SingleSendsAnArmedSlotOnce := by
  intro s i d hi waits sends
  have hwaits : dwellStep d = waits := dwellStep_eq d
  have hexec : exec (jobInstr ⟨.single, i, d⟩) s = .next (singleRule Config.params i d s) := rfl
  by_cases hsend : sends
  · have hrule := singleRule_of_sends hi hsend.1 hsend.2 d
    rw [hrule, hwaits] at hexec
    obtain ⟨hone, htick⟩ := exec_and_tick hexec
    have hslot := slotAt_writeSlotEntry_same i ⟨(slotAt s i).raw, false⟩ s
    exact ⟨_, hone, htick, (congrArg SlotEntry.raw hslot :), fun _ => ⟨(congrArg SlotEntry.armed hslot :), rfl⟩,
      fun hno => absurd hsend hno, fun k hk => slotAt_writeSlotEntry_other hk _ s⟩
  · have hrule := singleRule_of_not_sends hi hsend d
    rw [hrule, hwaits] at hexec
    obtain ⟨hone, htick⟩ := exec_and_tick hexec
    exact ⟨_, hone, htick, rfl, fun hyes => absurd hyes hsend, fun _ => rfl, fun _ _ => rfl⟩

/-- Settles O36: inside the table the rule tests nothing else. -/
theorem cyclicSendsTheSlot : Obligations.CyclicSendsTheSlot := by
  intro s i d hi waits t
  have hwaits : dwellStep d = waits := dwellStep_eq d
  refine exec_and_tick (j := ⟨.cyclic, i, d⟩) ?_
  change Host.Outcome.next (cyclicRule Config.params i d s) = _
  rw [cyclicRule, if_pos hi, hwaits]
  rfl

/-- Settles O37: both kinds are one rule, on the table of their channel. -/
theorem retransmitSendsTheReceivedFrame : Obligations.RetransmitSendsTheReceivedFrame := by
  intro s e d he waits sent after
  have hwaits : dwellStep d = waits := dwellStep_eq d
  have hrule (c : RxChannel) : retransmitRule c e d s = after (rxAt s c e.toNat) := by
    rw [retransmitRule_of_reachable (Nat.lt_succ_of_le he), hwaits]
    rfl
  exact ⟨exec_and_tick (j := ⟨.retransmitRx1, e, d⟩) (congrArg Host.Outcome.next (hrule .rx1)),
    exec_and_tick (j := ⟨.retransmitRx2, e, d⟩) (congrArg Host.Outcome.next (hrule .rx2))⟩

/-- Settles O38: past the table each of the four rules is `warnSkip`. -/
theorem unreachableReferenceWarns : Obligations.UnreachableReferenceWarns := by
  intro s r d t
  have hslot (p : Params) (hr : p.frameSlots ≤ r.toNat) : singleRule p r d s = t ∧ cyclicRule p r d s = t :=
    ⟨if_neg (Nat.not_lt.2 hr), if_neg (Nat.not_lt.2 hr)⟩
  have hrx (hr : 1023 < r.toNat) (c : RxChannel) : retransmitRule c r d s = t := if_neg (Nat.not_lt.2 hr)
  refine ⟨hslot, fun hr => ?_, fun hr => ?_⟩
  · obtain ⟨hsingle, hcyclic⟩ := hslot _ hr
    obtain ⟨hone, htick⟩ := exec_and_tick (j := ⟨.single, r, d⟩) (congrArg Host.Outcome.next hsingle)
    obtain ⟨hone', htick'⟩ := exec_and_tick (j := ⟨.cyclic, r, d⟩) (congrArg Host.Outcome.next hcyclic)
    exact ⟨hone, hone', fun hticks => hticks.elim htick htick'⟩
  · obtain ⟨hone, htick⟩ := exec_and_tick (j := ⟨.retransmitRx1, r, d⟩) (congrArg Host.Outcome.next (hrx hr .rx1))
    obtain ⟨hone', htick'⟩ := exec_and_tick (j := ⟨.retransmitRx2, r, d⟩) (congrArg Host.Outcome.next (hrx hr .rx2))
    exact ⟨hone, hone', fun hticks => hticks.elim htick htick'⟩

/-- Settles O39: the target is reachable. -/
theorem jumpSavesTheSuccessor : Obligations.JumpSavesTheSuccessor := by
  intro s g d hg hjob waits t
  have hwaits : dwellStep d = waits := dwellStep_eq d
  refine exec_and_tick (j := ⟨.jump, g, d⟩) ?_
  change Host.Outcome.next (jumpRule Config.params g d s) = _
  rw [jumpRule, if_pos ((reachable_iff _ _ _).2 ⟨hg, hjob⟩), hwaits]
  rfl

/-- Settles O40: the rule's branch on a saved return point. -/
theorem returnConsumesTheReturnPoint : Obligations.ReturnConsumesTheReturnPoint := by
  intro s r i d hret waits t
  have hwaits : dwellStep d = waits := dwellStep_eq d
  refine exec_and_tick (j := ⟨.ret, r, d⟩) ?_
  change Host.Outcome.next (returnRule r d s) = _
  rw [returnRule, hret, hwaits]
  rfl

/-- Settles O41: an unreachable target and a missing return point both end in `schedFail`. -/
theorem misuseHalts : Obligations.MisuseHalts := by
  intro s g d t
  constructor
  · intro hg
    have hno : ¬ reachable Config.params s g = true := by
      rw [reachable_iff, not_and_or, not_not, Nat.not_lt]
      exact hg
    exact exec_and_tick (j := ⟨.jump, g, d⟩) (congrArg Host.Outcome.next (if_neg hno))
  · intro hret
    refine exec_and_tick (j := ⟨.ret, g, d⟩) ?_
    change Host.Outcome.next (returnRule g d s) = _
    rw [returnRule, hret]
    rfl

/-- Settles O42: the rule of STOP reads neither operand. -/
theorem stopHalts : Obligations.StopHalts := fun _ r d => exec_and_tick (j := ⟨.stop, r, d⟩) rfl

/-! ## Commands -/

/-- Settles O43: the four branches of the tick in order. -/
theorem tickTestsInOrder : Obligations.TickTestsInOrder := by
  intro s
  refine ⟨fun hh => ?_, fun hh hc => ?_, fun hh hc => ⟨fun hno => ?_, fun j hpc hj => ?_⟩⟩
  · exact congrArg Host.Outcome.next (tickRule_halted _ hh)
  · exact congrArg Host.Outcome.next (tickRule_cancelled _ hh hc)
  · exact congrArg Host.Outcome.next (tickRule_unreachable hh hc ((fetchJob_eq_none_iff _ _ _).2 hno))
  · have hticks : Ticks s j := ⟨hh, hc, (fetchJob_eq_some_iff _ _ _ _).2 ⟨hpc, hj⟩⟩
    exact ⟨_, (exec_tick_of_ticks hticks).trans (exec_jobInstr j s), exec_jobInstr j s⟩

/-- Settles O44: a good word stores its record, whose fields are the word's; any other word or index is refused. -/
theorem writeJobStoresTheRecord : Obligations.WriteJobStoresTheRecord := by
  intro s i w ok
  have hok : (∃ j, decodeJobWord w = .ok j) ↔ ok := jobWordDecodesExactlyWhenOk w
  constructor
  · intro hi hw
    obtain ⟨j, hj⟩ := hok.2 hw
    obtain ⟨hframe, hdwell, hkind, -, -⟩ := jobWordLayout w j hj
    exact ⟨_, j, congrArg Host.Outcome.next (writeJobRule_ok hi hj s), rfl, jobAt_writeJobSlot_same i j s, hkind,
      hdwell, hframe, fun k hk => jobAt_writeJobSlot_other hk j s⟩
  · intro h
    have hbad : Config.params.jobSlots ≤ i.toNat ∨ ∀ j, decodeJobWord w ≠ .ok j := by
      rwa [← hok, not_exists] at h
    exact congrArg Host.Outcome.next (writeJobRule_error hbad s)

/-- Settles O45: a good range is erased from the table; any other is refused. -/
theorem clearJobsEmptiesTheRange : Obligations.ClearJobsEmptiesTheRange := by
  intro s first last
  constructor
  · intro hle hlast
    exact ⟨_, congrArg Host.Outcome.next (clearJobsRule_ok hle hlast s), rfl,
      fun k => jobAt_clearJobSlots first last k s⟩
  · intro h
    exact congrArg Host.Outcome.next (clearJobsRule_error h s)

/-- Settles O46: an index of the table is written and armed; any other is refused. -/
theorem writeSlotStoresAndArms : Obligations.WriteSlotStoresAndArms := by
  intro s i v
  refine ⟨fun hi => ?_, fun hi => ?_, fun p hi => writeSlotRule_error hi v s⟩
  · exact ⟨_, congrArg Host.Outcome.next (writeSlotRule_ok hi v s), rfl, slotAt_writeSlotEntry_same i ⟨v, true⟩ s,
      fun k hk => slotAt_writeSlotEntry_other hk _ s⟩
  · exact congrArg Host.Outcome.next (writeSlotRule_error hi v s)

/-- A receive entry written alone reads back, and no other entry of either table changes. -/
theorem rxAt_rxUpdateRule (c : RxChannel) (e : BitVec 10) (seen timedOut : Bool) (v : Frame) (s : State) :
    rxAt (rxUpdateRule c e seen timedOut v s) c e.toNat = ⟨seen, timedOut, v⟩
      ∧ ∀ (c' : RxChannel) (k : Nat), (c', k) ≠ (c, e.toNat) →
        rxAt (rxUpdateRule c e seen timedOut v s) c' k = rxAt s c' k :=
  ⟨rxAt_writeRxEntry_same c e.toNat ⟨seen, timedOut, v⟩ s,
    fun _ _ hne => rxAt_writeRxEntry_other hne ⟨seen, timedOut, v⟩ s⟩

/-- Settles O47: the write of one entry of one channel's table. -/
theorem rxUpdateWritesOneEntry : Obligations.RxUpdateWritesOneEntry := by
  intro s c e seen timedOut v
  obtain ⟨hsame, hother⟩ := rxAt_rxUpdateRule c e seen timedOut v s
  exact ⟨_, rfl, by cases c <;> rfl, hsame, hother⟩

/-- Settles O48: the registers restarted; the mark of CANCEL, and the tick that meets it, halted before or not. -/
theorem restartAndCancel : Obligations.RestartAndCancel := by
  intro s
  refine ⟨rfl, cancelRule s, rfl, rfl, ?_⟩
  rw [exec_tick]
  cases hh : s.halted with
  | true =>
    rw [tickRule_halted _ (s := cancelRule s) hh, ← show (cancelRule s).halted = true from hh]
    rfl
  | false =>
    rw [tickRule_cancelled _ (s := cancelRule s) hh rfl]
    rfl

/-- A written slot is armed. -/
theorem slotAt_writeSlotRule {p : Params} {i : Index} (hi : i.toNat < p.frameSlots) (v : Frame) (s : State) :
    slotAt (writeSlotRule p i v s) i = ⟨v, true⟩ := by
  rw [writeSlotRule_ok hi]
  exact slotAt_writeSlotEntry_same i ⟨v, true⟩ s

/-- A SINGLE that sends keeps the value and disarms the slot. -/
theorem slotAt_singleRule_of_sends {p : Params} {s : State} {i : Index} (hi : i.toNat < p.frameSlots)
    (harmed : (slotAt s i).armed = true) (hraw : (slotAt s i).raw ≠ 0) (d : BitVec 8) :
    slotAt (singleRule p i d s) i = ⟨(slotAt s i).raw, false⟩ := by
  rw [singleRule_of_sends hi harmed hraw]
  exact slotAt_writeSlotEntry_same i ⟨(slotAt s i).raw, false⟩ s

/-- Settles O60: the write arms the slot, the first SINGLE disarms it, and a disarmed slot does not send. -/
theorem writtenSlotIsSentOnce : Obligations.WrittenSlotIsSentOnce := by
  intro s i v d hi hv waits
  have hwaits : dwellStep d = waits := dwellStep_eq d
  have hwritten := slotAt_writeSlotRule hi v s
  generalize ha : writeSlotRule Config.params i v s = a at hwritten
  have harmed : (slotAt a i).armed = true := by rw [hwritten]
  have hraw : (slotAt a i).raw ≠ 0 := by rw [hwritten]; exact hv
  have hsend := singleRule_of_sends hi harmed hraw d
  have hsent := slotAt_singleRule_of_sends hi harmed hraw d
  rw [hwritten] at hsend hsent
  have hresponse := congrArg State.response hsend
  generalize hb : singleRule Config.params i d a = b at hsent hresponse
  have hkeep := singleRule_of_not_sends (s := b) hi (by rw [hsent]; exact fun h => nomatch h.1) d
  rw [hwaits] at hresponse hkeep
  refine ⟨a, b, _, congrArg Host.Outcome.next ha, congrArg Host.Outcome.next hb, congrArg Host.Outcome.next hkeep,
    hresponse, rfl, ?_⟩
  exact (congrArg SlotEntry.raw hsent :)

end Sys2Proof.Machine
end

section
/-! The whole machine: canonical tables, what no instruction reads, who writes what, runs, and LOAD_JOBS stepped through
(10_state.md section 6, 46_scheduler_commands.md R204, R210). -/

namespace Sys2Proof.Machine

/-! ## Canonical tables -/

section Tables

variable {α : Type}

/-- An index below those of a rising table is unlisted. -/
theorem tableFind_of_lt {lo i : Nat} {t : Table α} (ht : tableRising lo t = true) (hi : i < lo) :
    tableFind t i = none := by
  induction t generalizing lo with
  | nil => rfl
  | cons e t ih =>
    obtain ⟨k, v⟩ := e
    simp only [tableRising, Bool.and_eq_true, decide_eq_true_eq] at ht
    rw [tableFind, if_neg (by omega)]
    exact ih ht.2 (by omega)

/-- Where two rising tables read the same, the first index of the one is not below the first of the other. -/
theorem not_lt_of_tableFind_eq {k k' : Nat} {v v' : α} {t u : Table α} (hu : tableRising (k' + 1) u = true)
    (h : tableFind ((k, v) :: t) k = tableFind ((k', v') :: u) k) : ¬ k < k' := by
  intro hlt
  rw [tableFind, if_pos rfl, tableFind, if_neg (by omega), tableFind_of_lt hu (by omega)] at h
  cases h

/-- Rising tables that read the same everywhere are equal. -/
theorem eq_of_tableFind_eq {lo lo' : Nat} {t u : Table α} (ht : tableRising lo t = true)
    (hu : tableRising lo' u = true) (h : ∀ i, tableFind t i = tableFind u i) : t = u := by
  induction t generalizing lo lo' u with
  | nil =>
    cases u with
    | nil => rfl
    | cons e u => have := h e.1; simp [tableFind] at this
  | cons e t ih =>
    obtain ⟨k, v⟩ := e
    cases u with
    | nil => have := h k; simp [tableFind] at this
    | cons e' u =>
      obtain ⟨k', v'⟩ := e'
      simp only [tableRising, Bool.and_eq_true, decide_eq_true_eq] at ht hu
      obtain rfl : k = k' := Nat.le_antisymm (Nat.not_lt.1 (not_lt_of_tableFind_eq ht.2 (h k').symm))
        (Nat.not_lt.1 (not_lt_of_tableFind_eq hu.2 (h k)))
      have hhead := h k
      simp only [tableFind, if_true, Option.some.injEq] at hhead
      have htail (i : Nat) : tableFind t i = tableFind u i := by
        by_cases hi : i = k
        · rw [hi, tableFind_of_lt ht.2 (Nat.lt_succ_self k), tableFind_of_lt hu.2 (Nat.lt_succ_self k)]
        · have hi' := h i
          rwa [tableFind, if_neg hi, tableFind, if_neg hi] at hi'
      rw [hhead, ih ht.2 hu.2 htail]

theorem tableRising_of_tableWf {bound : Nat} {ok : α → Bool} {t : Table α} (h : tableWf bound ok t = true) :
    tableRising 0 t = true := by
  simp only [tableWf, Bool.and_eq_true] at h
  exact h.1

/-- Where no listed entry is the default, the default stands exactly for the unlisted. -/
theorem tableFind_eq_of_getD_eq [DecidableEq α] {dflt : α} {bound i : Nat} {t u : Table α}
    (ht : tableWf bound (fun e => e != dflt) t = true) (hu : tableWf bound (fun e => e != dflt) u = true)
    (h : (tableFind t i).getD dflt = (tableFind u i).getD dflt) : tableFind t i = tableFind u i := by
  cases hv : tableFind t i with
  | none =>
    cases hw : tableFind u i with
    | none => rfl
    | some w =>
      rw [hv, hw] at h
      exact absurd h.symm (bne_iff_ne.1 (tableWf_find hu hw).2)
  | some v =>
    cases hw : tableFind u i with
    | none =>
      rw [hv, hw] at h
      exact absurd h (bne_iff_ne.1 (tableWf_find ht hv).2)
    | some w =>
      rw [hv, hw] at h
      exact congrArg some h

end Tables

/-- Settles O53: canonical tables rise, and a default that no entry equals marks the unlisted. -/
theorem canonicalTablesAreEqualData : Obligations.CanonicalTablesAreEqualData := by
  constructor
  · intro bound ok t u ht hu h
    exact eq_of_tableFind_eq (tableRising_of_tableWf ht) (tableRising_of_tableWf hu) h
  · intro α _ dflt bound t u ht hu h
    exact eq_of_tableFind_eq (tableRising_of_tableWf ht) (tableRising_of_tableWf hu)
      fun i => tableFind_eq_of_getD_eq ht hu (h i)

/-! ## The response and the moves to come are not read -/

theorem jobRule_response (p : Params) (j : Job) (s : State) (x : Response) :
    jobRule p j { s with response := x } = jobRule p j s := by
  obtain ⟨kind, r, d⟩ := j
  cases kind <;> rfl

theorem tickRule_response (p : Params) (s : State) (x : Response) :
    tickRule p { s with response := x } = tickRule p s := by
  have hfetch : fetchJob p { s with response := x } s.pc = fetchJob p s s.pc := rfl
  unfold tickRule
  simp only [hfetch, jobRule_response]
  rfl

theorem jobRule_setPending (p : Params) (j : Job) (s : State) (l : List Request) :
    jobRule p j (setPending l s) = setPending l (jobRule p j s) := by
  obtain ⟨kind, r, d⟩ := j
  have hretransmit (c : RxChannel) :
      retransmitRule c r d (setPending l s) = setPending l (retransmitRule c r d s) := by
    simp only [retransmitRule, apply_ite (setPending l)]
    cases c <;> rfl
  cases kind with
  | skip | dwell | callback | stop => rfl
  | single =>
    change singleRule p r d (setPending l s) = setPending l (singleRule p r d s)
    simp only [singleRule, apply_ite (setPending l)]
    rfl
  | cyclic =>
    change cyclicRule p r d (setPending l s) = setPending l (cyclicRule p r d s)
    simp only [cyclicRule, apply_ite (setPending l)]
    rfl
  | retransmitRx1 => exact hretransmit .rx1
  | retransmitRx2 => exact hretransmit .rx2
  | jump =>
    change jumpRule p r d (setPending l s) = setPending l (jumpRule p r d s)
    simp only [jumpRule, apply_ite (setPending l)]
    rfl
  | ret =>
    change returnRule r d (setPending l s) = setPending l (returnRule r d s)
    unfold returnRule
    rw [setPending_ret]
    cases s.ret <;> rfl

theorem tickRule_setPending (p : Params) (s : State) (l : List Request) :
    tickRule p (setPending l s) = setPending l (tickRule p s) := by
  rcases tickRule_cases p s with ⟨hh, heq⟩ | ⟨hh, hc, heq⟩ | ⟨hh, hc, hf, heq⟩ | ⟨j, hh, hc, hf, heq⟩
  · rw [heq, tickRule_halted p (s := setPending l s) hh]; rfl
  · rw [heq, tickRule_cancelled p (s := setPending l s) hh hc]; rfl
  · rw [heq, tickRule_unreachable (s := setPending l s) hh hc hf]; rfl
  · rw [heq, tickRule_job (s := setPending l s) hh hc hf, jobRule_setPending]

theorem writeJobRule_setPending (p : Params) (i : Index) (w : BitVec 32) (s : State) (l : List Request) :
    writeJobRule p i w (setPending l s) = setPending l (writeJobRule p i w s) := by
  unfold writeJobRule
  split
  · cases decodeJobWord w <;> rfl
  · rfl

theorem exec_response (i : Instr) (s : State) (x : Response) : exec i { s with response := x } = exec i s := by
  cases hfam : family i with
  | codec =>
    obtain ⟨r, -, hexec⟩ := exec_codec hfam
    rw [hexec, hexec]
  | job =>
    obtain ⟨j, rfl⟩ := exists_jobInstr_eq hfam
    rw [exec_jobInstr, exec_jobInstr, jobRule_response]
  | command =>
    rcases command_cases hfam with
      rfl | ⟨k, w, rfl⟩ | ⟨a, b, rfl⟩ | ⟨k, v, rfl⟩ | ⟨c, e, n, o, v, rfl⟩ | rfl | rfl
    · rw [exec_tick, exec_tick, tickRule_response]
    · refine congrArg Host.Outcome.next ?_
      unfold writeJobRule
      cases decodeJobWord w <;> rfl
    · rfl
    · rfl
    · cases c <;> rfl
    · rfl
    · rfl

theorem exec_setPending {i : Instr} {s t : State} (h : exec i s = .next t) (l : List Request) :
    exec i (setPending l s) = .next (setPending l t) := by
  cases hfam : family i with
  | codec =>
    obtain ⟨r, -, hexec⟩ := exec_codec hfam
    rw [hexec] at h ⊢
    cases h
    rfl
  | job =>
    obtain ⟨j, rfl⟩ := exists_jobInstr_eq hfam
    rw [exec_jobInstr] at h ⊢
    cases h
    rw [jobRule_setPending]
  | command =>
    rcases command_cases hfam with
      rfl | ⟨k, w, rfl⟩ | ⟨a, b, rfl⟩ | ⟨k, v, rfl⟩ | ⟨c, e, n, o, v, rfl⟩ | rfl | rfl
    · rw [exec_tick] at h ⊢
      cases h
      rw [tickRule_setPending]
    · cases h
      exact congrArg Host.Outcome.next (writeJobRule_setPending _ k w s l)
    · cases h
      refine congrArg Host.Outcome.next ?_
      simp only [clearJobsRule, apply_ite (setPending l)]
      rfl
    · cases h
      refine congrArg Host.Outcome.next ?_
      simp only [writeSlotRule, apply_ite (setPending l)]
      rfl
    · cases h
      cases c <;> rfl
    · cases h
      rfl
    · cases h
      rfl

/-- Settles O55: both facts hold of every rule. -/
theorem responseAndPendingAreNotRead : Obligations.ResponseAndPendingAreNotRead :=
  fun i s x l => ⟨exec_response i s x, fun _ h => exec_setPending h l⟩

end Sys2Proof.Machine
end

section
/-! Who writes what (10_state.md R33), field by field over the effects of an instruction. -/

namespace Sys2Proof.Machine

/-! ## What a job leaves unchanged -/

/-- No job writes the job table, a receive table or `CANCEL`. -/
theorem JobEnd.frame {p : Params} {j : Job} {s t : State} (h : JobEnd p j s t) :
    t.jobs = s.jobs ∧ (∀ c e, rxAt t c e = rxAt s c e) ∧ t.cancel = s.cancel := by
  cases h <;> exact ⟨rfl, fun c _ => by cases c <;> rfl, rfl⟩

/-- A SINGLE keeps the value of every slot, and disarms its own slot alone; no other job reaches a slot. -/
theorem JobEnd.slot_kept {p : Params} {j : Job} {s t : State} (h : JobEnd p j s t) (k : Index) :
    (slotAt t k).raw = (slotAt s k).raw
      ∧ ((slotAt t k).armed ≠ (slotAt s k).armed → j.kind = .single ∧ j.frameRef = k) := by
  cases h with
  | advance | warn | jump | ret | fail | stop => exact ⟨rfl, fun hne => absurd rfl hne⟩
  | send hkind href =>
    by_cases hk : k = j.frameRef
    · subst hk
      exact ⟨(congrArg SlotEntry.raw (slotAt_writeSlotEntry_same j.frameRef _ s) :), fun _ => ⟨hkind, rfl⟩⟩
    · have hkept := slotAt_writeSlotEntry_other hk ⟨(slotAt s j.frameRef).raw, false⟩ s
      exact ⟨(congrArg SlotEntry.raw hkept :), fun hne => absurd (congrArg SlotEntry.armed hkept :) hne⟩

/-- Only a JUMP and a RETURN write `RET`. -/
theorem JobEnd.ret_ne {p : Params} {j : Job} {s t : State} (h : JobEnd p j s t) (hne : t.ret ≠ s.ret) :
    j.kind = .jump ∨ j.kind = .ret := by
  cases h with
  | jump hkind => exact .inl hkind
  | ret hkind => exact .inr hkind
  | advance | send | warn | fail | stop => exact absurd rfl hne

/-! ## Each piece of state and its owners -/

theorem Effect.jobs_ne {i : Instr} {s t : State} (h : Effect i s t) (hne : t.jobs ≠ s.jobs) :
    (∃ k w, i = .writeJob k w) ∨ ∃ a b, i = .clearJobs a b := by
  cases h with
  | writeJob => exact .inl ⟨_, _, rfl⟩
  | clearJobs => exact .inr ⟨_, _, rfl⟩
  | job j hj | tickJob j _ _ hj => exact absurd hj.frame.1 hne
  | codec | tickHalted | tickCancelled | tickUnreachable | writeSlot | rxUpdate | restart | cancel | refused =>
    exact absurd rfl hne

theorem Effect.raw_ne {i : Instr} {s t : State} (h : Effect i s t) {k : Index}
    (hne : (slotAt t k).raw ≠ (slotAt s k).raw) : ∃ v, i = .writeSlot k v := by
  cases h with
  | writeSlot =>
    rename_i k' v _
    by_cases hk : k = k'
    · exact ⟨v, by rw [hk]⟩
    · exact absurd (congrArg SlotEntry.raw (slotAt_writeSlotEntry_other hk ⟨v, true⟩ s) :) hne
  | job j hj | tickJob j _ _ hj => exact absurd (hj.slot_kept k).1 hne
  | codec | tickHalted | tickCancelled | tickUnreachable | writeJob | clearJobs | rxUpdate | restart | cancel
  | refused => exact absurd rfl hne

theorem Effect.armed_ne {i : Instr} {s t : State} (h : Effect i s t) {k : Index}
    (hne : (slotAt t k).armed ≠ (slotAt s k).armed) :
    (∃ v, i = .writeSlot k v) ∨ (∃ d, i = .single k d)
      ∨ (i = .tick ∧ ∃ d, fetchJob Config.params s s.pc = some ⟨.single, k, d⟩) := by
  cases h with
  | writeSlot =>
    rename_i k' v _
    by_cases hk : k = k'
    · exact .inl ⟨v, by rw [hk]⟩
    · exact absurd (congrArg SlotEntry.armed (slotAt_writeSlotEntry_other hk ⟨v, true⟩ s) :) hne
  | job j hj =>
    obtain ⟨kind, r, d⟩ := j
    obtain ⟨rfl, rfl⟩ := (hj.slot_kept k).2 hne
    exact .inr (.inl ⟨d, rfl⟩)
  | tickJob j hrun hfetch hj =>
    obtain ⟨kind, r, d⟩ := j
    obtain ⟨rfl, rfl⟩ := (hj.slot_kept k).2 hne
    exact .inr (.inr ⟨rfl, d, hfetch⟩)
  | codec | tickHalted | tickCancelled | tickUnreachable | writeJob | clearJobs | rxUpdate | restart | cancel
  | refused => exact absurd rfl hne

theorem Effect.rx_ne {i : Instr} {s t : State} (h : Effect i s t) {c : RxChannel} {e : Nat}
    (hne : rxAt t c e ≠ rxAt s c e) : ∃ x n o v, i = .rxUpdate c x n o v ∧ x.toNat = e := by
  cases h with
  | rxUpdate a b h =>
    rename_i c' x n o v
    rw [← h] at hne
    by_cases hsame : (c, e) = (c', x.toNat)
    · obtain ⟨rfl, rfl⟩ := Prod.mk.inj hsame
      exact ⟨x, n, o, v, rfl, rfl⟩
    · exact absurd ((rxAt_rxUpdateRule c' x n o v s).2 c e hsame) hne
  | job j hj | tickJob j _ _ hj => exact absurd (hj.frame.2.1 c e) hne
  | codec | tickHalted | tickCancelled | tickUnreachable | writeJob | clearJobs | writeSlot | restart | cancel
  | refused => cases c <;> exact absurd rfl hne

theorem Effect.pc_ne {i : Instr} {s t : State} (h : Effect i s t) (hne : t.pc ≠ s.pc) :
    i = .tick ∨ i = .restart ∨ family i = .job := by
  cases h with
  | tickHalted | tickCancelled | tickUnreachable | tickJob => exact .inl rfl
  | restart => exact .inr (.inl rfl)
  | job j => exact .inr (.inr (family_jobInstr j))
  | codec | writeJob | clearJobs | writeSlot | rxUpdate | cancel | refused => exact absurd rfl hne

theorem Effect.ret_ne {i : Instr} {s t : State} (h : Effect i s t) (hne : t.ret ≠ s.ret) :
    i = .restart ∨ (∃ r d, i = .jump r d ∨ i = .ret r d)
      ∨ (i = .tick ∧ ∃ j, fetchJob Config.params s s.pc = some j ∧ (j.kind = .jump ∨ j.kind = .ret)) := by
  cases h with
  | restart => exact .inl rfl
  | job j hj =>
    obtain ⟨kind, r, d⟩ := j
    refine .inr (.inl ⟨r, d, ?_⟩)
    rcases hj.ret_ne hne with rfl | rfl
    · exact .inl rfl
    · exact .inr rfl
  | tickJob j hrun hfetch hj => exact .inr (.inr ⟨rfl, j, hfetch, hj.ret_ne hne⟩)
  | codec | tickHalted | tickCancelled | tickUnreachable | writeJob | clearJobs | writeSlot | rxUpdate | cancel
  | refused => exact absurd rfl hne

theorem Effect.cancel_ne {i : Instr} {s t : State} (h : Effect i s t) (hne : t.cancel ≠ s.cancel) :
    i = .cancel ∨ i = .restart := by
  cases h with
  | cancel => exact .inl rfl
  | restart => exact .inr rfl
  | job j hj | tickJob j _ _ hj => exact absurd hj.frame.2.2 hne
  | codec | tickHalted | tickCancelled | tickUnreachable | writeJob | clearJobs | writeSlot | rxUpdate | refused =>
    exact absurd rfl hne

/-- Settles O58: the owners of each piece of state, read off the effects. -/
theorem onlyTheOwnersWrite : Obligations.OnlyTheOwnersWrite := by
  intro i s t hexec
  have h := effect_of_exec hexec
  exact ⟨h.jobs_ne, fun _ => h.raw_ne, fun _ => h.armed_ne, fun _ _ => h.rx_ne, h.pc_ne, h.ret_ne, h.cancel_ne⟩

end Sys2Proof.Machine
end

section
/-! Runs of the machine: the stability of a halted scheduler, its initial parts and its one end
(46_scheduler_commands.md R210), and LOAD_JOBS stepped through (R204). -/

namespace Sys2Proof.Machine

/-! ## Halted -/

theorem step_of_halted {s : State} (hh : s.halted = true) (hpending : s.pending = []) :
    step s = .next { s with response := ⟨.ok, .actions [.halted]⟩ } := by
  rw [step_nil hpending, exec_tick, tickRule_halted _ hh]
  rfl

/-- Ticks of a halted scheduler, one after another. -/
theorem run_of_halted (k : Nat) {s : State} (hh : s.halted = true) (hpending : s.pending = []) :
    Host.Core.run Sys2Proof.core (k + 1) s = .next { s with response := ⟨.ok, .actions [.halted]⟩ } := by
  induction k generalizing s with
  | zero => exact core_run_succ 0 (step_of_halted hh hpending)
  | succ k ih => exact (core_run_succ (k + 1) (step_of_halted hh hpending)).trans (ih hh hpending)

/-! ## Initial parts of a run -/

/-- One more step of an initial part of a run: it is over, or the machine's step and its response come first. -/
theorem runPrefix_succ_cases (k : Nat) (s : State) :
    (s.halted = true ∧ runPrefix (k + 1) s = ⟨s, []⟩)
      ∨ ∃ t, s.halted = false ∧ step s = .next t
        ∧ runPrefix (k + 1) s = ⟨(runPrefix k t).final, t.response :: (runPrefix k t).returned⟩ := by
  cases hh : s.halted with
  | true => exact .inl ⟨rfl, runPrefix_of_halted _ hh⟩
  | false =>
    obtain ⟨t, ht⟩ := everyStepCompletes.2 s
    exact .inr ⟨t, rfl, ht, runPrefix_succ_of_step k hh ht⟩

theorem length_returned_le (k : Nat) (s : State) : (runPrefix k s).returned.length ≤ k := by
  induction k generalizing s with
  | zero => exact Nat.le_refl 0
  | succ k ih =>
    rcases runPrefix_succ_cases k s with ⟨-, heq⟩ | ⟨t, -, -, heq⟩
    · rw [heq]; exact Nat.zero_le _
    · rw [heq]; exact Nat.succ_le_succ (ih t)

/-- An initial part of a run ends where the machine's own run of its length ends. -/
theorem run_length_returned (k : Nat) (s : State) :
    Host.Core.run Sys2Proof.core (runPrefix k s).returned.length s = .next (runPrefix k s).final := by
  induction k generalizing s with
  | zero => rfl
  | succ k ih =>
    rcases runPrefix_succ_cases k s with ⟨-, heq⟩ | ⟨t, -, ht, heq⟩
    · rw [heq]; rfl
    · rw [heq]; exact (core_run_succ _ ht).trans (ih t)

/-- Each entry of an initial part of a run is the response of the machine's step at that place, from a state that is
not halted. -/
theorem returned_getElem? {k : Nat} {s : State} {i : Nat} (hi : i < (runPrefix k s).returned.length) :
    ∃ u v : State, Host.Core.run Sys2Proof.core i s = .next u ∧ u.halted = false ∧ step u = .next v
      ∧ (runPrefix k s).returned[i]? = some v.response := by
  induction k generalizing s i with
  | zero => exact absurd hi (Nat.not_lt_zero i)
  | succ k ih =>
    rcases runPrefix_succ_cases k s with ⟨-, heq⟩ | ⟨t, hh, ht, heq⟩
    · rw [heq] at hi; exact absurd hi (Nat.not_lt_zero i)
    · rw [heq] at hi ⊢
      cases i with
      | zero => exact ⟨s, t, rfl, hh, ht, rfl⟩
      | succ i =>
        obtain ⟨u, v, hrun, hrest⟩ := ih (Nat.lt_of_succ_lt_succ hi)
        exact ⟨u, v, (core_run_succ i ht).trans hrun, hrest⟩

/-- An initial part shorter than asked for is over. -/
theorem runOver_of_length_lt {k : Nat} {s : State} (h : (runPrefix k s).returned.length < k) :
    runOver (runPrefix k s).final := by
  induction k generalizing s with
  | zero => exact absurd h (Nat.not_lt_zero _)
  | succ k ih =>
    rcases runPrefix_succ_cases k s with ⟨hh, heq⟩ | ⟨t, -, -, heq⟩
    · rw [heq]; exact hh
    · rw [heq] at h ⊢; exact ih (Nat.lt_of_succ_lt_succ h)

/-- An initial part that is over is the whole run. -/
theorem runPrefix_add_of_runOver {k : Nat} {s : State} (h : runOver (runPrefix k s).final) (m : Nat) :
    runPrefix (k + m) s = runPrefix k s := by
  induction k generalizing s with
  | zero => exact runPrefix_of_halted (0 + m) h
  | succ k ih =>
    rw [Nat.succ_add]
    rcases runPrefix_succ_cases k s with ⟨hh, heq⟩ | ⟨t, hh, ht, heq⟩
    · rw [heq, runPrefix_of_halted _ hh]
    · rw [heq] at h
      rw [heq, runPrefix_succ_of_step (k + m) hh ht, ih h]

/-- Two ends of a run are the longer of two initial parts. -/
theorem RunEnds.unique {s f f' : State} {l l' : List Response} (h : RunEnds s f l) (h' : RunEnds s f' l') :
    f = f' ∧ l = l' := by
  obtain ⟨⟨k, hk⟩, hover⟩ := h
  obtain ⟨⟨k', hk'⟩, hover'⟩ := h'
  have hlong := runPrefix_add_of_runOver (k := k) (s := s) (by rwa [hk]) k'
  have hlong' := runPrefix_add_of_runOver (k := k') (s := s) (by rwa [hk']) k
  rw [Nat.add_comm, hlong, hk, hk'] at hlong'
  exact RunPrefix.mk.inj hlong'

/-- Settles O59: the ticks of a halted scheduler; the facts on initial parts; the uniqueness of an end. -/
theorem haltedIsStableUnderTicks : Obligations.HaltedIsStableUnderTicks := by
  refine ⟨fun s k hh hpending => run_of_halted k hh hpending, fun k s => ?_, fun s f f' l l' => RunEnds.unique⟩
  refine ⟨length_returned_le k s, run_length_returned k s, fun i hi => ?_, runOver_of_length_lt,
    runPrefix_add_of_runOver⟩
  obtain ⟨u, v, hrun, hh, hstep, hentry⟩ := returned_getElem? hi
  exact ⟨u, v, hrun, hh, hstep, hentry, by rw [runTrace_getElem?, hentry]; rfl⟩

/-! ## LOAD_JOBS -/

/-- `jobWordOk`, on the three extracts of a word, says that the word is a job (R203). -/
theorem jobWordOk_iff (w : BitVec 32) : jobWordOk w = true ↔ ∃ j, decodeJobWord w = .ok j := by
  rw [jobWordDecodesExactlyWhenOk w]
  simp [jobWordOk, Nat.shiftRight_eq_div_pow, and_assoc]

/-- The writes of a list that WRITE_JOB accepts. -/
def goodWrites (p : Params) (l : List (Index × BitVec 32)) : List (Index × BitVec 32) :=
  l.filter fun e => decide (e.1.toNat < p.jobSlots) && jobWordOk e.2

theorem goodWrites_cons_good {p : Params} {i : Index} {w : BitVec 32} {j : Job} (hi : i.toNat < p.jobSlots)
    (hj : decodeJobWord w = .ok j) (l : List (Index × BitVec 32)) :
    goodWrites p ((i, w) :: l) = (i, w) :: goodWrites p l :=
  List.filter_cons_of_pos (by simp [hi, (jobWordOk_iff w).2 ⟨j, hj⟩])

theorem goodWrites_cons_bad {p : Params} {i : Index} {w : BitVec 32}
    (h : p.jobSlots ≤ i.toNat ∨ ∀ j, decodeJobWord w ≠ .ok j) (l : List (Index × BitVec 32)) :
    goodWrites p ((i, w) :: l) = goodWrites p l := by
  refine List.filter_cons_of_neg ?_
  rw [Bool.and_eq_true, decide_eq_true_eq, jobWordOk_iff, not_and_or, Nat.not_lt, not_exists]
  exact h

/-- One write of LOAD_JOBS is accepted, or its index or word is bad and it is refused. -/
theorem writeJob_good_or_bad (p : Params) (i : Index) (w : BitVec 32) :
    (∃ j, i.toNat < p.jobSlots ∧ decodeJobWord w = .ok j) ∨ (p.jobSlots ≤ i.toNat ∨ ∀ j, decodeJobWord w ≠ .ok j) := by
  by_cases hj : ∃ j, decodeJobWord w = .ok j
  · rcases Nat.lt_or_ge i.toNat p.jobSlots with hi | hi
    · exact .inl (hj.imp fun j hj => ⟨hi, hj⟩)
    · exact .inr (.inl hi)
  · exact .inr (.inr (not_exists.1 hj))

/-- The second state differs from the first in the job table and the response at most. -/
def JobsOnly (s t : State) : Prop := t = { s with jobs := t.jobs, response := t.response }

theorem JobsOnly.trans {s t u : State} (h : JobsOnly s t) (h' : JobsOnly t u) : JobsOnly s u := by
  unfold JobsOnly at h'
  rw [h] at h'
  exact h'

theorem jobsOnly_writeJobRule (p : Params) (i : Index) (w : BitVec 32) (s : State) :
    JobsOnly s (writeJobRule p i w s) := by
  rcases writeJobRule_cases p i w s with ⟨j, -, -, heq⟩ | heq
  · rw [heq]; rfl
  · rw [heq]; rfl

theorem jobsOnly_clearJobsRule (p : Params) (a b : Index) (s : State) : JobsOnly s (clearJobsRule p a b s) := by
  rcases clearJobsRule_cases p a b s with heq | heq
  · rw [heq]; rfl
  · rw [heq]; rfl

theorem jobsOnly_loadJobsWrites (p : Params) (l : List (Index × BitVec 32)) (st : Status) (s : State) :
    JobsOnly s (loadJobsWrites p l st s).2 := by
  induction l generalizing st s with
  | nil => rfl
  | cons e l ih => exact (jobsOnly_writeJobRule p e.1 e.2 s).trans (ih _ _)

/-- LOAD_JOBS touches the job table and the registers it restarts (R204, R205). -/
theorem loadJobs_eq (p : Params) (l : List (Index × BitVec 32)) (s : State) :
    (loadJobs p l s).2 = { s with pc := 0, ret := none, halted := false, cancel := false,
                                  jobs := (loadJobs p l s).2.jobs, response := ⟨.ok, .none⟩ } := by
  have hwrites : JobsOnly s (loadJobsWrites p l .ok (clearJobsRule p 0 p.jobLast s)).2 :=
    (jobsOnly_clearJobsRule p 0 p.jobLast s).trans (jobsOnly_loadJobsWrites p l .ok _)
  exact congrArg restartRule hwrites

/-- The status so far decides nothing about the state. -/
theorem loadJobsWrites_setPending (p : Params) (l : List (Index × BitVec 32)) (st st' : Status) (s : State)
    (moves : List Request) :
    (loadJobsWrites p l st (setPending moves s)).2 = setPending moves (loadJobsWrites p l st' s).2 := by
  induction l generalizing st st' s with
  | nil => rfl
  | cons e l ih =>
    obtain ⟨i, w⟩ := e
    simp only [loadJobsWrites, writeJobRule_setPending]
    exact ih _ _ _

/-- A slot holds the last good word the list gives it, or what it held (R204). -/
theorem jobAt_loadJobsWrites (p : Params) (l : List (Index × BitVec 32)) (st : Status) (s : State) (k : Index) :
    jobAt (loadJobsWrites p l st s).2 k
      = ((goodWrites p l).filter fun e => e.1 = k).getLast?.elim (jobAt s k) fun e => (decodeJobWord e.2).toOption := by
  induction l generalizing st s with
  | nil => rfl
  | cons e l ih =>
    obtain ⟨i, w⟩ := e
    refine (ih _ (writeJobRule p i w s)).trans ?_
    rcases writeJob_good_or_bad p i w with ⟨j, hi, hj⟩ | hbad
    · rw [goodWrites_cons_good hi hj, writeJobRule_ok hi hj]
      by_cases hk : i = k
      · subst hk
        have hslot : jobAt (respond .ok .none (writeJobSlot i j s)) i = (decodeJobWord w).toOption := by
          rw [hj]; exact jobAt_writeJobSlot_same i j s
        rw [List.filter_cons_of_pos (by simp), List.getLast?_cons, hslot]
        cases ((goodWrites p l).filter fun e => e.1 = i).getLast? <;> rfl
      · have hslot : jobAt (respond .ok .none (writeJobSlot i j s)) k = jobAt s k :=
          jobAt_writeJobSlot_other (Ne.symm hk) j s
        rw [List.filter_cons_of_neg (by simpa using hk), hslot]
    · rw [goodWrites_cons_bad hbad, writeJobRule_error hbad]
      rfl

/-- The status is that of the first write that failed (R204). -/
theorem status_loadJobsWrites (p : Params) (l : List (Index × BitVec 32)) (st : Status) (s : State) :
    (loadJobsWrites p l st s).1
      = if st = .ok then (if (goodWrites p l).length = l.length then .ok else .invalidFieldSpec) else st := by
  induction l generalizing st s with
  | nil => cases st <;> rfl
  | cons e l ih =>
    obtain ⟨i, w⟩ := e
    have hle : (goodWrites p l).length ≤ l.length := List.length_filter_le _ _
    refine (ih _ _).trans ?_
    by_cases hst : st = .ok
    · rcases writeJob_good_or_bad p i w with ⟨j, hi, hj⟩ | hbad
      · simp [hst, goodWrites_cons_good hi hj, writeJobRule_ok hi hj]
      · have hne : (goodWrites p l).length ≠ l.length + 1 := by omega
        simp [hst, goodWrites_cons_bad hbad, writeJobRule_error hbad, hne]
    · simp only [hst, if_false]

/-- Stepping through the writes, whatever comes behind them. -/
theorem run_loadJobsWrites (l : List (Index × BitVec 32)) (st : Status) (k : Nat) {s : State} {rest : List Request}
    (h : s.pending = (l.map fun e => .command 1 { index := e.1, word := e.2 }) ++ rest) :
    Host.Core.run Sys2Proof.core (l.length + k) s
      = Host.Core.run Sys2Proof.core k (setPending rest (loadJobsWrites Config.params l st s).2) := by
  induction l generalizing st s with
  | nil =>
    have hs : setPending rest s = s := by rw [← show s.pending = rest from h]; rfl
    rw [List.length_nil, Nat.zero_add]
    exact congrArg (Host.Core.run Sys2Proof.core k) hs.symm
  | cons e l ih =>
    obtain ⟨i, w⟩ := e
    have hstep := step_cons_ok h (i := .writeJob i w) rfl
    have hnext : step s = .next (setPending ((l.map fun e => .command 1 { index := e.1, word := e.2 }) ++ rest)
        (writeJobRule Config.params i w s)) :=
      hstep.trans (congrArg Host.Outcome.next (writeJobRule_setPending _ i w s _))
    rw [List.length_cons, Nat.succ_add, core_run_succ _ hnext, ih st rfl]
    refine congrArg (Host.Core.run Sys2Proof.core k) ?_
    rw [loadJobsWrites_setPending Config.params l st _ _ _]
    rfl

/-- The clearing of the whole table is accepted. -/
theorem clearJobsRule_all (p : Params) (s : State) :
    clearJobsRule p 0 p.jobLast s = respond .ok .none (clearJobSlots 0 p.jobLast s) :=
  clearJobsRule_ok (Nat.zero_le _) (Nat.lt_succ_self _) s

theorem step_restart {s : State} {rest : List Request} (h : s.pending = .command 5 {} :: rest) :
    step s = .next (setPending rest (restartRule s)) := step_cons_ok h (i := .restart) rfl

/-- Stepping through LOAD_JOBS leaves what the rule of LOAD_JOBS says, the moves behind it still to come. -/
theorem run_loadJobs {l : List (Index × BitVec 32)} {s : State} {rest : List Request}
    (h : s.pending = loadJobsRequests Config.params l ++ rest) :
    Host.Core.run Sys2Proof.core (l.length + 2) s = .next (setPending rest (loadJobs Config.params l s).2) := by
  let moves : List Request :=
    (l.map fun e => .command 1 { index := e.1, word := e.2 }) ++ (.command 5 {} :: rest)
  have hpending : s.pending = .command 2 { first := 0, last := Config.params.jobLast } :: moves := by
    rw [h, loadJobsRequests]; simp [moves]
  have hclear : step s = .next (setPending moves (clearJobsRule Config.params 0 Config.params.jobLast s)) := by
    rw [step_cons_ok hpending (i := .clearJobs 0 Config.params.jobLast) rfl, clearJobsRule_all]
    exact congrArg Host.Outcome.next (clearJobsRule_all _ _)
  rw [show l.length + 2 = (l.length + 1) + 1 from rfl, core_run_succ _ hclear,
    run_loadJobsWrites l .ok 1 (rest := .command 5 {} :: rest) rfl,
    loadJobsWrites_setPending _ _ .ok .ok]
  let written := (loadJobsWrites Config.params l .ok (clearJobsRule Config.params 0 Config.params.jobLast s)).2
  have hrestart : step (setPending (.command 5 {} :: rest) written) = .next (setPending rest (restartRule written)) :=
    step_restart (s := setPending (.command 5 {} :: rest) written) rfl
  exact core_run_succ 0 hrestart

/-- Settles O49: the run leaves the state of `loadJobs`, whose registers, table and status are known. -/
theorem loadJobsBuildsTheTable : Obligations.LoadJobsBuildsTheTable := by
  intro l s rest h good
  let cleared := clearJobsRule Config.params 0 Config.params.jobLast s
  have hempty (k : Index) (hk : k.toNat < Config.params.jobSlots) : jobAt cleared k = none := by
    rw [show cleared = _ from clearJobsRule_all _ s]
    exact (jobAt_clearJobSlots 0 Config.params.jobLast k s).trans (if_pos ⟨Nat.zero_le _, Nat.le_of_lt_succ hk⟩)
  refine ⟨_, run_loadJobs h, ?_, fun k hk => ?_, status_loadJobsWrites Config.params l .ok cleared, ?_⟩
  · exact congrArg (setPending rest) (loadJobs_eq Config.params l s)
  · refine (jobAt_loadJobsWrites Config.params l .ok cleared k).trans ?_
    rw [hempty k hk]
    change _ = (((goodWrites Config.params l).filter fun e => e.1 = k).getLast?).bind _
    cases ((goodWrites Config.params l).filter fun e => e.1 = k).getLast? <;> rfl
  · rw [loadJobs_eq]
    rfl

end Sys2Proof.Machine
end

section
/-! The laws of the bit field (40_bitfield.md R103), of COMBINE_SSM and of a created frame
(44_frame_builder_reader.md R164, R165). -/

namespace Sys2Proof.Machine

/-! ## Bit fields -/

theorem withField_withField_same {p z : BitVec 8} (h : FieldLegal p z) (f : Frame) (v v' : BitVec 32) :
    withField (withField f p z v) p z v' = withField f p z v' := by
  apply BitVec.eq_of_getLsbD_eq
  intro k _
  by_cases hk : p.toNat - 1 ≤ k ∧ k < p.toNat - 1 + z.toNat
  · rw [getLsbD_withField h, if_pos hk, getLsbD_withField h, if_pos hk]
  · rw [getLsbD_withField_outside h _ _ hk, getLsbD_withField_outside h _ _ hk, getLsbD_withField_outside h _ _ hk]

theorem fieldBits_withField {p z : BitVec 8} (h : FieldLegal p z) (f : Frame) (v : BitVec 32) :
    fieldBits (withField f p z v) p z = v &&& mask z.toNat := by
  have hz : z.toNat ≤ 32 := by have := h.2.2; omega
  apply BitVec.eq_of_getLsbD_eq
  intro k _
  rw [getLsbD_fieldBits h, BitVec.getLsbD_and, getLsbD_mask hz]
  by_cases hk : k < z.toNat
  · rw [getLsbD_withField_inside h f v hk, Bool.and_comm]
  · simp [hk]

theorem withField_fieldBits {p z : BitVec 8} (h : FieldLegal p z) (f : Frame) :
    withField f p z (fieldBits f p z) = f := by
  apply BitVec.eq_of_getLsbD_eq
  intro k _
  by_cases hk : p.toNat - 1 ≤ k ∧ k < p.toNat - 1 + z.toNat
  · rw [getLsbD_withField h, if_pos hk, getLsbD_fieldBits h, decide_eq_true (by omega), Bool.true_and,
      Nat.add_sub_cancel' hk.1]
  · exact getLsbD_withField_outside h f _ hk

theorem withField_comm {p z p' z' : BitVec 8} (h : FieldLegal p z) (h' : FieldLegal p' z')
    (hdisjoint : p.toNat + z.toNat ≤ p'.toNat ∨ p'.toNat + z'.toNat ≤ p.toNat) (f : Frame) (v v' : BitVec 32) :
    withField (withField f p z v) p' z' v' = withField (withField f p' z' v') p z v := by
  have hp : 9 ≤ p.toNat := h.2.1
  have hp' : 9 ≤ p'.toNat := h'.2.1
  apply BitVec.eq_of_getLsbD_eq
  intro k _
  simp only [getLsbD_withField h, getLsbD_withField h']
  by_cases hk : p.toNat - 1 ≤ k ∧ k < p.toNat - 1 + z.toNat
  · rw [if_pos hk, if_pos hk, if_neg (by omega)]
  · rw [if_neg hk, if_neg hk]

/-- Settles O11: the four laws bit by bit, inside and outside the field. -/
theorem bitFieldLaws : Obligations.BitFieldLaws := by
  intro f p z v h
  exact ⟨withField_withField_same h f v v, fieldBits_withField h f v, withField_fieldBits h f,
    fun p' z' v' h' hdisjoint => withField_comm h h' hdisjoint f v v'⟩

/-- Only the low bits of a value matter inside a field. -/
theorem withField_congr {p z : BitVec 8} (h : FieldLegal p z) (f : Frame) {v v' : BitVec 32}
    (hv : ∀ k, k < z.toNat → v.getLsbD k = v'.getLsbD k) : withField f p z v = withField f p z v' := by
  apply BitVec.eq_of_getLsbD_eq
  intro k _
  by_cases hk : p.toNat - 1 ≤ k ∧ k < p.toNat - 1 + z.toNat
  · rw [getLsbD_withField h, if_pos hk, getLsbD_withField h, if_pos hk, hv _ (by omega)]
  · rw [getLsbD_withField_outside h _ _ hk, getLsbD_withField_outside h _ _ hk]

/-- Bits outside the field are kept, as a number. -/
theorem withField_bits_kept {p z : BitVec 8} (h : FieldLegal p z) (f : Frame) (v : BitVec 32) {lo n : Nat}
    (hout : lo + n ≤ p.toNat - 1 ∨ p.toNat - 1 + z.toNat ≤ lo) :
    (withField f p z v).toNat / 2 ^ lo % 2 ^ n = f.toNat / 2 ^ lo % 2 ^ n := by
  have hextract : (withField f p z v).extractLsb' lo n = f.extractLsb' lo n := by
    apply BitVec.eq_of_getLsbD_eq
    intro k hk
    rw [BitVec.getLsbD_extractLsb', BitVec.getLsbD_extractLsb', getLsbD_withField_outside h f v (by omega)]
  have hnat := congrArg BitVec.toNat hextract
  rwa [BitVec.extractLsb'_toNat, BitVec.extractLsb'_toNat, Nat.shiftRight_eq_div_pow, Nat.shiftRight_eq_div_pow] at hnat

/-! ## COMBINE_SSM -/

/-- A value is read back from its code. -/
@[simp] theorem ssmOfCode_ssmCode (m : SsmValue) : ssmOfCode (ssmCode m) = some m := by
  cases m <;> rfl

/-- A code is that of the value it is read as. -/
theorem ssmCode_of_ssmOfCode {c : BitVec 3} {m : SsmValue} (h : ssmOfCode c = some m) : ssmCode m = c := by
  revert c; cases m <;> decide

/-- The codes 5 to 7, and only they, are those of no value. -/
theorem ssmOfCode_eq_none_iff (c : BitVec 3) : ssmOfCode c = none ↔ 4 < c.toNat := by
  revert c; decide

theorem exists_ssmCode_eq {c : BitVec 3} (h : c.toNat ≤ 4) : ∃ m, ssmCode m = c := by
  obtain ⟨m, hm⟩ := Option.ne_none_iff_exists'.1 (mt (ssmOfCode_eq_none_iff c).1 (Nat.not_lt.2 h))
  exact ⟨m, ssmCode_of_ssmOfCode hm⟩

/-- The order of R164, least first. -/
theorem ssmRank_eq_idxOf (m : SsmValue) : ssmRank m
    = [SsmValue.data, .normalOperation, .functionalTest, .noComputedData, .failureWarning].idxOf m := by
  cases m <;> rfl

theorem ssmRank_injective : Function.Injective ssmRank := by
  intro a b h
  rw [ssmRank_eq_idxOf, ssmRank_eq_idxOf] at h
  exact (List.idxOf_inj (by cases a <;> decide)).1 h

theorem ssmRank_combineSsm (a b : SsmValue) : ssmRank (combineSsm a b) = max (ssmRank a) (ssmRank b) := by
  unfold combineSsm
  split
  · exact (max_eq_left ‹_›).symm
  · exact (max_eq_right (Nat.le_of_not_le ‹_›)).symm

/-- Settles O32: legal codes are those of two values, combined by rank; any other code is refused. -/
theorem combineSsmTakesThePriority : Obligations.CombineSsmTakesThePriority := by
  intro a b s order
  constructor
  · intro ha hb
    obtain ⟨x, rfl⟩ := exists_ssmCode_eq ha
    obtain ⟨y, rfl⟩ := exists_ssmCode_eq hb
    refine ⟨x, y, combineSsm x y, rfl, rfl, ?_, ?_⟩
    · have hres : combineSsmResult (ssmCode x) (ssmCode y) = .ok (.ssm (combineSsm x y)) := by
        rw [combineSsmResult, ssmOfCode_ssmCode, ssmOfCode_ssmCode]
      exact congrArg (codecEnd · s) hres
    · have hrank := ssmRank_combineSsm x y
      rwa [ssmRank_eq_idxOf, ssmRank_eq_idxOf, ssmRank_eq_idxOf] at hrank
  · intro h
    have hres : combineSsmResult a b = .error .invalidFieldSpec := by
      unfold combineSsmResult
      rcases h with ha | hb
      · rw [(ssmOfCode_eq_none_iff a).2 ha]
      · rw [(ssmOfCode_eq_none_iff b).2 hb]
        cases ssmOfCode a <;> rfl
    exact congrArg (codecEnd · s) hres

/-! ## The laws of R165 -/

/-- The semilattice laws of COMBINE_SSM are those of the maximum of ranks. -/
theorem combineSsm_laws (a b c : SsmValue) :
    combineSsm a b = combineSsm b a ∧ combineSsm a (combineSsm b c) = combineSsm (combineSsm a b) c
      ∧ combineSsm a a = a ∧ combineSsm .data a = a ∧ combineSsm .failureWarning a = .failureWarning := by
  refine ⟨?_, ?_, ?_, ?_, ?_⟩ <;> apply ssmRank_injective <;> simp only [ssmRank_combineSsm]
  · exact max_comm _ _
  · exact (max_assoc _ _ _).symm
  · exact max_self _
  · exact max_eq_right (Nat.zero_le _)
  · exact max_eq_left (by cases a <;> decide)

/-- A created frame reads back its label and its SDI code, 0 under `Data`. -/
theorem newFrame_reads {label : BitVec 16} (h : label.toNat ≤ 255) (m : SdiMode) :
    (newFrame label m).extractLsb' 0 8 = BitVec.ofNat 8 label.toNat
      ∧ (newFrame label m).extractLsb' 8 2
        = if (sdiModeCode m).toNat = 4 then 0 else BitVec.ofNat 2 (sdiModeCode m).toNat := by
  have hnat := toNat_newFrame h m
  constructor
  · apply BitVec.eq_of_toNat_eq
    rw [BitVec.extractLsb'_toNat, Nat.shiftRight_zero, hnat, BitVec.toNat_ofNat]
    split <;> omega
  · apply BitVec.eq_of_toNat_eq
    rw [BitVec.extractLsb'_toNat, Nat.shiftRight_eq_div_pow, hnat]
    split
    · change _ = 0; omega
    · rw [BitVec.toNat_ofNat]; omega

/-- Settles O33: the maximum of ranks, the created frame as a number, and the bits a field does not cover. -/
theorem frameAndCombineLaws : Obligations.FrameAndCombineLaws := by
  refine ⟨combineSsm_laws, fun label sdi s hlabel hsdi => ?_, fun f p z v h => ⟨?_, fun hp => ?_, fun hz => ?_⟩⟩
  · obtain ⟨m, rfl⟩ := exists_sdiModeCode_eq hsdi
    obtain ⟨hread, hsdiRead⟩ := newFrame_reads hlabel m
    refine ⟨_, createFrame_answers_frame hlabel m s, ?_, ?_⟩
    · rw [← hread]; exact readLabel_answers _ s
    · rw [← hsdiRead]; exact readSdi_answers _ s
  · have hkept := withField_bits_kept h f v (lo := 0) (n := 8) (by have := h.2.1; omega)
    rwa [Nat.pow_zero, Nat.div_one, Nat.div_one] at hkept
  · exact withField_bits_kept h f v (lo := 8) (n := 2) (by omega)
  · exact withField_bits_kept h f v (lo := 29) (n := 2) (by have := h.2.1; omega)

end Sys2Proof.Machine
end

section
/-! BCD packing and unpacking as one operation, the digits of one base at the powers of another (41_bcd_codec.md R110 to
R114). -/

namespace Sys2Proof.Machine

/-! ## Digits of one base at the powers of another -/

/-- The first `k` digits of `n` in base `b`, at the powers of `c`. -/
def digitSum (b c k n : Nat) : Nat := ∑ i ∈ Finset.range k, n / b ^ i % b * c ^ i

theorem digitSum_succ (b c k n : Nat) : digitSum b c (k + 1) n = n % b + c * digitSum b c k (n / b) := by
  have hterm (i : Nat) : n / b ^ (i + 1) % b * c ^ (i + 1) = c * (n / b / b ^ i % b * c ^ i) := by
    rw [Nat.div_div_eq_div_mul, ← Nat.pow_succ', Nat.pow_succ c i]; ring
  rw [digitSum, Finset.sum_range_succ', digitSum, Finset.mul_sum, Nat.add_comm]
  simp only [hterm, Nat.pow_zero, Nat.div_one, Nat.mul_one]

/-- Digits past the last one are 0. -/
theorem digitSum_of_lt {b k m n : Nat} (hb : 0 < b) (c : Nat) (hn : n < b ^ k) (hkm : k ≤ m) :
    digitSum b c m n = digitSum b c k n := by
  refine (Finset.sum_subset (Finset.range_mono hkm) fun i _ hi => ?_).symm
  have hpow : b ^ k ≤ b ^ i := Nat.pow_le_pow_right hb (by simpa using hi)
  rw [Nat.div_eq_of_lt (hn.trans_le hpow), Nat.zero_mod, Nat.zero_mul]

/-- The first `k` digits are those of the number cut to `k` digits. -/
theorem digitSum_mod (b c k n : Nat) : digitSum b c k (n % b ^ k) = digitSum b c k n := by
  induction k generalizing n with
  | zero => rfl
  | succ k ih =>
    rw [digitSum_succ, digitSum_succ, Nat.pow_succ', Nat.mod_mul_right_mod, Nat.mod_mul_right_div_self, ih]

/-- Cut to `k` places, what is left are the first `k` digits. -/
theorem digitSum_mod_pow {b c : Nat} (hb : 0 < b) (hbc : b ≤ c) {k m : Nat} (hkm : k ≤ m) (n : Nat) :
    digitSum b c m n % c ^ k = digitSum b c k n := by
  induction k generalizing m n with
  | zero => rw [Nat.pow_zero, Nat.mod_one]; rfl
  | succ k ih =>
    obtain ⟨m, rfl⟩ : ∃ m', m = m' + 1 := ⟨m - 1, by omega⟩
    have hdigit : n % b < c := (Nat.mod_lt n hb).trans_le hbc
    rw [digitSum_succ, digitSum_succ, Nat.pow_succ', Nat.mod_mul, Nat.add_mul_mod_self_left, Nat.mod_eq_of_lt hdigit,
      Nat.add_mul_div_left _ _ (by omega), Nat.div_eq_of_lt hdigit, Nat.zero_add, ih (by omega)]

theorem digitSum_lt {b c : Nat} (hb : 0 < b) (hbc : b ≤ c) (k n : Nat) : digitSum b c k n < c ^ k := by
  rw [← digitSum_mod_pow hb hbc (Nat.le_refl k) n]
  exact Nat.mod_lt _ (Nat.pow_pos (by omega))

/-- Digits that fit base `c` are put back by reading them in base `c`. -/
theorem digitSum_digitSum {b c k n : Nat} (hdigit : ∀ i, i < k → n / b ^ i % b < c) :
    digitSum c b k (digitSum b c k n) = n % b ^ k := by
  induction k generalizing n with
  | zero => rw [Nat.pow_zero, Nat.mod_one]; rfl
  | succ k ih =>
    have hfirst : n % b < c := by simpa using hdigit 0 (Nat.succ_pos k)
    have hrest (i : Nat) (hi : i < k) : n / b / b ^ i % b < c := by
      have h := hdigit (i + 1) (Nat.succ_lt_succ hi)
      rwa [Nat.pow_succ', ← Nat.div_div_eq_div_mul] at h
    rw [digitSum_succ c, digitSum_succ b, Nat.add_mul_mod_self_left, Nat.mod_eq_of_lt hfirst,
      Nat.add_mul_div_left _ _ (by omega), Nat.div_eq_of_lt hfirst, Nat.zero_add, ih hrest, Nat.pow_succ', Nat.mod_mul]

/-- A digit stands at its place. -/
theorem digitSum_digit {b c : Nat} (hb : 0 < b) (hbc : b ≤ c) {i k : Nat} (hi : i < k) (n : Nat) :
    digitSum b c k n / c ^ i % c = n / b ^ i % b := by
  induction i generalizing k n with
  | zero =>
    obtain ⟨k, rfl⟩ : ∃ k', k = k' + 1 := ⟨k - 1, by omega⟩
    have hdigit : n % b < c := (Nat.mod_lt n hb).trans_le hbc
    rw [digitSum_succ, Nat.pow_zero, Nat.div_one, Nat.pow_zero, Nat.div_one, Nat.add_mul_mod_self_left,
      Nat.mod_eq_of_lt hdigit]
  | succ i ih =>
    obtain ⟨k, rfl⟩ : ∃ k', k = k' + 1 := ⟨k - 1, by omega⟩
    have hdigit : n % b < c := (Nat.mod_lt n hb).trans_le hbc
    rw [digitSum_succ, Nat.pow_succ', ← Nat.div_div_eq_div_mul, Nat.add_mul_div_left _ _ (by omega),
      Nat.div_eq_of_lt hdigit, Nat.zero_add, ih (by omega), Nat.pow_succ', Nat.div_div_eq_div_mul]

/-! ## `BcdPack` and `BcdUnpack` -/

theorem bcdPackDigits_eq (k n : Nat) : bcdPackDigits k n = digitSum 10 16 k n := by
  induction k generalizing n with
  | zero => rfl
  | succ k ih => rw [bcdPackDigits, ih, digitSum_succ]

theorem bcdUnpackNibbles_eq (k b : Nat) : bcdUnpackNibbles k b = digitSum 16 10 k b := by
  induction k generalizing b with
  | zero => rfl
  | succ k ih => rw [bcdUnpackNibbles, ih, digitSum_succ]

theorem lt_pow_log2_succ {b : Nat} (hb : 2 ≤ b) (n : Nat) : n < b ^ (n.log2 + 1) :=
  Nat.lt_log2_self.trans_le (Nat.pow_le_pow_left hb _)

/-- Any number of digits that covers `n` will do. -/
theorem bcdPack_eq {k n : Nat} (hn : n < 10 ^ k) : bcdPack n = digitSum 10 16 k n := by
  rw [bcdPack, bcdPackDigits_eq]
  rcases Nat.le_total k (n.log2 + 1) with h | h
  · exact digitSum_of_lt (by omega) 16 hn h
  · exact (digitSum_of_lt (by omega) 16 (lt_pow_log2_succ (by omega) n) h).symm

/-- Any number of nibbles that covers `b` will do. -/
theorem bcdUnpack_eq {k b : Nat} (hb : b < 16 ^ k) : bcdUnpack b = digitSum 16 10 k b := by
  rw [bcdUnpack, bcdUnpackNibbles_eq]
  rcases Nat.le_total k (b.log2 + 1) with h | h
  · exact digitSum_of_lt (by omega) 10 hb h
  · exact (digitSum_of_lt (by omega) 10 (lt_pow_log2_succ (by omega) b) h).symm

/-- Packing a number cut to `k` digits packs its first `k` digits. -/
theorem bcdPack_mod (n k : Nat) : bcdPack (n % 10 ^ k) = digitSum 10 16 k n := by
  rw [bcdPack_eq (Nat.mod_lt n (Nat.pow_pos (by omega))), digitSum_mod]

theorem bcdPack_mod_pow (n k : Nat) : bcdPack n % 16 ^ k = bcdPack (n % 10 ^ k) := by
  have hn : n < 10 ^ (k + n) :=
    (Nat.lt_pow_self (by omega)).trans_le (Nat.pow_le_pow_right (by omega) (Nat.le_add_left n k))
  rw [bcdPack_eq hn, digitSum_mod_pow (by omega) (by omega) (Nat.le_add_right k n), bcdPack_mod]

theorem bcdUnpack_bcdPack (n : Nat) : bcdUnpack (bcdPack n) = n := by
  have hn : n < 10 ^ n := Nat.lt_pow_self (by omega)
  rw [bcdPack_eq hn, bcdUnpack_eq (digitSum_lt (by omega) (by omega) n n),
    digitSum_digitSum fun i _ => (Nat.mod_lt _ (by omega)).trans (by omega), Nat.mod_eq_of_lt hn]

/-- Settles O12: both are digit sums, cut and undone as digit sums are. -/
theorem bcdPackAndUnpackSums : Obligations.BcdPackAndUnpackSums := by
  refine ⟨fun n => bcdPack_eq ?_, fun b => bcdUnpack_eq ?_, fun n k => ?_, bcdUnpack_bcdPack⟩
  · exact (Nat.lt_succ_self n).trans (Nat.lt_pow_self (by omega))
  · exact (Nat.lt_succ_self b).trans (Nat.lt_pow_self (by omega))
  · rw [Nat.pow_mul]; exact bcdPack_mod_pow n k

/-! ## The two operations -/

theorem toNat_bin2bcdWord (n : BitVec 32) : (bin2bcdWord n).toNat = digitSum 10 16 8 n.toNat := by
  have hlt : digitSum 10 16 8 n.toNat < 2 ^ 32 := digitSum_lt (by omega) (by omega) 8 _
  rw [bin2bcdWord, bcdPack_mod, BitVec.toNat_ofNat, Nat.mod_eq_of_lt hlt]

/-- Eight nibbles of at most 15 weigh at most 166666665. -/
theorem digitSum_nibbles_lt (b : Nat) : digitSum 16 10 8 b < 2 ^ 32 := by
  have hterm (i : Nat) : b / 16 ^ i % 16 * 10 ^ i ≤ 15 * 10 ^ i :=
    Nat.mul_le_mul_right _ (Nat.le_of_lt_succ (Nat.mod_lt _ (by omega)))
  exact (Finset.sum_le_sum fun i _ => hterm i).trans_lt (by decide)

theorem toNat_bcd2binWord (b : BitVec 32) : (bcd2binWord b).toNat = digitSum 16 10 8 b.toNat := by
  rw [bcd2binWord, bcdUnpack_eq (k := 8) b.isLt, BitVec.toNat_ofNat, Nat.mod_eq_of_lt (digitSum_nibbles_lt _)]

theorem bin2bcd_answers (n : BitVec 32) (s : State) : Answers (.bin2bcd n) s .ok (.bcd (bin2bcdWord n)) := rfl

theorem bcd2bin_answers (b : BitVec 32) (s : State) : Answers (.bcd2bin b) s .ok (.n (bcd2binWord b)) := rfl

/-- Settles O13: a nibble of the word is a digit of the number. -/
theorem bin2bcdPacksEightDigits : Obligations.Bin2bcdPacksEightDigits := by
  intro n s
  refine ⟨_, bin2bcd_answers n s, fun i hi => ?_⟩
  rw [toNat_bin2bcdWord, digitSum_digit (by omega) (by omega) hi]

/-- Settles O14: the sum fits in the word. -/
theorem bcd2binSumsEightNibbles : Obligations.Bcd2binSumsEightNibbles := by
  intro b s
  exact ⟨_, bcd2bin_answers b s, toNat_bcd2binWord b⟩

/-- Settles O15: digit sums undo each other where the digits fit, and a field is at most six nibbles wide. -/
theorem bcdOperationsRoundTrip : Obligations.BcdOperationsRoundTrip := by
  refine ⟨fun n s hn => ?_, fun b s hb => ?_, fun f p z n h => ?_⟩
  · have hback : bcd2binWord (bin2bcdWord n) = n := by
      apply BitVec.eq_of_toNat_eq
      rw [toNat_bcd2binWord, toNat_bin2bcdWord,
        digitSum_digitSum fun i _ => (Nat.mod_lt _ (by omega)).trans (by omega), Nat.mod_eq_of_lt hn]
    refine ⟨_, bin2bcd_answers n s, ?_⟩
    have h := bcd2bin_answers (bin2bcdWord n) s
    rwa [hback] at h
  · have hback : bin2bcdWord (bcd2binWord b) = b := by
      apply BitVec.eq_of_toNat_eq
      rw [toNat_bin2bcdWord, toNat_bcd2binWord, digitSum_digitSum fun i hi => Nat.lt_succ_of_le (hb i hi),
        Nat.mod_eq_of_lt (b := 16 ^ 8) b.isLt]
    refine ⟨_, bcd2bin_answers b s, ?_⟩
    have h := bin2bcd_answers (bcd2binWord b) s
    rwa [hback] at h
  · refine withField_congr h f fun k hk => ?_
    have hlow : bcdPack (n % 10 ^ 6) = bcdPack n % 2 ^ 24 := (bcdPack_mod_pow n 6).symm
    have hk24 : k < 24 := by have := h.2; omega
    rw [BitVec.getLsbD_ofNat, BitVec.getLsbD_ofNat, hlow, Nat.testBit_mod_two_pow, decide_eq_true hk24, Bool.true_and]

end Sys2Proof.Machine
end

section
/-! `Round` (00_scope.md R12) and the exact rational of an operand (30_encoding.md R79). -/

namespace Sys2Proof.Machine

/-! ## `Round` -/

/-- Half way between two integers, the neighbour away from zero. -/
theorem roundRat_halfAwayFromZero_of_tie {q : Rat} (h : q - q.floor = 1 / 2) :
    roundRat .halfAwayFromZero q = if q < 0 then q.floor else q.floor + 1 := by
  simp only [roundRat, h, lt_irrefl, if_false]

/-- Half way between two integers, the even one. -/
theorem roundRat_halfToEven_of_tie {q : Rat} (h : q - q.floor = 1 / 2) :
    roundRat .halfToEven q = if q.floor % 2 = 0 then q.floor else q.floor + 1 := by
  simp only [roundRat, h, lt_irrefl, if_false]

/-- Away from a tie, `Round` is closer than one half. -/
theorem abs_roundRat_sub_lt {q : Rat} (h : q - q.floor ≠ 1 / 2) (ties : RoundTies) :
    |(roundRat ties q : Rat) - q| < 1 / 2 := by
  obtain ⟨hle, hlt⟩ := floor_bounds q
  unfold roundRat
  dsimp only
  rcases lt_or_gt_of_ne h with hr | hr
  · rw [if_pos hr, abs_sub_comm, abs_of_nonneg (sub_nonneg.2 hle)]
    exact hr
  · rw [if_neg (not_lt.2 hr.le), if_pos hr, Int.cast_add, Int.cast_one, abs_of_nonneg (sub_nonneg.2 hlt.le)]
    linarith

/-- `Round` is a nearest integer. -/
theorem abs_roundRat_sub_le (ties : RoundTies) (q : Rat) : |(roundRat ties q : Rat) - q| ≤ 1 / 2 := by
  by_cases h : q - q.floor = 1 / 2
  · have hneighbour : (roundRat ties q : Rat) - q = -(1 / 2) ∨ (roundRat ties q : Rat) - q = 1 / 2 := by
      rcases roundRat_floor_or_succ ties q with heq | heq
      · rw [heq]; exact .inl (by linarith)
      · rw [heq, Int.cast_add, Int.cast_one]; exact .inr (by linarith)
    rcases hneighbour with heq | heq <;> rw [heq] <;> norm_num
  · exact (abs_roundRat_sub_lt h ties).le

/-- A distance of one half is a tie. -/
theorem tie_of_abs_roundRat_sub {ties : RoundTies} {q : Rat} (h : |(roundRat ties q : Rat) - q| = 1 / 2) :
    q - q.floor = 1 / 2 := by
  by_contra hno
  exact absurd h (abs_roundRat_sub_lt hno ties).ne

/-- Settles O16: the distance is one half only on a tie, and there the rule chooses the neighbour. -/
theorem roundIsNearestWithTies : Obligations.RoundIsNearestWithTies := by
  intro q
  refine ⟨fun ties => abs_roundRat_sub_le ties q, fun h => ?_, fun h => ?_⟩
  · have htie := tie_of_abs_roundRat_sub h
    rw [roundRat_halfAwayFromZero_of_tie htie]
    by_cases hq : q < 0
    · rw [if_pos hq, abs_of_neg hq, abs_of_neg (by linarith)]
      linarith
    · have hq' := not_lt.1 hq
      rw [if_neg hq, Int.cast_add, Int.cast_one, abs_of_nonneg hq', abs_of_nonneg (by linarith)]
      linarith
  · rw [roundRat_halfToEven_of_tie (tie_of_abs_roundRat_sub h)]
    split
    · exact Int.even_iff.2 ‹_›
    · exact Int.even_iff.2 (by omega)

/-! ## Operands -/

/-- The sign of an operand is its top bit. -/
theorem neg_one_pow_signBit (b : F64) (a : Rat) :
    (-1) ^ (b.toNat / 2 ^ 63) * a = if b.msb then -a else a := by
  have hlt : b.toNat < 2 ^ 64 := b.isLt
  rw [BitVec.msb_eq_decide]
  by_cases h : 2 ^ 63 ≤ b.toNat
  · rw [if_pos (decide_eq_true h), show b.toNat / 2 ^ 63 = 1 by omega, pow_one, neg_one_mul]
  · rw [if_neg (by simpa using h), show b.toNat / 2 ^ 63 = 0 by omega, pow_zero, one_mul]

/-- Settles O17: exponent and mantissa as numbers, and the sign. -/
theorem engineeringOperandIsExact : Obligations.EngineeringOperandIsExact := by
  intro b
  have hexp : (b.extractLsb' 52 11).toNat = b.toNat / 2 ^ 52 % 2 ^ 11 := by
    rw [BitVec.extractLsb'_toNat, Nat.shiftRight_eq_div_pow]
  have hman : (b.extractLsb' 0 52).toNat = b.toNat % 2 ^ 52 := by
    rw [BitVec.extractLsb'_toNat, Nat.shiftRight_zero]
  unfold f64Rat
  rw [hexp, hman]
  generalize b.toNat / 2 ^ 52 % 2 ^ 11 = e
  generalize b.toNat % 2 ^ 52 = m
  by_cases he : e = 2047
  · simp [he]
  · dsimp only
    rw [if_neg he]
    refine ⟨⟨fun h => absurd h (Option.some_ne_none _), fun h => absurd h he⟩, fun x hx => ?_⟩
    rw [← Option.some.inj hx, neg_one_pow_signBit, pow2_eq, pow2_eq, Nat.cast_mul, Nat.cast_pow, Nat.cast_ofNat]

end Sys2Proof.Machine
end

section
/-! The frame an encoder writes, part by part: the SSM bits last, over the sign and the field (42_value_encode.md R124
to R130). -/

namespace Sys2Proof.Machine

/-! ## The SSM tables -/

/-- The encoder writes no code for `Data` (R129). -/
theorem ssmRawOf_data (fmt : Format) (neg : Bool) : ssmRawOf fmt .data neg = none := by cases fmt <;> rfl

/-- It writes one for every other intent, but for a BCD `FailureWarning` (R128). -/
theorem exists_ssmRawOf_eq {fmt : Format} {m : SsmValue} (hdata : m ≠ .data)
    (hbcd : fmt = .bcd → m ≠ .failureWarning) (neg : Bool) : ∃ raw, ssmRawOf fmt m neg = some raw := by
  cases m with
  | data => exact absurd rfl hdata
  | normalOperation | noComputedData | functionalTest => cases fmt <;> exact ⟨_, rfl⟩
  | failureWarning =>
    cases fmt with
    | bcd => exact absurd rfl (hbcd rfl)
    | bnr | discrete => exact ⟨_, rfl⟩

/-- The decoder's table undoes the encoder's (R128, R146). -/
theorem ssmOfRaw_of_ssmRawOf {fmt : Format} {m : SsmValue} {neg : Bool} {raw : BitVec 2}
    (h : ssmRawOf fmt m neg = some raw) : ssmOfRaw fmt raw = m := by
  cases m with
  | data => rw [ssmRawOf_data] at h; cases h
  | noComputedData | functionalTest => cases fmt <;> cases h <;> rfl
  | failureWarning =>
    cases fmt with
    | bcd => cases h
    | bnr | discrete => cases h; rfl
  | normalOperation =>
    cases fmt with
    | bcd => cases neg <;> cases h <;> rfl
    | bnr | discrete => cases h; rfl

/-- In BCD the code 3 is that of a negative value under `NormalOperation` (R128). -/
theorem ssmRawOf_bcd_eq_three {m : SsmValue} {neg : Bool} {raw : BitVec 2} (h : ssmRawOf .bcd m neg = some raw) :
    raw = 3 ↔ m = .normalOperation ∧ neg = true := by
  cases m with
  | data | failureWarning => cases h
  | normalOperation | noComputedData | functionalTest => cases neg <;> cases h <;> decide

/-! ## The SSM write -/

section SsmWrite

variable {l z : BitVec 8} {m : SsmValue}

/-- A code that is written is read back (R130, R142). -/
theorem ssmRawBits_ssmWrite {fmt : Format} {neg : Bool} {raw : BitVec 2} (h : ssmRawOf fmt m neg = some raw)
    (hlz : l.toNat + z.toNat ≤ 30) (f : Frame) : ssmRawBits (ssmWrite fmt m neg l z f) = raw := by
  apply BitVec.eq_of_getLsbD_eq
  intro k hk
  rw [ssmRawBits, BitVec.getLsbD_extractLsb', decide_eq_true hk, Bool.true_and, getLsbD_ssmWrite, h]
  dsimp only
  rw [if_pos (by omega), Nat.add_sub_cancel_left]

/-- The SSM write keeps every bit that it does not write. -/
theorem getLsbD_ssmWrite_kept (fmt : Format) (neg : Bool) (f : Frame) {k : Nat}
    (hk : ¬ (m ≠ .data ∧ l.toNat + z.toNat ≤ 30 ∧ (k = 29 ∨ k = 30))) :
    (ssmWrite fmt m neg l z f).getLsbD k = f.getLsbD k := by
  rw [getLsbD_ssmWrite]
  cases hraw : ssmRawOf fmt m neg with
  | none => rfl
  | some raw =>
    have hdata : m ≠ .data := by
      rintro rfl
      rw [ssmRawOf_data] at hraw
      cases hraw
    have hout : ¬ (l.toNat + z.toNat ≤ 30 ∧ (k = 29 ∨ k = 30)) := fun h => hk ⟨hdata, h⟩
    exact if_neg (by omega)

/-- The SSM write reaches no bit of the field: where it writes, the field lies below (R130). -/
theorem getLsbD_ssmWrite_field (h : FieldLegal l z) (fmt : Format) (neg : Bool) (f : Frame) {k : Nat}
    (hk : k < z.toNat) :
    (ssmWrite fmt m neg l z f).getLsbD (l.toNat - 1 + k) = f.getLsbD (l.toNat - 1 + k) := by
  have hl : 9 ≤ l.toNat := h.2.1
  exact getLsbD_ssmWrite_kept fmt neg f (by omega)

theorem getLsbD_ssmWrite_sign (fmt : Format) (neg : Bool) (f : Frame) :
    (ssmWrite fmt m neg l z f).getLsbD 28 = f.getLsbD 28 :=
  getLsbD_ssmWrite_kept fmt neg f (by omega)

theorem fieldBits_ssmWrite (h : FieldLegal l z) (fmt : Format) (neg : Bool) (f : Frame) :
    fieldBits (ssmWrite fmt m neg l z f) l z = fieldBits f l z := by
  apply BitVec.eq_of_getLsbD_eq
  intro k _
  rw [getLsbD_fieldBits h, getLsbD_fieldBits h]
  by_cases hk : k < z.toNat
  · rw [getLsbD_ssmWrite_field h fmt neg f hk]
  · rw [decide_eq_false hk, Bool.false_and, Bool.false_and]

end SsmWrite

/-- The sign bit lies above a field that ends below it (R126). -/
theorem fieldBits_signWrite {l z : BitVec 8} (h : FieldLegal l z) (hlz : l.toNat + z.toNat ≤ 29) (f : Frame)
    (neg : Bool) : fieldBits (signWrite f neg) l z = fieldBits f l z := by
  apply BitVec.eq_of_getLsbD_eq
  intro k _
  have hl : 9 ≤ l.toNat := h.2.1
  rw [getLsbD_fieldBits h, getLsbD_fieldBits h]
  by_cases hk : k < z.toNat
  · rw [getLsbD_signWrite, if_neg (by omega)]
  · rw [decide_eq_false hk, Bool.false_and, Bool.false_and]

/-- A bit of the field is that of the number written. -/
theorem getLsbD_withField_ofNat {l z : BitVec 8} (h : FieldLegal l z) (f : Frame) (n : Nat) {k : Nat}
    (hk : k < z.toNat) : (withField f l z (BitVec.ofNat 32 n)).getLsbD (l.toNat - 1 + k) = n.testBit k := by
  have hk32 : k < 32 := by have := h.2.2; omega
  rw [getLsbD_withField_inside h f _ hk, BitVec.getLsbD_ofNat, decide_eq_true hk32, Bool.true_and]

/-- A number that fits the field is read back. -/
theorem toNat_fieldBits_withField {l z : BitVec 8} (h : FieldLegal l z) (f : Frame) {n : Nat} (hn : n < 2 ^ z.toNat) :
    (fieldBits (withField f l z (BitVec.ofNat 32 n)) l z).toNat = n := by
  have hz : z.toNat ≤ 32 := by have := h.2.2; omega
  have hn32 : n < 2 ^ 32 := hn.trans_le (Nat.pow_le_pow_right (by omega) hz)
  have hmask : (mask z.toNat).toNat = 2 ^ z.toNat - 1 := by
    have hle : 2 ^ z.toNat ≤ 2 ^ 32 := Nat.pow_le_pow_right (by omega) hz
    rw [mask, BitVec.toNat_ofNat, Nat.mod_eq_of_lt (by omega)]
  rw [fieldBits_withField h, BitVec.toNat_and, hmask, Nat.and_two_pow_sub_one_eq_mod, BitVec.toNat_ofNat,
    Nat.mod_eq_of_lt hn32, Nat.mod_eq_of_lt hn]

end Sys2Proof.Machine
end

section
/-! The encoders (42_value_encode.md): what they answer on operands that pass the checks, and their refusals. -/

namespace Sys2Proof.Machine

/-! ## The operands as exact numbers -/

theorem encClipped_eq (lo hi v : Rat) (m : SsmValue) : encClipped ⟨lo, hi, v, m⟩ = min (max v lo) hi :=
  clip_eq v lo hi

theorem encNeg_eq (lo hi v : Rat) (m : SsmValue) : encNeg ⟨lo, hi, v, m⟩ = decide (min (max v lo) hi < 0) := by
  rw [encNeg, encClipped_eq]

theorem encAbs_eq (lo hi v : Rat) (m : SsmValue) : encAbs ⟨lo, hi, v, m⟩ = |min (max v lo) hi| := by
  rw [encAbs, encClipped_eq, absRat_eq_abs]

theorem bnrMagnitudeBits_eq (ties : RoundTies) (lo hi v : Rat) (m : SsmValue) (z : BitVec 8) :
    bnrMagnitudeBits ties ⟨lo, hi, v, m⟩ z
      = min (roundRat ties (|min (max v lo) hi| / (max |lo| |hi| / 2 ^ z.toNat))).toNat (2 ^ z.toNat - 1) := by
  rw [bnrMagnitudeBits, encAbs_eq, bnrScale_eq]

theorem bnrData_eq (ties : RoundTies) (lo hi v : Rat) (m : SsmValue) (z : BitVec 8) :
    bnrData ties ⟨lo, hi, v, m⟩ z
      = if min (max v lo) hi < 0
        then (2 ^ z.toNat - bnrMagnitudeBits ties ⟨lo, hi, v, m⟩ z) % 2 ^ z.toNat
        else bnrMagnitudeBits ties ⟨lo, hi, v, m⟩ z := by
  simp only [bnrData, encNeg_eq, decide_eq_true_eq]

/-! ## The answers -/

section Answers

variable {l z : BitVec 8} {mn mx ev : F64} {code : BitVec 3} {lo hi v : Rat} {m : SsmValue}

theorem encBcd_answers_frame (h : EncChecked l z mn mx ev code lo hi v m) (hm : m ≠ .failureWarning) (f : Frame)
    (s : State) : Answers (.encBcd f l z mn mx ev code) s .ok (.frameOut
      (ssmWrite .bcd m (decide (min (max v lo) hi < 0)) l z (withField f l z
        (BitVec.ofNat 32 (bcdPack (roundRat Config.params.roundTies |min (max v lo) hi|).toNat))))) := by
  rw [← encNeg_eq lo hi v m, ← encAbs_eq lo hi v m]
  have hres : encBcdResult Config.params.roundTies ⟨f, l, z, mn, mx, ev, code⟩
      = .ok (.frameOut (bcdFrame Config.params.roundTies ⟨f, l, z, mn, mx, ev, code⟩ ⟨lo, hi, v, m⟩)) := by
    simp only [encBcdResult, (encInput_eq_ok f l z mn mx ev code ⟨lo, hi, v, m⟩).2 h, if_neg hm]
  exact congrArg (codecEnd · s) hres

theorem encBnr_answers_frame (h : EncChecked l z mn mx ev code lo hi v m) (hM : max |lo| |hi| ≠ 0) (f : Frame)
    (s : State) : Answers (.encBnr f l z mn mx ev code) s .ok (.frameOut
      (ssmWrite .bnr m (decide (min (max v lo) hi < 0)) l z (signWrite (withField f l z
        (BitVec.ofNat 32 (bnrData Config.params.roundTies ⟨lo, hi, v, m⟩ z)))
        (decide (min (max v lo) hi < 0))))) := by
  rw [← encNeg_eq lo hi v m]
  rw [← bnrMagnitude_eq] at hM
  have hres : encBnrResult Config.params.roundTies ⟨f, l, z, mn, mx, ev, code⟩
      = .ok (.frameOut (bnrFrame Config.params.roundTies ⟨f, l, z, mn, mx, ev, code⟩ ⟨lo, hi, v, m⟩)) := by
    simp only [encBnrResult, (encInput_eq_ok f l z mn mx ev code ⟨lo, hi, v, m⟩).2 h, if_neg hM]
  exact congrArg (codecEnd · s) hres

theorem encDisc_answers_frame (h : EncChecked l z mn mx ev code lo hi v m) (hv : 0 ≤ v) (f : Frame) (s : State) :
    Answers (.encDisc f l z mn mx ev code) s .ok (.frameOut
      (ssmWrite .discrete m (decide (min (max v lo) hi < 0)) l z (withField f l z
        (BitVec.ofNat 32 (roundRat Config.params.roundTies |min (max v lo) hi|).toNat)))) := by
  rw [← encNeg_eq lo hi v m, ← encAbs_eq lo hi v m]
  have hres : encDiscResult Config.params.roundTies ⟨f, l, z, mn, mx, ev, code⟩
      = .ok (.frameOut (discFrame Config.params.roundTies ⟨f, l, z, mn, mx, ev, code⟩ ⟨lo, hi, v, m⟩)) := by
    simp only [encDiscResult, (encInput_eq_ok f l z mn mx ev code ⟨lo, hi, v, m⟩).2 h, if_neg (not_lt.2 hv)]
  exact congrArg (codecEnd · s) hres

/-- A written SSM code, as the number the statements read. -/
theorem ssmBits_of_ssmRawOf {fmt : Format} {neg : Bool} {raw : BitVec 2} (h : ssmRawOf fmt m neg = some raw)
    (hlz : l.toNat + z.toNat ≤ 30) (f : Frame) : (ssmWrite fmt m neg l z f).toNat / 2 ^ 29 % 4 = raw.toNat := by
  rw [← toNat_ssmRawBits, ssmRawBits_ssmWrite h hlz]

end Answers

/-- Settles O19: the frame of `encBcd_answers_frame`, read in the field, in the SSM bits and elsewhere. -/
theorem encBcdEncodes : Obligations.EncBcdEncodes := by
  intro f l z mn mx ev code lo hi v m s h hm c n
  have hfield := h.1
  refine ⟨_, encBcd_answers_frame h hm f s, fun k hk => ?_, fun hdata hlz => ?_, fun k hout hk => ?_⟩
  · exact (getLsbD_ssmWrite_field hfield .bcd _ _ hk).trans (getLsbD_withField_ofNat hfield f _ hk)
  · cases m with
    | data => exact absurd rfl hdata
    | failureWarning => exact absurd rfl hm
    | normalOperation =>
      rw [ssmBits_of_ssmRawOf (raw := if decide (c < 0) then 3 else 0) rfl hlz]
      by_cases hc : c < 0
      · rw [decide_eq_true hc, if_pos hc]; rfl
      · rw [decide_eq_false hc, if_neg hc]; rfl
    | noComputedData => exact ssmBits_of_ssmRawOf (raw := 1) rfl hlz _
    | functionalTest => exact ssmBits_of_ssmRawOf (raw := 2) rfl hlz _
  · exact (getLsbD_ssmWrite_kept .bcd _ _ hk).trans (getLsbD_withField_outside hfield f _ hout)

/-- Settles O20: the frame of `encBnr_answers_frame`, read at the sign, in the field, in the SSM bits and elsewhere. -/
theorem encBnrEncodes : Obligations.EncBnrEncodes := by
  intro f l z mn mx ev code lo hi v m s h hM c d data
  have hfield := h.1
  have hdata' : bnrData Config.params.roundTies ⟨lo, hi, v, m⟩ z = data := by
    rw [bnrData_eq, bnrMagnitudeBits_eq, div_div_eq_mul_div]
  have hframe := encBnr_answers_frame h hM f s
  rw [hdata'] at hframe
  refine ⟨_, hframe, ?_, fun k hk hsign => ?_, fun hdata hlz => ?_, fun k hsign hout hk => ?_⟩
  · rw [getLsbD_ssmWrite_sign, getLsbD_signWrite, if_pos rfl]
  · rw [getLsbD_ssmWrite_field hfield .bnr _ _ hk, getLsbD_signWrite, if_neg hsign,
      getLsbD_withField_ofNat hfield f _ hk]
  · cases m with
    | data => exact absurd rfl hdata
    | normalOperation => exact ssmBits_of_ssmRawOf (raw := 3) rfl hlz _
    | noComputedData => exact ssmBits_of_ssmRawOf (raw := 1) rfl hlz _
    | functionalTest => exact ssmBits_of_ssmRawOf (raw := 2) rfl hlz _
    | failureWarning => exact ssmBits_of_ssmRawOf (raw := 0) rfl hlz _
  · rw [getLsbD_ssmWrite_kept .bnr _ _ hk, getLsbD_signWrite, if_neg hsign,
      getLsbD_withField_outside hfield f _ hout]

/-- Settles O21: the frame of `encDisc_answers_frame`, read in the field, in the SSM bits and elsewhere. -/
theorem encDiscEncodes : Obligations.EncDiscEncodes := by
  intro f l z mn mx ev code lo hi v m s h hv n
  have hfield := h.1
  refine ⟨_, encDisc_answers_frame h hv f s, fun k hk => ?_, fun hdata hlz => ?_, fun k hout hk => ?_⟩
  · exact (getLsbD_ssmWrite_field hfield .discrete _ _ hk).trans (getLsbD_withField_ofNat hfield f _ hk)
  · cases m with
    | data => exact absurd rfl hdata
    | normalOperation => exact ssmBits_of_ssmRawOf (raw := 0) rfl hlz _
    | noComputedData => exact ssmBits_of_ssmRawOf (raw := 1) rfl hlz _
    | functionalTest => exact ssmBits_of_ssmRawOf (raw := 2) rfl hlz _
    | failureWarning => exact ssmBits_of_ssmRawOf (raw := 3) rfl hlz _
  · exact (getLsbD_ssmWrite_kept .discrete _ _ hk).trans (getLsbD_withField_outside hfield f _ hout)

/-! ## The refusals -/

/-- A failed check of R121 that every format shares. -/
theorem encInput_eq_error_of_not {l z : BitVec 8} {mn mx ev : F64} {code : BitVec 3}
    (h : ¬ ∃ lo hi v m, EncChecked l z mn mx ev code lo hi v m) (f : Frame) :
    encInput ⟨f, l, z, mn, mx, ev, code⟩ = .error .invalidFieldSpec := by
  cases hin : encInput ⟨f, l, z, mn, mx, ev, code⟩ with
  | ok x => exact absurd ⟨_, _, _, _, (encInput_eq_ok f l z mn mx ev code x).1 hin⟩ h
  | error e => rw [encInput_eq_error _ e hin]

/-- Settles O22: the reserved selector, the shared checks, and the last check of each format. -/
theorem encRefusesInOrder : Obligations.EncRefusesInOrder := by
  refine ⟨fun s p rest hpending => step_cons_error (e := .invalidFormat) hpending rfl,
    fun f l z mn mx ev code s => ⟨fun hno => ?_, fun lo hi v m h => ?_⟩⟩
  · have hin := encInput_eq_error_of_not hno f
    have hbcd : encBcdResult Config.params.roundTies ⟨f, l, z, mn, mx, ev, code⟩ = .error .invalidFieldSpec := by
      rw [encBcdResult, hin]
    have hbnr : encBnrResult Config.params.roundTies ⟨f, l, z, mn, mx, ev, code⟩ = .error .invalidFieldSpec := by
      rw [encBnrResult, hin]
    have hdisc : encDiscResult Config.params.roundTies ⟨f, l, z, mn, mx, ev, code⟩ = .error .invalidFieldSpec := by
      rw [encDiscResult, hin]
    exact ⟨congrArg (codecEnd · s) hbcd, congrArg (codecEnd · s) hbnr, congrArg (codecEnd · s) hdisc⟩
  · have hin := (encInput_eq_ok f l z mn mx ev code ⟨lo, hi, v, m⟩).2 h
    refine ⟨fun hM => ?_, fun hm => ?_, fun hv => ?_⟩
    · have hres : encBnrResult Config.params.roundTies ⟨f, l, z, mn, mx, ev, code⟩ = .error .invalidFieldSpec := by
        rw [← bnrMagnitude_eq] at hM
        simp only [encBnrResult, hin, hM, if_true]
      exact congrArg (codecEnd · s) hres
    · have hres : encBcdResult Config.params.roundTies ⟨f, l, z, mn, mx, ev, code⟩ = .error .invalidFieldSpec := by
        simp only [encBcdResult, hin, hm, if_true]
      exact congrArg (codecEnd · s) hres
    · have hres : encDiscResult Config.params.roundTies ⟨f, l, z, mn, mx, ev, code⟩ = .error .negativeNotAllowed := by
        simp only [encDiscResult, hin, hv, if_true]
      exact congrArg (codecEnd · s) hres

end Sys2Proof.Machine
end

section
/-! The decoders (43_value_decode.md): what they answer on operands that pass the checks, and their refusals. -/

namespace Sys2Proof.Machine

/-! ## The answers -/

section Answers

variable {l z : BitVec 8} {mn mx : F64} {lo hi : Rat}

/-- The value and the SSM that `DEC.BCD` answers, by their definitions (R143, R146 to R148). -/
theorem decBcd_answers_decoded (h : DecChecked l z mn mx lo hi) (f : Frame) (dec : BitVec 8) (s : State) :
    Answers (.decBcd f l z mn mx dec) s .ok
      (decodedResult .bcd ⟨f, l, z, mn, mx, dec⟩ (bcdEngQ ⟨f, l, z, mn, mx, dec⟩)) := by
  have hres : decBcdResult ⟨f, l, z, mn, mx, dec⟩
      = .ok (decodedResult .bcd ⟨f, l, z, mn, mx, dec⟩ (bcdEngQ ⟨f, l, z, mn, mx, dec⟩)) := by
    rw [decBcdResult, (decRange_eq_ok f l z mn mx dec lo hi).2 h]
  exact congrArg (codecEnd · s) hres

/-- The value and the SSM that `DEC.BNR` answers, by their definitions (R144, R146 to R148). -/
theorem decBnr_answers_decoded (h : DecChecked l z mn mx lo hi) (hM : max |lo| |hi| ≠ 0) (f : Frame) (dec : BitVec 8)
    (s : State) : Answers (.decBnr f l z mn mx dec) s .ok
      (decodedResult .bnr ⟨f, l, z, mn, mx, dec⟩
        (roundDecimals Config.params.roundTies (bnrExact ⟨f, l, z, mn, mx, dec⟩ lo hi) dec)) := by
  rw [← bnrMagnitude_eq] at hM
  have hres : decBnrResult Config.params.roundTies ⟨f, l, z, mn, mx, dec⟩
      = .ok (decodedResult .bnr ⟨f, l, z, mn, mx, dec⟩
        (roundDecimals Config.params.roundTies (bnrExact ⟨f, l, z, mn, mx, dec⟩ lo hi) dec)) := by
    simp only [decBnrResult, (decRange_eq_ok f l z mn mx dec lo hi).2 h, if_neg hM]
  exact congrArg (codecEnd · s) hres

/-- The value and the SSM that `DEC.DISC` answers, by their definitions (R145 to R148). -/
theorem decDisc_answers_decoded (h : DecChecked l z mn mx lo hi) (f : Frame) (dec : BitVec 8) (s : State) :
    Answers (.decDisc f l z mn mx dec) s .ok
      (decodedResult .discrete ⟨f, l, z, mn, mx, dec⟩ (decField ⟨f, l, z, mn, mx, dec⟩)) := by
  have hres : decDiscResult ⟨f, l, z, mn, mx, dec⟩
      = .ok (decodedResult .discrete ⟨f, l, z, mn, mx, dec⟩ (decField ⟨f, l, z, mn, mx, dec⟩)) := by
    rw [decDiscResult, (decRange_eq_ok f l z mn mx dec lo hi).2 h]
  exact congrArg (codecEnd · s) hres

end Answers

/-! ## The parts of a decoded frame -/

/-- The SSM value of a frame: `Data` past position 30, and below it the decoder's table on the raw code (R146, R147). -/
theorem ssmOf_eq (fmt : Format) (f : Frame) (l z : BitVec 8) :
    ssmOf fmt (ssmRawBits f) (ssmUsedForData l z)
      = if 30 < l.toNat + z.toNat then .data else ssmOfRaw fmt (ssmRawBits f) := by
  simp only [ssmOf, ssmUsedForData_iff]

/-- The same, the table given on the code as a number. -/
theorem ssmOf_eq_of_table {fmt : Format} {table : Nat → SsmValue} (h : ∀ r, ssmOfRaw fmt r = table r.toNat) (f : Frame)
    (l z : BitVec 8) : ssmOf fmt (ssmRawBits f) (ssmUsedForData l z)
      = if 30 < l.toNat + z.toNat then .data else table (f.toNat / 2 ^ 29 % 4) := by
  rw [ssmOf_eq, h, toNat_ssmRawBits]

theorem decField_eq {l z : BitVec 8} (h : FieldLegal l z) (f : Frame) (mn mx : F64) (dec : BitVec 8) :
    decField ⟨f, l, z, mn, mx, dec⟩ = f.toNat / 2 ^ (l.toNat - 1) % 2 ^ z.toNat := toNat_fieldBits h f

/-- `eng_q` of BCD: six nibbles cover the field. -/
theorem bcdEngQ_eq {l z : BitVec 8} (h : FieldLegal l z) (f : Frame) (mn mx : F64) (dec : BitVec 8) :
    bcdEngQ ⟨f, l, z, mn, mx, dec⟩
      = if l.toNat + z.toNat ≤ 30 ∧ f.toNat / 2 ^ 29 % 4 = 3
        then -((digitSum 16 10 6 (f.toNat / 2 ^ (l.toNat - 1) % 2 ^ z.toNat) : Nat) : Rat)
        else (digitSum 16 10 6 (f.toNat / 2 ^ (l.toNat - 1) % 2 ^ z.toNat) : Nat) := by
  have hz : z.toNat ≤ 24 := by have := h.2; omega
  have hlt : f.toNat / 2 ^ (l.toNat - 1) % 2 ^ z.toNat < 16 ^ 6 :=
    (Nat.mod_lt _ (Nat.two_pow_pos _)).trans_le (Nat.pow_le_pow_right (by omega) hz)
  have hraw : (ssmRawBits f = 3) ↔ f.toNat / 2 ^ 29 % 4 = 3 := by
    rw [← toNat_ssmRawBits, ← BitVec.toNat_inj]; rfl
  have hcond : (!ssmUsedForData l z && decide (ssmRawBits f = 3)) = true
      ↔ l.toNat + z.toNat ≤ 30 ∧ f.toNat / 2 ^ 29 % 4 = 3 := by
    rw [Bool.and_eq_true, Bool.not_eq_true', ← Bool.not_eq_true, ssmUsedForData_iff, Nat.not_lt, decide_eq_true_eq,
      hraw]
  simp only [bcdEngQ, decField_eq h, bcdUnpack_eq hlt, hcond]

/-- The exact value of BNR, with the sign bit and the scale as the statements write them. -/
theorem bnrExact_eq {l z : BitVec 8} (h : FieldLegal l z) (f : Frame) (mn mx : F64) (dec : BitVec 8) (lo hi : Rat) :
    bnrExact ⟨f, l, z, mn, mx, dec⟩ lo hi
      = if f.toNat / 2 ^ 28 % 2 = 1
        then -(((2 ^ z.toNat - f.toNat / 2 ^ (l.toNat - 1) % 2 ^ z.toNat) % 2 ^ z.toNat : Nat)
          * (max |lo| |hi| / 2 ^ z.toNat))
        else (f.toNat / 2 ^ (l.toNat - 1) % 2 ^ z.toNat : Nat) * (max |lo| |hi| / 2 ^ z.toNat) := by
  have hsign : f.getLsbD 28 = true ↔ f.toNat / 2 ^ 28 % 2 = 1 := by
    rw [BitVec.getLsbD, Nat.testBit_eq_decide_div_mod_eq, decide_eq_true_eq]
  simp only [bnrExact, decField_eq h, bnrScale_eq, hsign]

theorem roundDecimals_eq (ties : RoundTies) (x : Rat) (dec : BitVec 8) :
    roundDecimals ties x dec = roundRat ties (x * 10 ^ dec.toNat) / 10 ^ dec.toNat := by
  simp only [roundDecimals, Nat.cast_pow, Nat.cast_ofNat]

/-! ## The statements -/

/-- The BCD column of R146. -/
def bcdTable : Nat → SsmValue
  | 1 => .noComputedData
  | 2 => .functionalTest
  | _ => .normalOperation

/-- The BNR column of R146. -/
def bnrTable : Nat → SsmValue
  | 0 => .failureWarning
  | 1 => .noComputedData
  | 2 => .functionalTest
  | _ => .normalOperation

/-- The Discrete column of R146. -/
def discreteTable : Nat → SsmValue
  | 1 => .noComputedData
  | 2 => .functionalTest
  | 3 => .failureWarning
  | _ => .normalOperation

/-- Settles O23: value and SSM of `decBcd_answers_decoded`. -/
theorem decBcdDecodes : Obligations.DecBcdDecodes := by
  intro f l z mn mx dec lo hi s h fld raw n q m
  have hq : bcdEngQ ⟨f, l, z, mn, mx, dec⟩ = q := bcdEngQ_eq h.1 f mn mx dec
  have hm : ssmOf .bcd (ssmRawBits f) (ssmUsedForData l z) = m :=
    ssmOf_eq_of_table (table := bcdTable) (by decide) f l z
  have hans := decBcd_answers_decoded h f dec s
  rwa [decodedResult, hq, hm] at hans

/-- Settles O24: value and SSM of `decBnr_answers_decoded`. -/
theorem decBnrDecodes : Obligations.DecBnrDecodes := by
  intro f l z mn mx dec lo hi s h hM fld raw scale x q m
  have hx : bnrExact ⟨f, l, z, mn, mx, dec⟩ lo hi = x := bnrExact_eq h.1 f mn mx dec lo hi
  have hm : ssmOf .bnr (ssmRawBits f) (ssmUsedForData l z) = m :=
    ssmOf_eq_of_table (table := bnrTable) (by decide) f l z
  have hans := decBnr_answers_decoded h hM f dec s
  rwa [decodedResult, hx, roundDecimals_eq, hm] at hans

/-- Settles O25: value and SSM of `decDisc_answers_decoded`. -/
theorem decDiscDecodes : Obligations.DecDiscDecodes := by
  intro f l z mn mx dec lo hi s h fld raw m
  have hm : ssmOf .discrete (ssmRawBits f) (ssmUsedForData l z) = m :=
    ssmOf_eq_of_table (table := discreteTable) (by decide) f l z
  have hans := decDisc_answers_decoded h f dec s
  rwa [decodedResult, decField_eq h.1, hm] at hans

/-! ## The refusals -/

/-- A failed check of R141 that every format shares. -/
theorem decRange_eq_error_of_not {l z : BitVec 8} {mn mx : F64} (h : ¬ ∃ lo hi, DecChecked l z mn mx lo hi) (f : Frame)
    (dec : BitVec 8) : decRange ⟨f, l, z, mn, mx, dec⟩ = .error .invalidFieldSpec := by
  cases hrange : decRange ⟨f, l, z, mn, mx, dec⟩ with
  | ok x => exact absurd ⟨_, _, (decRange_eq_ok f l z mn mx dec x.1 x.2).1 hrange⟩ h
  | error e => rw [decRange_eq_error _ e hrange]

/-- Settles O26: the reserved selector, the shared checks, and the magnitude of a BNR range. -/
theorem decRefuses : Obligations.DecRefuses := by
  refine ⟨fun s p rest hpending => step_cons_error (e := .invalidFormat) hpending rfl,
    fun f l z mn mx dec s => ⟨fun hno => ?_, fun lo hi h hM => ?_⟩⟩
  · have hrange := decRange_eq_error_of_not hno f dec
    have hbcd : decBcdResult ⟨f, l, z, mn, mx, dec⟩ = .error .invalidFieldSpec := by rw [decBcdResult, hrange]
    have hbnr : decBnrResult Config.params.roundTies ⟨f, l, z, mn, mx, dec⟩ = .error .invalidFieldSpec := by
      rw [decBnrResult, hrange]
    have hdisc : decDiscResult ⟨f, l, z, mn, mx, dec⟩ = .error .invalidFieldSpec := by rw [decDiscResult, hrange]
    exact ⟨congrArg (codecEnd · s) hbcd, congrArg (codecEnd · s) hbnr, congrArg (codecEnd · s) hdisc⟩
  · have hres : decBnrResult Config.params.roundTies ⟨f, l, z, mn, mx, dec⟩ = .error .invalidFieldSpec := by
      rw [← bnrMagnitude_eq] at hM
      simp only [decBnrResult, (decRange_eq_ok f l z mn mx dec lo hi).2 h, hM, if_true]
    exact congrArg (codecEnd · s) hres

end Sys2Proof.Machine
end

section
/-! The round trips of 43_value_decode.md section 4 (R149): the decoder on a frame of the encoder. -/

namespace Sys2Proof.Machine

/-- The range checks of the encoder are those of the decoder (R121, R141). -/
theorem EncChecked.decChecked {l z : BitVec 8} {mn mx ev : F64} {code : BitVec 3} {lo hi v : Rat} {m : SsmValue}
    (h : EncChecked l z mn mx ev code lo hi v m) : DecChecked l z mn mx lo hi := by
  obtain ⟨hfield, -, hlo, hhi, -, hle⟩ := h
  exact ⟨hfield, hlo, hhi, hle⟩

/-- The SSM value of an encoded frame is the intent, when a code is written for it. -/
theorem decodedResult_ssmWrite {fmt : Format} {m : SsmValue} {l z : BitVec 8} (hdata : m ≠ .data)
    (hbcd : fmt = .bcd → m ≠ .failureWarning) (hlz : l.toNat + z.toNat ≤ 30) (neg : Bool) (f : Frame) (mn mx : F64)
    (dec : BitVec 8) (q : Rat) :
    decodedResult fmt ⟨ssmWrite fmt m neg l z f, l, z, mn, mx, dec⟩ q = .decoded q (f64Of q) m := by
  obtain ⟨raw, hraw⟩ := exists_ssmRawOf_eq hdata hbcd neg
  rw [decodedResult, ssmOf_eq, if_neg (Nat.not_lt.2 hlz), ssmRawBits_ssmWrite hraw hlz, ssmOfRaw_of_ssmRawOf hraw]

/-- The field of an encoded frame without a sign write. -/
theorem decField_ssmWrite_withField {l z : BitVec 8} (h : FieldLegal l z) (fmt : Format) (m : SsmValue) (neg : Bool)
    (f : Frame) {n : Nat} (hn : n < 2 ^ z.toNat) (mn mx : F64) (dec : BitVec 8) :
    decField ⟨ssmWrite fmt m neg l z (withField f l z (BitVec.ofNat 32 n)), l, z, mn, mx, dec⟩ = n := by
  rw [decField, fieldBits_ssmWrite h, toNat_fieldBits_withField h f hn]

/-! ## BCD and Discrete -/

/-- The value of an encoded BCD frame: the packed number, negative where the code says so (R143). -/
theorem bcdEngQ_ssmWrite {l z : BitVec 8} (h : FieldLegal l z) {m : SsmValue} (hdata : m ≠ .data)
    (hm : m ≠ .failureWarning) (hlz : l.toNat + z.toNat ≤ 30) (neg : Bool) (f : Frame) {n : Nat}
    (hn : bcdPack n < 2 ^ z.toNat) (mn mx : F64) (dec : BitVec 8) :
    bcdEngQ ⟨ssmWrite .bcd m neg l z (withField f l z (BitVec.ofNat 32 (bcdPack n))), l, z, mn, mx, dec⟩
      = if m = .normalOperation ∧ neg = true then -(n : Rat) else n := by
  obtain ⟨raw, hraw⟩ := exists_ssmRawOf_eq (fmt := .bcd) hdata (fun _ => hm) neg
  have hused : ssmUsedForData l z = false := by
    rw [← Bool.not_eq_true, ssmUsedForData_iff, Nat.not_lt]; exact hlz
  simp only [bcdEngQ, decField_ssmWrite_withField h .bcd m neg f hn, bcdUnpack_bcdPack, hused,
    ssmRawBits_ssmWrite hraw hlz, ssmRawOf_bcd_eq_three hraw, Bool.not_false, Bool.true_and, decide_eq_true_eq]

/-- Settles O27: the field holds the digits, and the code the sign and the intent. -/
theorem bcdRoundTrip : Obligations.BcdRoundTrip := by
  intro f l z mn mx ev code dec lo hi v m s h hm hdata hlz c n hn q
  have hq := bcdEngQ_ssmWrite h.1 hdata hm hlz (decide (c < 0)) f hn mn mx dec
  simp only [decide_eq_true_eq] at hq
  have hans := decBcd_answers_decoded h.decChecked
    (ssmWrite .bcd m (decide (c < 0)) l z (withField f l z (BitVec.ofNat 32 (bcdPack n)))) dec s
  rw [hq, decodedResult_ssmWrite hdata (fun _ => hm) hlz] at hans
  exact ⟨_, encBcd_answers_frame h hm f s, hans⟩

/-- Settles O29: the field holds the number, and the code the intent. -/
theorem discreteRoundTrip : Obligations.DiscreteRoundTrip := by
  intro f l z mn mx ev code dec lo hi v m s h hv hdata hlz n hn
  have hans := decDisc_answers_decoded h.decChecked
    (ssmWrite .discrete m (decide (min (max v lo) hi < 0)) l z (withField f l z (BitVec.ofNat 32 n))) dec s
  rw [decField_ssmWrite_withField h.1 .discrete m _ f hn,
    decodedResult_ssmWrite (fmt := .discrete) hdata nofun hlz] at hans
  exact ⟨_, encDisc_answers_frame h hv f s, hans⟩

/-! ## BNR -/

/-- Two's complement undoes itself. -/
theorem twosComplement_twosComplement {k d : Nat} (h : d < 2 ^ k) :
    (2 ^ k - (2 ^ k - d) % 2 ^ k) % 2 ^ k = d := by
  rcases Nat.eq_zero_or_pos d with rfl | hd
  · rw [Nat.sub_zero, Nat.mod_self, Nat.sub_zero, Nat.mod_self]
  · rw [Nat.mod_eq_of_lt (a := 2 ^ k - d) (by omega), Nat.sub_sub_self h.le, Nat.mod_eq_of_lt h]

/-- Rounding to decimals moves a value by at most half a unit of the last one. -/
theorem abs_roundDecimals_sub_le (ties : RoundTies) (x : Rat) (dec : BitVec 8) :
    |roundDecimals ties x dec - x| ≤ 1 / 10 ^ dec.toNat / 2 := by
  have ht : (0 : Rat) < 10 ^ dec.toNat := by positivity
  have hround := abs_roundRat_sub_le ties (x * 10 ^ dec.toNat)
  have hscale : roundDecimals ties x dec - x
      = ((roundRat ties (x * 10 ^ dec.toNat) : Rat) - x * 10 ^ dec.toNat) / 10 ^ dec.toNat := by
    rw [roundDecimals_eq, sub_div, mul_div_cancel_right₀ _ ht.ne']
  rw [hscale, abs_div, abs_of_pos ht, div_right_comm]
  exact div_le_div_of_nonneg_right hround ht.le

/-- The rounded quotient cut to `k` bits: within one half, and at the top within one (R125). -/
theorem abs_cut_sub_le {k : Nat} {y : Rat} (h0 : 0 ≤ y) (hk : y ≤ 2 ^ k) (ties : RoundTies) :
    |((min (roundRat ties y).toNat (2 ^ k - 1) : Nat) : Rat) - y| ≤ 1
      ∧ (y < 2 ^ k - 1 / 2 → |((min (roundRat ties y).toNat (2 ^ k - 1) : Nat) : Rat) - y| ≤ 1 / 2) := by
  obtain ⟨r, hr⟩ := Int.eq_ofNat_of_zero_le (roundRat_nonneg ties h0)
  have hround := abs_roundRat_sub_le ties y
  rw [hr, Int.cast_natCast] at hround
  rw [hr, Int.toNat_natCast]
  have hpow : ((2 ^ k - 1 : Nat) : Rat) = 2 ^ k - 1 := by
    rw [Nat.cast_sub Nat.one_le_two_pow, Nat.cast_pow, Nat.cast_ofNat, Nat.cast_one]
  rcases Nat.le_total r (2 ^ k - 1) with hle | hge
  · rw [min_eq_left hle]
    exact ⟨hround.trans (by norm_num), fun _ => hround⟩
  · rw [min_eq_right hge, hpow]
    have hge' : (2 : Rat) ^ k - 1 ≤ r := by rw [← hpow]; exact_mod_cast hge
    obtain ⟨hlow, hhigh⟩ := abs_le.1 hround
    have hstep : |(2 : Rat) ^ k - 1 - y| ≤ 1 := abs_le.2 ⟨by linarith, by linarith⟩
    refine ⟨hstep, fun hy => ?_⟩
    have hr' : r ≤ 2 ^ k - 1 := by
      have hlt : (r : Rat) < 2 ^ k := by linarith
      have hlt' : r < 2 ^ k := by exact_mod_cast hlt
      omega
    rw [← hpow, ← Nat.le_antisymm hr' hge]
    exact hround

/-- The clipped value stays within the larger magnitude of its range. -/
theorem abs_clip_le {lo hi : Rat} (h : lo ≤ hi) (v : Rat) : |min (max v lo) hi| ≤ max |lo| |hi| := by
  have hlow : lo ≤ min (max v lo) hi := le_min (le_max_right v lo) h
  exact abs_le_max_abs_abs hlow (min_le_right _ _)

/-- The BNR data of a magnitude: itself, or its two's complement (R125). -/
def bnrDatum (neg : Bool) (k d : Nat) : Nat := if neg then (2 ^ k - d) % 2 ^ k else d

theorem bnrDatum_lt {k d : Nat} (h : d < 2 ^ k) (neg : Bool) : bnrDatum neg k d < 2 ^ k := by
  unfold bnrDatum
  split
  · exact Nat.mod_lt _ (Nat.two_pow_pos k)
  · exact h

theorem bnrData_eq_bnrDatum (ties : RoundTies) (lo hi v : Rat) (m : SsmValue) (z : BitVec 8) :
    bnrData ties ⟨lo, hi, v, m⟩ z = bnrDatum (decide (min (max v lo) hi < 0)) z.toNat
      (bnrMagnitudeBits ties ⟨lo, hi, v, m⟩ z) := by
  simp only [bnrData_eq, bnrDatum, decide_eq_true_eq]

/-- The BNR frame of a sign and a magnitude (R125, R126, R129). -/
def signedFrame (m : SsmValue) (neg : Bool) (l z : BitVec 8) (f : Frame) (d : Nat) : Frame :=
  ssmWrite .bnr m neg l z (signWrite (withField f l z (BitVec.ofNat 32 (bnrDatum neg z.toNat d))) neg)

/-- The value of a BNR frame whose field ends below the sign bit (R144). -/
theorem bnrExact_signedFrame {l z : BitVec 8} (h : FieldLegal l z) (hlz : l.toNat + z.toNat ≤ 29) (m : SsmValue)
    (neg : Bool) (f : Frame) {d : Nat} (hd : d < 2 ^ z.toNat) (mn mx : F64) (dec : BitVec 8) (lo hi : Rat) :
    bnrExact ⟨signedFrame m neg l z f d, l, z, mn, mx, dec⟩ lo hi
      = f64Sign neg * (d * (max |lo| |hi| / 2 ^ z.toNat)) := by
  have hfield : decField ⟨signedFrame m neg l z f d, l, z, mn, mx, dec⟩ = bnrDatum neg z.toNat d := by
    rw [decField, signedFrame, fieldBits_ssmWrite h, fieldBits_signWrite h hlz,
      toNat_fieldBits_withField h f (bnrDatum_lt hd neg)]
  have hsign : (signedFrame m neg l z f d).getLsbD 28 = neg := by
    rw [signedFrame, getLsbD_ssmWrite_sign, getLsbD_signWrite, if_pos rfl]
  simp only [bnrExact, hfield, hsign, bnrScale_eq]
  cases neg with
  | true => simp only [bnrDatum, if_true, twosComplement_twosComplement hd, f64Sign, neg_one_mul]
  | false => simp only [bnrDatum, f64Sign, Bool.false_eq_true, if_false, one_mul]

theorem f64Sign_mul_eq_abs (c : Rat) : f64Sign (decide (c < 0)) * c = |c| := by
  by_cases hc : c < 0
  · rw [decide_eq_true hc, abs_of_neg hc]; exact neg_one_mul c
  · rw [decide_eq_false hc, abs_of_nonneg (not_lt.1 hc)]; exact one_mul c

/-- A value of the right sign misses by the error of its magnitude, in steps of the scale. -/
theorem abs_signed_sub_eq {scale : Rat} (hscale : 0 < scale) (c : Rat) (d : Nat) :
    |f64Sign (decide (c < 0)) * (d * scale) - c| = |(d : Rat) - |c| / scale| * scale := by
  rw [abs_f64Sign_mul_sub, f64Sign_mul_eq_abs, ← abs_mul_sub_mul_of_pos hscale, div_mul_cancel₀ _ hscale.ne']

/-- The two errors of the round trip add up: that of the magnitude in steps of the scale, that of the decimals. -/
theorem abs_roundDecimals_signed_sub_le {scale err : Rat} (hscale : 0 < scale) {c : Rat} {d : Nat}
    (hd : |(d : Rat) - |c| / scale| ≤ err) (ties : RoundTies) (dec : BitVec 8) :
    |roundDecimals ties (f64Sign (decide (c < 0)) * (d * scale)) dec - c|
      ≤ err * scale + 1 / 10 ^ dec.toNat / 2 := by
  rw [add_comm]
  refine (abs_sub_le _ _ c).trans (add_le_add (abs_roundDecimals_sub_le ties _ dec) ?_)
  rw [abs_signed_sub_eq hscale]
  exact mul_le_mul_of_nonneg_right hd hscale.le

/-- Settles O28: the encoder's magnitude misses by one half, at the top by one; the decoder adds half a decimal. -/
theorem bnrRoundTrip : Obligations.BnrRoundTrip := by
  intro f l z mn mx ev code dec lo hi v m s h hM hdata hlz c scale
  obtain ⟨-, -, -, hle⟩ := h.decChecked
  have hMpos : 0 < max |lo| |hi| := lt_of_le_of_ne ((abs_nonneg lo).trans (le_max_left _ _)) hM.symm
  have hscale : 0 < scale := div_pos hMpos (by positivity)
  have hquot : |c| / scale ≤ 2 ^ z.toNat := by
    rw [div_div_eq_mul_div, div_le_iff₀ hMpos, mul_comm]
    exact mul_le_mul_of_nonneg_left (abs_clip_le hle v) (by positivity)
  obtain ⟨hone, hhalf⟩ := abs_cut_sub_le (div_nonneg (abs_nonneg c) hscale.le) hquot Config.params.roundTies
  have hframe : Answers (.encBnr f l z mn mx ev code) s .ok (.frameOut (signedFrame m (decide (c < 0)) l z f
      (min (roundRat Config.params.roundTies (|c| / scale)).toNat (2 ^ z.toNat - 1)))) := by
    have hans := encBnr_answers_frame h hM f s
    rwa [bnrData_eq_bnrDatum, bnrMagnitudeBits_eq] at hans
  generalize hd : min (roundRat Config.params.roundTies (|c| / scale)).toNat (2 ^ z.toNat - 1) = d at hone hhalf hframe
  have hdlt : d < 2 ^ z.toNat := by
    have hpos := Nat.two_pow_pos z.toNat
    omega
  have hans := decBnr_answers_decoded h.decChecked hM (signedFrame m (decide (c < 0)) l z f d) dec s
  rw [bnrExact_signedFrame h.1 hlz m _ f hdlt, signedFrame,
    decodedResult_ssmWrite (fmt := .bnr) hdata nofun (by omega)] at hans
  refine ⟨_, _, hframe, hans, ?_, fun hy => ?_⟩
  · have hsum := abs_roundDecimals_signed_sub_le hscale hone Config.params.roundTies dec
    rwa [one_mul] at hsum
  · have hsum := abs_roundDecimals_signed_sub_le hscale (hhalf hy) Config.params.roundTies dec
    rwa [one_div_mul_eq_div] at hsum

end Sys2Proof.Machine
end
